-- ==== Sys2Proof/Word.lean ====
section
/-! DEFINITION. The bit vectors of the block: a buffered element, a command word, the error counter.
Nothing else is a bit vector: cursors, occupancies and token counts are natural numbers, because the spec
gives them ranges that depend on the capacity (R14 to R16, R19, R23). -/

namespace Sys2Proof

/-- A buffered element: `ELEM_W = 8` bits (R4, R13, R44). -/
abbrev Byte := BitVec 8

/-- A command word: 16 bits, one length (R60). -/
abbrev Word := BitVec 16

/-- The error counter and the result of ERRQ and ERRCLR: `ERRCNT_W = 32` bits, unsigned (R21, R63). -/
abbrev Count := BitVec 32

end Sys2Proof
end

