-- ==== Sys2Proof/Config.lean ====
section
/-! DEFINITION. The implementation parameters of rule R4. The modes and capacities are arguments of the model:
a configuration is plain data that the power-on state is built from, and no operation writes it (R27). The
configuration of `State.reset` is one value among all of them (log entry 1); statements hold for every one. -/

namespace Sys2Proof

/-- `RX_MODE[p]`: what GETCH does on an empty ring (R4, R85, decision D9). -/
inductive RxMode where
  | interrupt
  | polled
  deriving DecidableEq, Repr

/-- `TX_MODE[p]`, with `N_TX[p]`, which is defined only when the port is queued (R4, R10, R100). -/
inductive TxMode where
  | queued (nTx : Nat)
  | direct
  deriving DecidableEq, Repr

/-- `CDC_MODE`: whether each side sees the other side's progress at once or by delivered tokens (R135). -/
inductive CdcMode where
  | exact
  | lagged
  deriving DecidableEq, Repr

/-- The parameters of one port (R4: "independent per port"). -/
structure PortConfig where
  rxMode : RxMode
  nRx : Nat
  txMode : TxMode
  deriving DecidableEq, Repr

/-- The configuration of the block (R4, R27). -/
structure Config where
  cdc : CdcMode
  port0 : PortConfig
  port1 : PortConfig
  deriving DecidableEq, Repr

/-- `NPORTS` (R5). -/
def Config.nports : Nat := 2

/-- `ELEM_W` (R4). -/
def Config.elemW : Nat := 8

/-- `ERRCNT_W` (R4, R21, decision D7). -/
def Config.errcntW : Nat := 32

/-- `SYNC_STAGES`: informative only, no rule depends on it (R4, R141). -/
def Config.syncStages : Nat := 2

/-- The configuration of `State.reset`. `CDC_MODE = EXACT` is the reference value of R4. The modes and
capacities are OPEN in R4. DESIGN CHOICE (log entry 1): port 0 is the default of 95_test_vectors.md
(`N_RX[0] = 4`, queued, `N_TX[0] = 2`, `RX_MODE[0] = INTERRUPT`) and port 1 is that of its program P4
(`N_RX[1] = 4`, direct, `RX_MODE[1] = INTERRUPT`). -/
def Config.reference : Config where
  cdc := .exact
  port0 := { rxMode := .interrupt, nRx := 4, txMode := .queued 2 }
  port1 := { rxMode := .interrupt, nRx := 4, txMode := .direct }

end Sys2Proof
end

