-- ==== Sys2Proof/Syntax.lean ====
section
/-! DEFINITION. The operations: one constructor per row of spec/opcode_table.json (R62, R64), and the five
command ports that accept them (R6). An operation carries its port number and, for RXPUSH, RXERR and PUTCH,
its byte; the SYNC channel number is the constructor. PUTSTR is a pseudo-operation without an encoding (R69);
it is expanded in Machine/TxPath.lean. -/

namespace Sys2Proof

/-- The port number `p`, 0 or 1 (R5). -/
inductive PortId where
  | p0
  | p1
  deriving DecidableEq, Repr

/-- The other port. -/
def PortId.other : PortId → PortId
  | .p0 => .p1
  | .p1 => .p0

/-- The operations of the opcode map (R64). -/
inductive Instr where
  | init (p : PortId)
  | rxpush (p : PortId) (d : Byte)
  | rxerr (p : PortId) (d : Byte)
  | rxavail (p : PortId)
  | getch (p : PortId)
  | rxflush (p : PortId)
  | putch (p : PortId) (d : Byte)
  | txdrain (p : PortId)
  | txrdy (p : PortId)
  | errq (p : PortId)
  | errclr (p : PortId)
  | syncRxpush (p : PortId)
  | syncRxpop (p : PortId)
  | syncTxpush (p : PortId)
  | syncTxpop (p : PortId)
  | syncErr (p : PortId)
  | txdone (p : PortId)
  deriving DecidableEq, Repr

/-- The command ports, one per kind of agent: foreground, receive interrupt, transmit interrupt, serial
hardware, status synchronisers (R6, R169). -/
inductive Agent where
  | fg
  | rxi (p : PortId)
  | txi (p : PortId)
  | env (p : PortId)
  | syn (p : PortId)
  deriving DecidableEq, Repr

/-- The port whose state an operation touches: "every operation is a per-port operation" (R61). -/
def Instr.port : Instr → PortId
  | .init p => p
  | .rxpush p _ => p
  | .rxerr p _ => p
  | .rxavail p => p
  | .getch p => p
  | .rxflush p => p
  | .putch p _ => p
  | .txdrain p => p
  | .txrdy p => p
  | .errq p => p
  | .errclr p => p
  | .syncRxpush p => p
  | .syncRxpop p => p
  | .syncTxpush p => p
  | .syncTxpop p => p
  | .syncErr p => p
  | .txdone p => p

end Sys2Proof
end

