-- ==== Sys2Proof/WellFormed.lean ====
section
/-! DEFINITION. The checks on raw data. An `Instr` needs none: its port is one of two constructors, its byte
has eight bits and its SYNC channel is a constructor, so every `Instr` is well formed by its type. What can be
ill formed is a command word (R65), a configuration (R4) and the string operand of PUTSTR (R69). The word
checks are written on the number of the word, apart from the decoder's bit fields, so that their agreement
with the decoder says something. -/

namespace Sys2Proof

/-- `op` is one of 0x0 to 0xC; 0xD to 0xF are reserved (R64, R65). -/
def Word.opDefined (w : Word) : Bool := decide (w.toNat / 4096 ≤ 12)

/-- `z = w[10:8]` is 0 (R60, R65). -/
def Word.zClear (w : Word) : Bool := decide (w.toNat / 256 % 8 = 0)

/-- The operations with a data operand are RXPUSH, RXERR and PUTCH (R62). -/
def Word.hasData (w : Word) : Bool :=
  decide (w.toNat / 4096 = 1) || decide (w.toNat / 4096 = 2) || decide (w.toNat / 4096 = 6)

/-- An operation without a data operand, other than SYNC, has `w[7:0] = 0` (R60, R65). -/
def Word.dataClear (w : Word) : Bool :=
  w.hasData || decide (w.toNat / 4096 = 11) || decide (w.toNat % 256 = 0)

/-- A SYNC word names a channel 0 to 4 (R65). -/
def Word.channelDefined (w : Word) : Bool :=
  decide (w.toNat / 4096 ≠ 11) || decide (w.toNat % 256 ≤ 4)

/-- A command word that matches a row of the opcode map (R65). -/
def Word.wellFormed (w : Word) : Bool :=
  w.opDefined && w.zClear && w.dataClear && w.channelDefined

/-- `N_TX[p] >= 1`, required only of a queued port (R4, decision D18). -/
def TxMode.wellFormed : TxMode → Bool
  | .queued n => decide (1 ≤ n)
  | .direct => true

/-- `N_RX[p] >= 1` and, on a queued port, `N_TX[p] >= 1` (R4, decision D18). -/
def PortConfig.wellFormed (c : PortConfig) : Bool := decide (1 ≤ c.nRx) && c.txMode.wellFormed

/-- Both ports' capacities are legal (R4, decision D18). -/
def Config.wellFormed (c : Config) : Bool := c.port0.wellFormed && c.port1.wellFormed

/-- The operand of PUTSTR is a null-terminated byte sequence (R62, R69). -/
def nullTerminated (bytes : List Byte) : Bool := decide (0 ∈ bytes)

end Sys2Proof
end

