-- ==== Sys2Proof/Decode.lean ====
section
/-! DEFINITION. The decoder and the encoder, from the format and the opcode map of 30_encoding.md (R60, R64,
R65), and the opcode map itself as rows of match and mask. -/

namespace Sys2Proof

/-- `op = w[15:12]` (R60). -/
def Word.op (w : Word) : Nat := (w.extractLsb' 12 4).toNat

/-- `p = w[11]` (R60). -/
def Word.p (w : Word) : PortId := if w.getLsbD 11 then .p1 else .p0

/-- `z = w[10:8]` (R60). -/
def Word.z (w : Word) : BitVec 3 := w.extractLsb' 8 3

/-- `d = w[7:0]` (R60). -/
def Word.d (w : Word) : Byte := w.extractLsb' 0 8

/-- Why a word is invalid. The spec has one verdict, `invalid` (R65); the names are the model's. -/
inductive Invalid where
  /-- `op` is 0xD, 0xE or 0xF. -/
  | reservedOp
  /-- `w[10:8]` is not 0. -/
  | reservedBits
  /-- An operation without a data operand has `w[7:0]` not 0. -/
  | strayData
  /-- `op = 0xB` with `w[7:0]` in 0x05 to 0xFF. -/
  | reservedChannel
  deriving DecidableEq, Repr

/-- The decoder's answer: "either one operation with its fields or the verdict `invalid`" (R65). -/
inductive Verdict where
  | op (i : Instr)
  | invalid (why : Invalid)
  deriving DecidableEq, Repr

/-- An operation without a data operand: `d` must be 0 (R60, R65). -/
def bareOp (d : Byte) (i : Instr) : Verdict := if d = 0 then .op i else .invalid .strayData

/-- The SYNC operations: the channel number is in `d[2:0]` with `d[7:3] = 0` (R60, R64). -/
def syncOp (p : PortId) (d : Byte) : Verdict :=
  match d.toNat with
  | 0 => .op (.syncRxpush p)
  | 1 => .op (.syncRxpop p)
  | 2 => .op (.syncTxpush p)
  | 3 => .op (.syncTxpop p)
  | 4 => .op (.syncErr p)
  | _ => .invalid .reservedChannel

/-- The decoder, total on command words (R64, R65). -/
def decode (w : Word) : Verdict :=
  if w.z ≠ 0 then .invalid .reservedBits
  else
    match w.op with
    | 0 => bareOp w.d (.init w.p)
    | 1 => .op (.rxpush w.p w.d)
    | 2 => .op (.rxerr w.p w.d)
    | 3 => bareOp w.d (.rxavail w.p)
    | 4 => bareOp w.d (.getch w.p)
    | 5 => bareOp w.d (.rxflush w.p)
    | 6 => .op (.putch w.p w.d)
    | 7 => bareOp w.d (.txdrain w.p)
    | 8 => bareOp w.d (.txrdy w.p)
    | 9 => bareOp w.d (.errq w.p)
    | 10 => bareOp w.d (.errclr w.p)
    | 11 => syncOp w.p w.d
    | 12 => bareOp w.d (.txdone w.p)
    | _ => .invalid .reservedOp

/-- The `op` number of an operation (R64). -/
def Instr.opNumber : Instr → BitVec 4
  | .init _ => 0x0
  | .rxpush _ _ => 0x1
  | .rxerr _ _ => 0x2
  | .rxavail _ => 0x3
  | .getch _ => 0x4
  | .rxflush _ => 0x5
  | .putch _ _ => 0x6
  | .txdrain _ => 0x7
  | .txrdy _ => 0x8
  | .errq _ => 0x9
  | .errclr _ => 0xA
  | .syncRxpush _ => 0xB
  | .syncRxpop _ => 0xB
  | .syncTxpush _ => 0xB
  | .syncTxpop _ => 0xB
  | .syncErr _ => 0xB
  | .txdone _ => 0xC

/-- The low byte of an operation's word: its data operand, its SYNC channel, or 0 (R60). -/
def Instr.lowByte : Instr → Byte
  | .init _ => 0
  | .rxpush _ d => d
  | .rxerr _ d => d
  | .rxavail _ => 0
  | .getch _ => 0
  | .rxflush _ => 0
  | .putch _ d => d
  | .txdrain _ => 0
  | .txrdy _ => 0
  | .errq _ => 0
  | .errclr _ => 0
  | .syncRxpush _ => 0
  | .syncRxpop _ => 1
  | .syncTxpush _ => 2
  | .syncTxpop _ => 3
  | .syncErr _ => 4
  | .txdone _ => 0

/-- The bit that names a port (R60). -/
def PortId.bit : PortId → BitVec 1
  | .p0 => 0
  | .p1 => 1

/-- The encoder: the fields of format `CMD` from the most significant down, `z` being 0 (R60). -/
def encode (i : Instr) : Word := i.opNumber ++ i.port.bit ++ (0 : BitVec 3) ++ i.lowByte

/-- One row of the opcode map: "a word `w` is the operation of a row exactly when `w & mask = match`" (R64). -/
structure OpRow where
  mnemonic : String
  pattern : Word
  mask : Word
  deriving DecidableEq, Repr

/-- The row of an operation, copied from R64. -/
def Instr.row : Instr → OpRow
  | .init _ => ⟨"INIT", 0x0000, 0xF7FF⟩
  | .rxpush _ _ => ⟨"RXPUSH", 0x1000, 0xF700⟩
  | .rxerr _ _ => ⟨"RXERR", 0x2000, 0xF700⟩
  | .rxavail _ => ⟨"RXAVAIL", 0x3000, 0xF7FF⟩
  | .getch _ => ⟨"GETCH", 0x4000, 0xF7FF⟩
  | .rxflush _ => ⟨"RXFLUSH", 0x5000, 0xF7FF⟩
  | .putch _ _ => ⟨"PUTCH", 0x6000, 0xF700⟩
  | .txdrain _ => ⟨"TXDRAIN", 0x7000, 0xF7FF⟩
  | .txrdy _ => ⟨"TXRDY", 0x8000, 0xF7FF⟩
  | .errq _ => ⟨"ERRQ", 0x9000, 0xF7FF⟩
  | .errclr _ => ⟨"ERRCLR", 0xA000, 0xF7FF⟩
  | .syncRxpush _ => ⟨"SYNC.RXPUSH", 0xB000, 0xF7FF⟩
  | .syncRxpop _ => ⟨"SYNC.RXPOP", 0xB001, 0xF7FF⟩
  | .syncTxpush _ => ⟨"SYNC.TXPUSH", 0xB002, 0xF7FF⟩
  | .syncTxpop _ => ⟨"SYNC.TXPOP", 0xB003, 0xF7FF⟩
  | .syncErr _ => ⟨"SYNC.ERR", 0xB004, 0xF7FF⟩
  | .txdone _ => ⟨"TXDONE", 0xC000, 0xF7FF⟩

/-- The rows of the opcode map (R64), in its order. -/
def opTable : List OpRow :=
  ([.init .p0, .rxpush .p0 0, .rxerr .p0 0, .rxavail .p0, .getch .p0, .rxflush .p0, .putch .p0 0,
    .txdrain .p0, .txrdy .p0, .errq .p0, .errclr .p0, .syncRxpush .p0, .syncRxpop .p0,
    .syncTxpush .p0, .syncTxpop .p0, .syncErr .p0, .txdone .p0] : List Instr).map Instr.row

/-- A word belongs to a row (R64). -/
def OpRow.covers (r : OpRow) (w : Word) : Bool := w &&& r.mask == r.pattern

/-- The command word held in the low `nbits` bits of `w`, when those bits are at most a command word's 16;
the bits of the word above `nbits` are 0. The word is presented whole, so it has no byte order (R44, R60). -/
def tableWord (nbits w : Nat) : Option Word :=
  if w % 2 ^ nbits < 65536 then some (BitVec.ofNat 16 (w % 2 ^ nbits)) else none

/-- What the decoder reads from the table's bits (the host's numbering: bit 0 is the least significant). -/
def decodeTableWord (nbits w : Nat) : Option Instr :=
  match tableWord nbits w with
  | none => none
  | some word =>
    match decode word with
    | .op i => some i
    | .invalid _ => none

end Sys2Proof
end

