-- ==== Sys2Proof/Machine/State.lean ====
section
/-! DEFINITION. The state of the machine, as plain data: the two ports with their rings (10_state.md), the
environment's side of each port (R28, R29), the spec's own bookkeeping (`inited` R31, `faulted` R32), and what
stands for the agents: the operation the foreground is held in (R7, R161, R170), what the last operation handed
back to its issuer (R63), the operations the agents have still to issue (R30) and the order in which the agents
take their steps (R173). -/

namespace Sys2Proof.Machine

/-- Ring storage: one address space per ring, its slots indexed from 0 (R13, R40), as a list of slot and byte
with strictly rising slots. A slot that is not listed holds no value (R13, decision D22; log entry 2). -/
abbrev Memory := List Host.Cell

/-- A ring buffer of capacity `N` (R12 to R16) with its two counters of undelivered tokens (R19). `N` is a
configuration constant of the ring (R12, R27). -/
structure Ring where
  N : Nat
  storage : Memory
  head : Nat
  tail : Nat
  count : Nat
  pendPush : Nat
  pendPop : Nat
  deriving DecidableEq, Repr

/-- The transmit half of a port: "zero or one TX RingBuffer" (R10). `TX_MODE[p]` is which of the two it is; the
ring and the transmit-interrupt enable `tx_ie` exist only on a queued port (R10, R24). -/
inductive TxPath where
  | queued (ring : Ring) (ie : Bool)
  | direct
  deriving DecidableEq, Repr

/-- A port: one receive ring, the transmit half, the error counter and its pending tokens (R10, R21, R23), the
serial hardware's `hw_tx_ready` and `wire_out` (R28, R29) and the bookkeeping bit `inited` (R31). -/
structure Port where
  rxMode : RxMode
  rx : Ring
  tx : TxPath
  errcnt : Count
  pendErr : Nat
  hwTxReady : Bool
  wireOut : List Byte
  inited : Bool
  deriving DecidableEq, Repr

/-- The spec's model faults, with their arguments (R163). On a fault the block changes no state and the fault is
recorded in `faulted` (R160): the machine goes on, so these are data of the state and not reasons to stop. -/
inductive ModelFault where
  /-- Code 1: GETCH with `viewc = 0` in `INTERRUPT` mode. -/
  | emptyPop (p : PortId)
  /-- Code 2: any operation but INIT on a port not yet initialised. -/
  | notInitialised (p : PortId)
  /-- Code 3: a word that matches no row of the opcode map. -/
  | invalidCommand (w : Word)
  /-- Code 4: an operation on a command port that does not accept it. -/
  | wrongAgent (i : Instr)
  /-- Code 5: raised in the micro-step model only (Machine/Micro.lean). -/
  | resetRace (p : PortId)
  /-- Code 6: raised in the micro-step model only (Machine/Micro.lean). -/
  | tornCount (p : PortId)
  deriving DecidableEq, Repr

/-- What the last step handed back to the agent that took it (R63), or why it handed back nothing. The field is
the model's own place for results, which the spec returns outside the block's state (log entry 3). -/
inductive Response where
  /-- The agent had nothing to issue. -/
  | none
  /-- Completed, no result. -/
  | done
  /-- RXAVAIL, TXRDY: one bit. -/
  | bit (b : Bool)
  /-- GETCH: one byte. -/
  | byte (b : Byte)
  /-- ERRQ, ERRCLR: 32 bits. -/
  | count (v : Count)
  /-- The operation holds (R161). -/
  | held
  /-- The operation's enabling condition is false: it does not occur (R104, R105, R106). -/
  | notEnabled
  /-- A model fault was recorded; no value (R160). -/
  | faulted (f : ModelFault)
  deriving DecidableEq, Repr

/-- One operation an agent has still to issue, as the word it will present (R30, R60). -/
structure Offer where
  agent : Agent
  word : Word
  deriving DecidableEq, Repr

/-- The state of the machine. -/
structure State where
  /-- `CDC_MODE` (R135). -/
  cdc : CdcMode
  port0 : Port
  port1 : Port
  /-- The set of recorded faults: a list without repeats (R32). -/
  faulted : List ModelFault
  /-- The operation `FG` stays at while it holds (R7, R161). -/
  held : Option Instr
  /-- The last step's answer (R63). -/
  resp : Response
  /-- What the agents have still to issue; each agent's own operations stand in the order it issues them. -/
  offers : List Offer
  /-- The agents in the order in which they take their next steps. -/
  turns : List Agent
  deriving DecidableEq, Repr

/-- Why the machine stops. -/
inductive Fault where
  /-- Raised by GETCH and TXDRAIN when the slot at `head` holds no value. The spec gives such a slot no value and
  no rule reads one (R13, R41, U8); no state that meets the machine's invariant raises it. Safe: the machine
  stops instead of inventing a byte. -/
  | slotWithoutValue (p : PortId) (slot : Nat)
  deriving DecidableEq, Repr

/-- Why an operation is given no meaning. -/
inductive Refusal where
  /-- Raised by an arm of `exec` whose operation is not modelled yet; no arm is left that raises it. Safe. -/
  | notModelled (mnemonic : String)
  /-- Raised by the micro-step model of Machine/Micro.lean under `CDC_MODE = LAGGED`, "for which this spec defines
  only the atomic model" (R195, R162). Safe. -/
  | microStepUnderLagged
  deriving DecidableEq, Repr

/-- The outcome of an operation or a step. -/
abbrev Result := Host.Outcome State Fault Refusal

/-- A ring at power-on: its storage holds no value. The cursors and counters are unspecified in R34. DESIGN CHOICE
(log entry 4): 0; no operation other than INIT runs on the port before INIT writes them. -/
def Ring.powerOn (n : Nat) : Ring where
  N := n
  storage := []
  head := 0
  tail := 0
  count := 0
  pendPush := 0
  pendPop := 0

/-- The transmit half at power-on; `tx_ie` is unspecified in R34. DESIGN CHOICE (log entry 4): 0. -/
def TxPath.powerOn : TxMode → TxPath
  | .queued n => .queued (.powerOn n) false
  | .direct => .direct

/-- A port at power-on (R34): not initialised, nothing on the wire. DESIGN CHOICE (log entry 4) for the counter and
`hw_tx_ready`, which R34 leaves unspecified: 0. -/
def Port.powerOn (c : PortConfig) : Port where
  rxMode := c.rxMode
  rx := .powerOn c.nRx
  tx := .powerOn c.txMode
  errcnt := 0
  pendErr := 0
  hwTxReady := false
  wireOut := []
  inited := false

/-- The machine at power-on with a configuration (R33, R34). -/
def State.powerOn (c : Config) : State where
  cdc := c.cdc
  port0 := .powerOn c.port0
  port1 := .powerOn c.port1
  faulted := []
  held := none
  resp := .none
  offers := []
  turns := []

/-- The machine right after reset: power-on (R33: no other reset exists but INIT) with the reference
configuration (log entry 1). No operation is waiting to be issued. -/
def State.reset : State := State.powerOn Config.reference

end Sys2Proof.Machine
end

