-- ==== Sys2Proof/Machine/Ops.lean ====
section
/-! DEFINITION. The shared operations: storage access, ring push, pop and reset, the error counter, access to a
port, and what an operation answers: a result, a hold, a disabled operation or a model fault. Recording a model
fault (`State.raiseFault`) is this hardware's taking of an exception (R160); there is no return from one, because
nothing is saved (R159). -/

namespace Sys2Proof.Machine

/-! ### Storage (20_memory.md section 2) -/

/-- `MemRead((r, i), 1)` (R41); none where the slot holds no value (R13). -/
def Memory.read : Memory → Nat → Option Byte
  | [], _ => none
  | (a, v) :: m, i => if a = i then some v else Memory.read m i

/-- `MemWrite((r, i), 1, v)` (R42): sets slot `i` and nothing else. -/
def Memory.write : Memory → Nat → Byte → Memory
  | [], i, v => [(i, v)]
  | (a, u) :: m, i, v =>
    if i < a then (i, v) :: (a, u) :: m
    else if a = i then (i, v) :: m
    else (a, u) :: Memory.write m i v

/-- The canonical form: strictly rising slots. An unlisted slot holds no value, so no entry can equal what an
unlisted slot reads as. -/
abbrev Memory.wf (m : Memory) : Prop := m.Pairwise fun x y => x.1 < y.1

/-- Every listed slot is one of the ring's `n` slots (R13, R40). -/
abbrev Memory.within (m : Memory) (n : Nat) : Prop := ∀ c ∈ m, c.1 < n

/-! ### Arithmetic (R56) -/

/-- `sat_W(v) = min(v, 2^W - 1)` (R7). -/
def satW (w v : Nat) : Nat := min v (2 ^ w - 1)

/-- `sat_32(errcnt + 1)` (R22). -/
def satSucc (e : Count) : Count := BitVec.ofNat 32 (satW 32 (e.toNat + 1))

/-! ### Rings -/

/-- The cursor advance `(c + 1) mod N` (R43, R56). -/
def Ring.advance (r : Ring) (c : Nat) : Nat := (c + 1) % r.N

/-- The producer side's view `count + pend_pop` (R19). -/
def Ring.viewp (r : Ring) : Nat := r.count + r.pendPop

/-- The consumer side's view `count - pend_push` (R19). -/
def Ring.viewc (r : Ring) : Nat := r.count - r.pendPush

/-- One more token under `LAGGED`, none under `EXACT` (R135). -/
def token (c : CdcMode) (pending : Nat) : Nat :=
  match c with
  | .exact => pending
  | .lagged => pending + 1

/-- An accepted push: slot write, cursor, count, token, in the order of R50 (R81, R101). -/
def Ring.push (c : CdcMode) (d : Byte) (r : Ring) : Ring :=
  { r with
    storage := r.storage.write r.tail d
    tail := r.advance r.tail
    count := r.count + 1
    pendPush := token c r.pendPush }

/-- What a pop leaves of the ring: cursor, count, token; the slot is not erased (R84, R104, R41). -/
def Ring.dropHead (c : CdcMode) (r : Ring) : Ring :=
  { r with
    head := r.advance r.head
    count := r.count - 1
    pendPop := token c r.pendPop }

/-- A pop: slot read at `head`, then what it leaves, in the order of R51; none where the slot holds no value. -/
def Ring.pop (c : CdcMode) (r : Ring) : Option (Byte × Ring) :=
  match r.storage.read r.head with
  | some b => some (b, r.dropHead c)
  | none => none

/-- The reset of a ring: cursors, count and pending counters 0, storage untouched (R33, R87, R120, R145). -/
def Ring.clear (r : Ring) : Ring := { r with head := 0, tail := 0, count := 0, pendPush := 0, pendPop := 0 }

/-- Delivery of a push token to the consumer side (R136, R138). -/
def Ring.deliverPush (r : Ring) : Ring := { r with pendPush := r.pendPush - 1 }

/-- Delivery of a pop token to the producer side (R137, R139). -/
def Ring.deliverPop (r : Ring) : Ring := { r with pendPop := r.pendPop - 1 }

/-! ### The transmit half -/

/-- The transmit ring, where the port has one (R10). -/
def TxPath.ring? : TxPath → Option Ring
  | .queued t _ => some t
  | .direct => none

/-- `tx_ie`, where the port has it (R24). -/
def TxPath.ie? : TxPath → Option Bool
  | .queued _ ie => some ie
  | .direct => none

/-- The transmit half after INIT: the ring cleared and `tx_ie` 0; nothing on a direct port (R120). -/
def TxPath.clear : TxPath → TxPath
  | .queued t _ => .queued t.clear false
  | .direct => .direct

/-! ### A port -/

/-- `count_error(p)`: the counter saturates; under `LAGGED` a token is left when its value changed (R90). -/
def Port.countError (c : CdcMode) (P : Port) : Port :=
  { P with
    errcnt := satSucc P.errcnt
    pendErr := if satSucc P.errcnt = P.errcnt then P.pendErr else token c P.pendErr }

/-- `errview(p) = errcnt - pend_err` (R23). -/
def Port.errview (P : Port) : Count := BitVec.ofNat 32 (P.errcnt.toNat - P.pendErr)

/-- A byte written to the hardware transmit register (R28, R29, R102, R104). -/
def Port.sendByte (d : Byte) (P : Port) : Port :=
  { P with wireOut := P.wireOut ++ [d], hwTxReady := false }

/-- The port after INIT (R120, R34): everything it resets, and nothing else. -/
def Port.initialised (P : Port) : Port :=
  { P with
    rx := P.rx.clear
    tx := P.tx.clear
    errcnt := 0
    pendErr := 0
    hwTxReady := true
    inited := true }

/-! ### The state -/

/-- `P[p]` (R7, R10). -/
def State.port (s : State) : PortId → Port
  | .p0 => s.port0
  | .p1 => s.port1

/-- `P[p]` replaced. -/
def State.setPort (s : State) (p : PortId) (P : Port) : State :=
  match p with
  | .p0 => { s with port0 := P }
  | .p1 => { s with port1 := P }

/-- The answer handed back to the issuer (R63). -/
def State.respond (s : State) (r : Response) : State := { s with resp := r }

/-- A fault added to a set of faults. -/
def addFault (f : ModelFault) (l : List ModelFault) : List ModelFault := if f ∈ l then l else l ++ [f]

/-- `raise <Fault>(info)`: no state of the block changes, no value is returned, the fault is recorded (R7, R160). -/
def State.raiseFault (f : ModelFault) (s : State) : State :=
  { s with faulted := addFault f s.faulted, resp := .faulted f }

/-! ### How an operation ends -/

/-- The operation takes effect: port `p` becomes `P`, and `r` is returned. -/
def complete (p : PortId) (P : Port) (r : Response) (s : State) : Result := .next ((s.setPort p P).respond r)

/-- The operation changes nothing and returns `r`. -/
def answer (r : Response) (s : State) : Result := .next (s.respond r)

/-- `hold`: `FG` stays at the operation `i`; nothing else changes (R7, R161). -/
def hold (i : Instr) (s : State) : Result := .next { s with held := some i, resp := .held }

/-- The operation raises a model fault (R160). -/
def faultWith (f : ModelFault) (s : State) : Result := .next (s.raiseFault f)

/-- The check that comes first in every operation but INIT (R121), and the port it then acts on. -/
def whenInited (p : PortId) (s : State) (k : Port → Result) : Result :=
  if (s.port p).inited then k (s.port p) else faultWith (.notInitialised p) s

/-- The numeric codes of the model faults (R163). -/
def ModelFault.code : ModelFault → Nat
  | .emptyPop _ => 1
  | .notInitialised _ => 2
  | .invalidCommand _ => 3
  | .wrongAgent _ => 4
  | .resetRace _ => 5
  | .tornCount _ => 6

/-- The configuration a ring's, a port's and the machine's state carries (R27). -/
def TxPath.mode : TxPath → TxMode
  | .queued t _ => .queued t.N
  | .direct => .direct

/-- The configuration of a port (R27). -/
def Port.config (P : Port) : PortConfig := { rxMode := P.rxMode, nRx := P.rx.N, txMode := P.tx.mode }

/-- The configuration of the machine (R27). -/
def State.config (s : State) : Config := { cdc := s.cdc, port0 := s.port0.config, port1 := s.port1.config }

end Sys2Proof.Machine
end

