-- ==== Sys2Proof/Machine/Operands.lean ====
section
/-! DEFINITION. The forms of operands and results (R61 to R63, R69). Operands: the port number, which selects the
port an operation acts on; the data byte, used as it stands; the byte sequence of PUTSTR. Results: one bit, one
byte, 32 bits. -/

namespace Sys2Proof.Machine

/-- RXAVAIL and TXRDY return one bit, 1 = true (R63). -/
def bitResult (b : Bool) : Response := .bit b

/-- GETCH returns `zext_8` of the popped slot, "that is the byte itself" (R63). -/
def byteResult (b : Byte) : Response := .byte b

/-- ERRQ and ERRCLR return the 32-bit unsigned view of the counter (R63). -/
def countResult (v : Count) : Response := .count v

/-- The bytes PUTSTR sends: those before the first zero byte (R69, decision D16). -/
def stringBytes (bytes : List Byte) : List Byte := bytes.takeWhile (fun b => b != 0)

end Sys2Proof.Machine
end

