-- ==== Sys2Proof/Machine/Flags.lean ====
section
/-! DEFINITION. The status flags (R25, R26): functions of the state, evaluated at the moment an operation reads
them; only `tx_ie` is a stored bit. -/

namespace Sys2Proof.Machine

/-- `viewc(r) > 0`: what the consumer side sees (`rx_avail`, `tx_nonempty`). -/
def Ring.avail (r : Ring) : Bool := decide (0 < r.viewc)

/-- `viewp(r) = r.N`: what the producer side sees (`rx_full`, `tx_full`). -/
def Ring.full (r : Ring) : Bool := decide (r.viewp = r.N)

/-- `rx_avail[p]`, read by RXAVAIL and GETCH. -/
def Port.rxAvail (P : Port) : Bool := P.rx.avail

/-- `rx_full[p]`, read by RXPUSH. -/
def Port.rxFull (P : Port) : Bool := P.rx.full

/-- `tx_full[p]`; a direct port has no ring flags (R102). -/
def Port.txFull (P : Port) : Bool := P.tx.ring?.any Ring.full

/-- `tx_nonempty[p]`; a direct port has no ring flags (R102). -/
def Port.txNonempty (P : Port) : Bool := P.tx.ring?.any Ring.avail

/-- `tx_ie[p]`, read by TXDRAIN's enabling condition (R24, R105). -/
def Port.txIe (P : Port) : Bool := P.tx.ie?.getD false

/-- `active[p]`, from the true counts; port p is Idle when it is false (R26). -/
def Port.active (P : Port) : Bool := decide (0 < P.rx.count) || P.tx.ring?.any fun t => decide (0 < t.count)

/-- The transmit-register-empty interrupt of the port is pending (R105, R156). -/
def Port.txIrqPending (P : Port) : Bool := P.txIe && P.hwTxReady

/-- TXRDY's answer: `viewp < N` (queued) or `hw_tx_ready` (direct) (R107). -/
def Port.txReady (P : Port) : Bool :=
  match P.tx with
  | .queued t _ => decide (t.viewp < t.N)
  | .direct => P.hwTxReady

end Sys2Proof.Machine
end

