-- ==== Sys2Proof/Machine/RxPath.lean ====
section
/-! DEFINITION. The receive path (41_rx_path.md): RXPUSH, RXERR, RXAVAIL, GETCH, RXFLUSH. -/

namespace Sys2Proof.Machine

/-- RXPUSH (R81, R82, R89): a byte is stored, or, when the producer's view is full, discarded and counted. -/
def execRxpush (p : PortId) (d : Byte) (s : State) : Result :=
  whenInited p s fun P =>
    if P.rxFull then complete p (P.countError s.cdc) .done s
    else complete p { P with rx := P.rx.push s.cdc d } .done s

/-- RXERR (R83, R89): the byte read from the data register is discarded and counted. -/
def execRxerr (p : PortId) (_d : Byte) (s : State) : Result :=
  whenInited p s fun P => complete p (P.countError s.cdc) .done s

/-- RXAVAIL (R86). -/
def execRxavail (p : PortId) (s : State) : Result :=
  whenInited p s fun P => answer (bitResult P.rxAvail) s

/-- GETCH (R84, R85): on an empty view it holds (`POLLED`) or raises `EmptyPop` (`INTERRUPT`); otherwise it pops. -/
def execGetch (p : PortId) (s : State) : Result :=
  whenInited p s fun P =>
    if P.rxAvail then
      match P.rx.pop s.cdc with
      | some (b, r) => complete p { P with rx := r } (byteResult b) s
      | none => .fault (.slotWithoutValue p P.rx.head)
    else
      match P.rxMode with
      | .polled => hold (.getch p) s
      | .interrupt => faultWith (.emptyPop p) s

/-- RXFLUSH (R87). -/
def execRxflush (p : PortId) (s : State) : Result :=
  whenInited p s fun P => complete p { P with rx := P.rx.clear } .done s

end Sys2Proof.Machine
end

