-- ==== Sys2Proof/Machine/TxPath.lean ====
section
/-! DEFINITION. The transmit path (42_tx_path.md): PUTCH, TXDRAIN, TXDONE, TXRDY and the pseudo-operation PUTSTR. -/

namespace Sys2Proof.Machine

/-- The transmit half after an accepted queued PUTCH: `tx_ie` is set at once under `EXACT`, and under `LAGGED` by
the delivery of the token (R101, R24). -/
def queuedAfterPut (c : CdcMode) (d : Byte) (t : Ring) (ie : Bool) : TxPath :=
  .queued (t.push c d) (match c with | .exact => true | .lagged => ie)

/-- PUTCH, queued (R101) and direct (R102): it waits while the ring is full, or the hardware register busy. -/
def execPutch (p : PortId) (d : Byte) (s : State) : Result :=
  whenInited p s fun P =>
    match P.tx with
    | .queued t ie =>
      if t.full then hold (.putch p d) s
      else complete p { P with tx := queuedAfterPut s.cdc d t ie } .done s
    | .direct =>
      if P.hwTxReady then complete p (P.sendByte d) .done s
      else hold (.putch p d) s

/-- TXDRAIN (R104) where its interrupt is pending (R105): one byte goes to the wire, or, on an empty view, the
interrupt source is switched off. Elsewhere it does not occur (R105, R67; log entry 5). -/
def execTxdrain (p : PortId) (s : State) : Result :=
  whenInited p s fun P =>
    match P.tx with
    | .direct => answer .notEnabled s
    | .queued t ie =>
      if P.txIrqPending then
        if t.avail then
          match t.pop s.cdc with
          | some (b, t') => complete p ({ P with tx := .queued t' ie }.sendByte b) .done s
          | none => .fault (.slotWithoutValue p t.head)
        else complete p { P with tx := .queued t false } .done s
      else answer .notEnabled s

/-- TXDONE (R106): it occurs only while the hardware register is busy (log entry 5). -/
def execTxdone (p : PortId) (s : State) : Result :=
  whenInited p s fun P =>
    if P.hwTxReady then answer .notEnabled s
    else complete p { P with hwTxReady := true } .done s

/-- TXRDY (R107). -/
def execTxrdy (p : PortId) (s : State) : Result :=
  whenInited p s fun P => answer (bitResult P.txReady) s

/-- PUTSTR (R69, R108): one PUTCH per byte before the first zero byte, in order; the zero byte is not sent. -/
def expandPutstr (p : PortId) (bytes : List Byte) : List Instr := (stringBytes bytes).map (.putch p)

end Sys2Proof.Machine
end

