-- ==== Sys2Proof/Machine/StatusConfig.lean ====
section
/-! DEFINITION. Initialisation and status (43_status_config.md): INIT, ERRQ, ERRCLR. -/

namespace Sys2Proof.Machine

/-- INIT (R120): always enabled, and may be issued again (decision D8). -/
def execInit (p : PortId) (s : State) : Result := complete p (s.port p).initialised .done s

/-- ERRQ (R123). -/
def execErrq (p : PortId) (s : State) : Result :=
  whenInited p s fun P => answer (countResult P.errview) s

/-- ERRCLR (R122): the view is returned and taken off the counter; undelivered events stay counted. -/
def execErrclr (p : PortId) (s : State) : Result :=
  whenInited p s fun P => complete p { P with errcnt := P.errcnt - P.errview } (countResult P.errview) s

end Sys2Proof.Machine
end

