-- ==== Sys2Proof/Machine/CdcSync.lean ====
section
/-! DEFINITION. The status synchronisers (44_cdc_sync.md): each operation delivers one pending token, and has no
effect when none is pending (always so under `EXACT`, R135). -/

namespace Sys2Proof.Machine

/-- SYNC.RXPUSH (R136): the consumer side of the receive ring learns of one accepted push. -/
def execSyncRxpush (p : PortId) (s : State) : Result :=
  whenInited p s fun P =>
    if 0 < P.rx.pendPush then complete p { P with rx := P.rx.deliverPush } .done s else answer .done s

/-- SYNC.RXPOP (R137): the producer side of the receive ring learns of one pop. -/
def execSyncRxpop (p : PortId) (s : State) : Result :=
  whenInited p s fun P =>
    if 0 < P.rx.pendPop then complete p { P with rx := P.rx.deliverPop } .done s else answer .done s

/-- SYNC.TXPUSH (R138): the drain side learns of one PUTCH and the transmit interrupt is re-armed; no effect on a
direct port (R67). -/
def execSyncTxpush (p : PortId) (s : State) : Result :=
  whenInited p s fun P =>
    match P.tx with
    | .queued t _ =>
      if 0 < t.pendPush then complete p { P with tx := .queued t.deliverPush true } .done s else answer .done s
    | .direct => answer .done s

/-- SYNC.TXPOP (R139): the foreground side learns of one drain; no effect on a direct port (R67). -/
def execSyncTxpop (p : PortId) (s : State) : Result :=
  whenInited p s fun P =>
    match P.tx with
    | .queued t ie =>
      if 0 < t.pendPop then complete p { P with tx := .queued t.deliverPop ie } .done s else answer .done s
    | .direct => answer .done s

/-- SYNC.ERR (R140): the foreground side learns of one counted error event. -/
def execSyncErr (p : PortId) (s : State) : Result :=
  whenInited p s fun P =>
    if 0 < P.pendErr then complete p { P with pendErr := P.pendErr - 1 } .done s else answer .done s

end Sys2Proof.Machine
end

