-- ==== Sys2Proof/Machine/Dispatch.lean ====
section
/-! DEFINITION. One arm per operation; each arm is one call of the operation's meaning. -/

namespace Sys2Proof.Machine

def exec (i : Instr) (s : State) : Host.Outcome State Fault Refusal :=
  match i with
  | .init p => Sys2Proof.Machine.execInit p s
  | .rxpush p d => Sys2Proof.Machine.execRxpush p d s
  | .rxerr p d => Sys2Proof.Machine.execRxerr p d s
  | .rxavail p => Sys2Proof.Machine.execRxavail p s
  | .getch p => Sys2Proof.Machine.execGetch p s
  | .rxflush p => Sys2Proof.Machine.execRxflush p s
  | .putch p d => Sys2Proof.Machine.execPutch p d s
  | .txdrain p => Sys2Proof.Machine.execTxdrain p s
  | .txrdy p => Sys2Proof.Machine.execTxrdy p s
  | .errq p => Sys2Proof.Machine.execErrq p s
  | .errclr p => Sys2Proof.Machine.execErrclr p s
  | .syncRxpush p => Sys2Proof.Machine.execSyncRxpush p s
  | .syncRxpop p => Sys2Proof.Machine.execSyncRxpop p s
  | .syncTxpush p => Sys2Proof.Machine.execSyncTxpush p s
  | .syncTxpop p => Sys2Proof.Machine.execSyncTxpop p s
  | .syncErr p => Sys2Proof.Machine.execSyncErr p s
  | .txdone p => Sys2Proof.Machine.execTxdone p s

end Sys2Proof.Machine
end

