-- ==== Sys2Proof/Machine/Ports.lean ====
section
/-! DEFINITION. The command ports and the agents' turns: what an agent presents on its turn (R6, R30, R170), the
checks of the decoder and of the command port (R65, R66), and how a word is placed so that the next step runs it. -/

namespace Sys2Proof.Machine

/-- The command port that accepts an operation (R6, R62). An interrupt, environment or synchroniser port accepts
only operations of its own port number (log entry 6). -/
def issuer : Instr → Agent
  | .init _ => .fg
  | .rxpush p _ => .rxi p
  | .rxerr p _ => .rxi p
  | .rxavail _ => .fg
  | .getch _ => .fg
  | .rxflush _ => .fg
  | .putch _ _ => .fg
  | .txdrain p => .txi p
  | .txrdy _ => .fg
  | .errq _ => .fg
  | .errclr _ => .fg
  | .syncRxpush p => .syn p
  | .syncRxpop p => .syn p
  | .syncTxpush p => .syn p
  | .syncTxpop p => .syn p
  | .syncErr p => .syn p
  | .txdone p => .env p

/-- The command port of agent `a` accepts operation `i` (R6). -/
def accepts (a : Agent) (i : Instr) : Bool := decide (issuer i = a)

/-- What an agent does on its turn. -/
inductive Issue where
  /-- It has nothing to issue. -/
  | nothing
  /-- It issues an operation its command port accepts, or goes on with the operation it is held in. -/
  | op (i : Instr)
  /-- It presents a word the decoder rejects (R65). -/
  | badWord (w : Word)
  /-- It presents an operation its command port does not accept (R66). -/
  | badPort (i : Instr)
  deriving DecidableEq, Repr

/-- The first operation agent `a` has still to issue (R30: in the order the agent issues them). -/
def State.nextWord (a : Agent) (s : State) : Option Word :=
  match s.offers.find? (fun o => decide (o.agent = a)) with
  | some o => some o.word
  | none => none

/-- That operation taken off the agent's list. -/
def State.dropOffer (a : Agent) (s : State) : State :=
  { s with offers := s.offers.eraseP (fun o => decide (o.agent = a)) }

/-- The word an agent presents, judged by the decoder and its command port (R65, R66). -/
def judge (a : Agent) (w : Word) : Issue :=
  match decode w with
  | .op i => if accepts a i then .op i else .badPort i
  | .invalid _ => .badWord w

/-- What agent `a` does on its turn: "issues the next only when the previous has completed" (R170). While `FG` is
held it stays at its operation (R7, R161); otherwise an agent presents its next word. -/
def State.issue (a : Agent) (s : State) : Issue :=
  match a, s.held with
  | .fg, some i => .op i
  | _, _ =>
    match s.nextWord a with
    | some w => judge a w
    | none => .nothing

/-- The state in which what agent `a` does is judged: its word is taken off its list, or, where `FG` goes on with
the operation it is held in, the hold is taken up. -/
def State.taken (a : Agent) (s : State) : State :=
  match a, s.held with
  | .fg, some _ => { s with held := none }
  | _, _ => s.dropOffer a

/-- An operation on the wrong command port raises `WrongAgent` (R66); on a port not yet initialised R121 ("from any
agent") asks for `NotInitialised` as well, and both are recorded (log entry 7). -/
def rejectPort (i : Instr) (s : State) : State :=
  match i with
  | .init _ => s.raiseFault (.wrongAgent i)
  | _ =>
    if (s.port i.port).inited then s.raiseFault (.wrongAgent i)
    else (s.raiseFault (.notInitialised i.port)).raiseFault (.wrongAgent i)

/-- What comes of an agent's turn. -/
def perform (what : Issue) (s : State) : Result :=
  match what with
  | .nothing => answer .none s
  | .op i => exec i s
  | .badWord w => faultWith (.invalidCommand w) s
  | .badPort i => .next (rejectPort i s)

/-- Agent `a` takes its turn. -/
def takeTurn (a : Agent) (s : State) : Result := perform (s.issue a) (s.taken a)

/-- The agent that presents a word placed by `State.withFetchWord`: the one whose port accepts it, `FG` where the
decoder rejects the word. -/
def presenter (w : Word) : Agent :=
  match decode w with
  | .op i => issuer i
  | .invalid _ => .fg

/-- Word `w` placed as the next operation of agent `a`, whose turn is next; a hold of `FG` is lifted only where `FG`
itself is to present the word. -/
def State.place (a : Agent) (w : Word) (s : State) : State :=
  { s with
    offers := { agent := a, word := w } :: s.offers
    turns := a :: s.turns
    held := if a = .fg then none else s.held }

/-- The operation the next step will run, where it runs one. -/
def State.currentOp (s : State) : Option Instr :=
  match s.turns with
  | [] => none
  | a :: _ =>
    match s.issue a with
    | .op i => some i
    | .nothing | .badWord _ | .badPort _ => none

end Sys2Proof.Machine
end

