-- ==== Sys2Proof/Machine/Step.lean ====
section
/-! DEFINITION. One step: the agent whose turn is next takes it (R8, R173: any agent may take its next transition
between any two of any other agent). Where no agent has a turn left nothing happens (log entry 8). -/

namespace Sys2Proof.Machine

/-- One step of the machine. -/
def step (s : State) : Host.Outcome State Fault Refusal :=
  match s.turns with
  | [] => .next s
  | a :: rest => takeTurn a { s with turns := rest }

/-- The state whose next step presents the given command word (log entry 9); a number that is no 16-bit word
changes nothing. -/
def State.withFetchWord (s : State) (nbits w : Nat) : State :=
  match tableWord nbits w with
  | some word => s.place (presenter word) word
  | none => s

end Sys2Proof.Machine
end

