-- ==== Sys2Proof/Machine/Fairness.lean ====
section
/-! DEFINITION. Infinite executions and fairness (R141, R173). The model "has fairness and nothing else in place of time"
(R196): which execution is fair is said here, and a claim that something eventually happens takes it as a premise. An
execution goes on for ever because the outside may add turns and operations before each step (log entry 22). -/

namespace Sys2Proof.Machine

/-- The operations that deliver a token on port `p` (R136 to R140). -/
def syncOps (p : PortId) : List Instr := [.syncRxpush p, .syncRxpop p, .syncTxpush p, .syncTxpop p, .syncErr p]

/-- The tokens that wait for the delivery operation `i`: its pending counter (R136 to R140); none for any other operation. -/
def tokens (i : Instr) (s : State) : Nat :=
  match i with
  | .syncRxpush p => (s.port p).rx.pendPush
  | .syncRxpop p => (s.port p).rx.pendPop
  | .syncTxpush p => (s.port p).tx.ring?.elim 0 fun t => t.pendPush
  | .syncTxpop p => (s.port p).tx.ring?.elim 0 fun t => t.pendPop
  | .syncErr p => (s.port p).pendErr
  | .init _ | .rxpush _ _ | .rxerr _ _ | .rxavail _ | .getch _ | .rxflush _ | .putch _ _ | .txdrain _ | .txrdy _
  | .errq _ | .errclr _ | .txdone _ => 0

/-- The operations that discard the tokens `i` would deliver (R145). -/
def tokenResets : Instr → List Instr
  | .syncRxpush p => [.init p, .rxflush p]
  | .syncRxpop p => [.init p, .rxflush p]
  | .syncTxpush p => [.init p]
  | .syncTxpop p => [.init p]
  | .syncErr p => [.init p]
  | .init _ | .rxpush _ _ | .rxerr _ _ | .rxavail _ | .getch _ | .rxflush _ | .putch _ _ | .txdrain _ | .txrdy _
  | .errq _ | .errclr _ | .txdone _ => []

/-- The operation is one the spec assumes to happen eventually, and its time has come (R173): (a) the transmit interrupt
is pending (R105); (b) the hardware register holds a byte (R106); (c) a token is pending (R141). Nothing is owed by the
receive side or the foreground, nor on a port not yet initialised, whose fields are unspecified (R31). -/
def owed (i : Instr) (s : State) : Bool :=
  (s.port i.port).inited &&
    (match i with
    | .txdrain p => (s.port p).txIrqPending
    | .txdone p => !(s.port p).hwTxReady
    | .syncRxpush _ | .syncRxpop _ | .syncTxpush _ | .syncTxpop _ | .syncErr _ => decide (0 < tokens i s)
    | .init _ | .rxpush _ _ | .rxerr _ _ | .rxavail _ | .getch _ | .rxflush _ | .putch _ _ | .txrdy _ | .errq _
    | .errclr _ => false)

/-- What the outside adds to a state before a step: turns after those already there, and operations after those each
agent has still to issue (R30, R155). -/
def State.load (turns : List Agent) (offers : List Offer) (s : State) : State :=
  { s with turns := s.turns ++ turns, offers := s.offers ++ offers }

/-- An infinite execution of the block: its states, and what the outside adds before each step. -/
structure Execution where
  states : Nat → State
  turns : Nat → List Agent
  offers : Nat → List Offer

/-- The state from which step `n` is taken. -/
def Execution.before (e : Execution) (n : Nat) : State := (e.states n).load (e.turns n) (e.offers n)

/-- Every state is the step of the one before it. -/
def Execution.Valid (e : Execution) : Prop := ∀ n, step (e.before n) = .next (e.states (n + 1))

/-- The operation performed in step `n`, where one is. -/
def Execution.performed (e : Execution) (n : Nat) : Option Instr := (e.before n).currentOp

/-- How often operation `i` is performed in the `k` steps from step `n` on. -/
def Execution.times (e : Execution) (i : Instr) (n k : Nat) : Nat :=
  (List.range k).countP fun j => decide (e.performed (n + j) = some i)

/-- Fairness (R141, R173): no operation stays owed for ever while it is never performed. -/
def Execution.Fair (e : Execution) : Prop :=
  ∀ (i : Instr) (n : Nat), ∃ m, n ≤ m ∧ (owed i (e.states m) = false ∨ e.performed m = some i)

end Sys2Proof.Machine
end

