-- ==== Sys2Proof/Machine/Micro.lean ====
section
/-! DEFINITION. The foreground operations as micro-steps (70_reset_and_hazards.md, R190 to R195), the informative
refinement of the atomic model: each foreground operation is a sequence of micro-steps that read or write at most
one field, and interrupt-side operations, single transitions still, may fall between any two of them. Here, and only
here, an interrupt source can be masked (R166) and the faults `ResetRace` and `TornCount` can occur (R163). The
machine of Machine/Step.lean does not use this file. -/

namespace Sys2Proof.Machine

/-- An interrupt source of a port (R153), each with a mask bit that foreground can set and clear (R166). -/
inductive IrqSource where
  | rx (p : PortId)
  | tx (p : PortId)
  deriving DecidableEq, Repr

/-- One of the writes RXFLUSH and INIT consist of (R193). -/
inductive FieldWrite where
  | rxHead
  | rxTail
  | rxCount
  | txHead
  | txTail
  | txCount
  | txIe
  | errcnt
  | hwTxReady
  /-- `inited` and the pending counters, which no hardware under `EXACT` has (R31, R19). -/
  | bookkeeping
  deriving DecidableEq, Repr

/-- Where foreground stands inside its operation. -/
inductive FgPoint where
  | idle
  /-- g1 to g5 of R191; `getchWrite` is the write of a g4 that is not atomic (R185), which read `c`. -/
  | getch1 (p : PortId)
  | getch2 (p : PortId)
  | getch3 (p : PortId) (b : Byte)
  | getch4 (p : PortId) (b : Byte)
  | getchWrite (p : PortId) (b : Byte) (c : Nat)
  | getch5 (p : PortId) (b : Byte)
  /-- p1 to p5 of R192; `putchWrite` is the write of a p4 that is not atomic (R185), which read `c`. -/
  | putch1 (p : PortId) (d : Byte)
  | putch2 (p : PortId) (d : Byte)
  | putch3 (p : PortId) (d : Byte)
  | putch4 (p : PortId) (d : Byte)
  | putchWrite (p : PortId) (d : Byte) (c : Nat)
  | putch5 (p : PortId) (d : Byte)
  /-- Direct PUTCH: the test of `hw_tx_ready`, then the write of the hardware register (R102; log entry 10). -/
  | send1 (p : PortId) (d : Byte)
  | send2 (p : PortId) (d : Byte)
  /-- An operation of one micro-step (R193). -/
  | single (i : Instr)
  /-- The write of an ERRCLR that is not atomic (R187), which read `v`. -/
  | errclrWrite (p : PortId) (v : Count)
  /-- RXFLUSH or INIT with `done` of its writes performed (R193). -/
  | reset (i : Instr) (done : Nat)
  deriving DecidableEq, Repr

/-- The state of the micro-step model: the machine's state, where foreground stands, the masked sources, and
whether updates of `count` and `errcnt` are indivisible, as this spec assumes (R47, R185). -/
structure Micro where
  base : State
  fg : FgPoint
  masked : List IrqSource
  wordAtomic : Bool
  deriving DecidableEq, Repr

/-- What happens next in a micro-step run. -/
inductive MicroEvent where
  /-- Foreground issues an operation. -/
  | issue (i : Instr)
  /-- Foreground takes its next micro-step. -/
  | fg
  /-- Another agent performs one of its operations, whole (R190). -/
  | other (i : Instr)
  /-- Foreground masks an interrupt source, or lifts the mask (R166). -/
  | mask (src : IrqSource)
  | unmask (src : IrqSource)
  deriving DecidableEq, Repr

/-- The outcome of a micro-step. -/
abbrev MicroResult := Host.Outcome Micro Fault Refusal

/-- The interrupt source whose handler an operation is (R155, R156). -/
def sourceOf : Instr → Option IrqSource
  | .rxpush p _ => some (.rx p)
  | .rxerr p _ => some (.rx p)
  | .txdrain p => some (.tx p)
  | .init _ | .rxavail _ | .getch _ | .rxflush _ | .putch _ _ | .txrdy _ | .errq _ | .errclr _
  | .syncRxpush _ | .syncRxpop _ | .syncTxpush _ | .syncTxpop _ | .syncErr _ | .txdone _ => none

/-- The transmit half with its ring changed. -/
def TxPath.mapRing (f : Ring → Ring) : TxPath → TxPath
  | .queued t ie => .queued (f t) ie
  | .direct => .direct

/-- The transmit half with `tx_ie` changed. -/
def TxPath.setIe (b : Bool) : TxPath → TxPath
  | .queued t _ => .queued t b
  | .direct => .direct

/-- One write of a reset (R87, R120). -/
def FieldWrite.apply (P : Port) : FieldWrite → Port
  | .rxHead => { P with rx := { P.rx with head := 0 } }
  | .rxTail => { P with rx := { P.rx with tail := 0 } }
  | .rxCount => { P with rx := { P.rx with count := 0 } }
  | .txHead => { P with tx := P.tx.mapRing fun t => { t with head := 0 } }
  | .txTail => { P with tx := P.tx.mapRing fun t => { t with tail := 0 } }
  | .txCount => { P with tx := P.tx.mapRing fun t => { t with count := 0 } }
  | .txIe => { P with tx := P.tx.setIe false }
  | .errcnt => { P with errcnt := 0 }
  | .hwTxReady => { P with hwTxReady := true }
  | .bookkeeping =>
    { P with
      inited := true
      pendErr := 0
      rx := { P.rx with pendPush := 0, pendPop := 0 }
      tx := P.tx.mapRing fun t => { t with pendPush := 0, pendPop := 0 } }

/-- The writes of RXFLUSH and of INIT, in the order of the pseudocode of R87 and R120. -/
def resetWrites (i : Instr) (P : Port) : List FieldWrite :=
  match i with
  | .rxflush _ => [.rxHead, .rxTail, .rxCount]
  | _ =>
    [.rxHead, .rxTail, .rxCount]
      ++ (match P.tx with | .queued _ _ => [.txHead, .txTail, .txCount, .txIe] | .direct => [])
      ++ [.errcnt, .hwTxReady, .bookkeeping]

/-- Port `p` of the base state changed, and foreground moved on. -/
def Micro.move (m : Micro) (p : PortId) (P : Port) (fg : FgPoint) : Micro :=
  { m with base := m.base.setPort p P, fg := fg }

/-- Foreground's operation is finished with an answer. -/
def Micro.finish (m : Micro) (p : PortId) (P : Port) (r : Response) : Micro :=
  { m with base := (m.base.setPort p P).respond r, fg := .idle }

/-- Another operation's outcome as the base of a micro-step run. -/
def Micro.withBase (m : Micro) (fg : FgPoint) : Result → MicroResult
  | .next s => .next { m with base := s, fg := fg }
  | .fault f => .fault f
  | .refused r => .refused r

/-- The first point of an operation that passed R121's check. -/
def startPoint (i : Instr) (m : Micro) : FgPoint :=
  match i with
  | .getch p => .getch1 p
  | .putch p d => match (m.base.port p).tx with | .queued _ _ => .putch1 p d | .direct => .send1 p d
  | .rxflush _ => .reset i 0
  | .init _ => .reset i 0
  | .rxavail _ | .txrdy _ | .errq _ | .errclr _ | .rxpush _ _ | .rxerr _ _ | .txdrain _ | .txdone _
  | .syncRxpush _ | .syncRxpop _ | .syncTxpush _ | .syncTxpop _ | .syncErr _ => .single i

/-- Foreground issues an operation: only when the previous one has completed (R170), only its own (R66), and on an
initialised port unless it is INIT (R121). -/
def microIssue (i : Instr) (m : Micro) : MicroResult :=
  if m.fg ≠ .idle then .next m
  else if issuer i ≠ .fg then .next { m with base := rejectPort i m.base }
  else
    match i with
    | .init _ => .next { m with fg := startPoint i m }
    | _ =>
      if (m.base.port i.port).inited then .next { m with fg := startPoint i m }
      else .next { m with base := m.base.raiseFault (.notInitialised i.port) }

/-- The micro-steps of GETCH (R191), PUTCH (R192, R102), the single-step operations, ERRCLR and the resets (R193). -/
def microFg (m : Micro) : MicroResult :=
  match m.fg with
  | .idle => .next m
  | .getch1 p =>
    let P := m.base.port p
    if P.rx.count = 0 then
      match P.rxMode with
      | .polled => .next { m with base := m.base.respond .held }
      | .interrupt => .next { m with base := m.base.raiseFault (.emptyPop p), fg := .idle }
    else .next { m with fg := .getch2 p }
  | .getch2 p =>
    match (m.base.port p).rx.storage.read (m.base.port p).rx.head with
    | some b => .next { m with fg := .getch3 p b }
    | none => .fault (.slotWithoutValue p (m.base.port p).rx.head)
  | .getch3 p b =>
    let P := m.base.port p
    .next (m.move p { P with rx := { P.rx with head := P.rx.advance P.rx.head } } (.getch4 p b))
  | .getch4 p b =>
    let P := m.base.port p
    if m.wordAtomic then .next (m.move p { P with rx := { P.rx with count := P.rx.count - 1 } } (.getch5 p b))
    else .next { m with fg := .getchWrite p b P.rx.count }
  | .getchWrite p b c =>
    let P := m.base.port p
    .next (m.move p { P with rx := { P.rx with count := c - 1 } } (.getch5 p b))
  | .getch5 p b => .next (m.finish p (m.base.port p) (byteResult b))
  | .putch1 p d =>
    if ((m.base.port p).tx.ring?.any fun t => decide (t.count = t.N)) then
      .next { m with base := m.base.respond .held }
    else .next { m with fg := .putch2 p d }
  | .putch2 p d =>
    let P := m.base.port p
    .next (m.move p { P with tx := P.tx.mapRing fun t => { t with storage := t.storage.write t.tail d } } (.putch3 p d))
  | .putch3 p d =>
    let P := m.base.port p
    .next (m.move p { P with tx := P.tx.mapRing fun t => { t with tail := t.advance t.tail } } (.putch4 p d))
  | .putch4 p d =>
    let P := m.base.port p
    if m.wordAtomic then
      .next (m.move p { P with tx := P.tx.mapRing fun t => { t with count := t.count + 1 } } (.putch5 p d))
    else .next { m with fg := .putchWrite p d ((P.tx.ring?.map fun t => t.count).getD 0) }
  | .putchWrite p d c =>
    let P := m.base.port p
    .next (m.move p { P with tx := P.tx.mapRing fun t => { t with count := c + 1 } } (.putch5 p d))
  | .putch5 p _ =>
    let P := m.base.port p
    .next (m.finish p { P with tx := P.tx.setIe true } .done)
  | .send1 p d =>
    if (m.base.port p).hwTxReady then .next { m with fg := .send2 p d }
    else .next { m with base := m.base.respond .held }
  | .send2 p d => .next (m.finish p ((m.base.port p).sendByte d) .done)
  | .single i =>
    match i with
    | .errclr p =>
      if m.wordAtomic then m.withBase .idle (exec i m.base)
      else .next { m with fg := .errclrWrite p (m.base.port p).errview }
    | _ => m.withBase .idle (exec i m.base)
  | .errclrWrite p v =>
    let P := m.base.port p
    .next (m.finish p { P with errcnt := P.errcnt - v } (countResult v))
  | .reset i done =>
    let P := m.base.port i.port
    match (resetWrites i P)[done]? with
    | some w =>
      if done + 1 < (resetWrites i P).length then .next (m.move i.port (w.apply P) (.reset i (done + 1)))
      else .next (m.finish i.port (w.apply P) .done)
    | none => .next { m with fg := .idle }

/-- An interrupt-side operation does something on its port: the port is initialised, and TXDRAIN's interrupt is
pending (R121, R105). -/
def Micro.occurs (m : Micro) (i : Instr) : Bool :=
  (m.base.port i.port).inited
    && (match i with
        | .rxpush _ _ => true
        | .rxerr _ _ => true
        | .txdrain p => (m.base.port p).txIrqPending
        | _ => false)

/-- The operation falls between the first and the last write of a reset it must be kept out of: RXPUSH during
RXFLUSH, and RXPUSH, RXERR and TXDRAIN during INIT (R186). -/
def Micro.races (m : Micro) (i : Instr) : Bool :=
  match m.fg with
  | .reset r done =>
    decide (0 < done) && decide (r.port = i.port) && m.occurs i
      && (match r, i with
          | .rxflush _, .rxpush _ _ => true
          | .rxflush _, _ => false
          | _, _ => true)
  | _ => false

/-- The operation reads or writes the `count` or `errcnt` that foreground is half way through updating (R185, R187). -/
def Micro.tears (m : Micro) (i : Instr) : Bool :=
  m.occurs i
    && (match m.fg, i with
        | .getchWrite p _ _, .rxpush q _ => decide (p = q)
        | .putchWrite p _ _, .txdrain q => decide (p = q)
        | .errclrWrite p _, .rxerr q _ => decide (p = q)
        | .errclrWrite p _, .rxpush q _ => decide (p = q) && (m.base.port q).rxFull
        | _, _ => false)

/-- Another agent's operation: not while its source is masked (R166); a fault where it races a reset (R186) or tears
an update (R185); otherwise its atomic effect (R190). -/
def microOther (i : Instr) (m : Micro) : MicroResult :=
  if issuer i = .fg then .next m
  else if (sourceOf i).any (fun src => decide (src ∈ m.masked)) then .next m
  else if m.races i then .next { m with base := m.base.raiseFault (.resetRace i.port) }
  else if m.tears i then .next { m with base := m.base.raiseFault (.tornCount i.port) }
  else m.withBase m.fg (exec i m.base)

/-- One micro-step; `LAGGED` has no micro-steps (R195). -/
def microStep (e : MicroEvent) (m : Micro) : MicroResult :=
  match m.base.cdc with
  | .lagged => .refused .microStepUnderLagged
  | .exact =>
    match e with
    | .issue i => microIssue i m
    | .fg => microFg m
    | .other i => microOther i m
    | .mask src => .next (if m.fg = .idle ∧ src ∉ m.masked then { m with masked := src :: m.masked } else m)
    | .unmask src => .next (if m.fg = .idle then { m with masked := m.masked.filter (· ≠ src) } else m)

/-- A run of micro-steps. -/
def microRun : List MicroEvent → Micro → MicroResult
  | [], m => .next m
  | e :: es, m =>
    match microStep e m with
    | .next m' => microRun es m'
    | .fault f => .fault f
    | .refused r => .refused r

end Sys2Proof.Machine
end

