-- ==== Sys2Proof/Safety.lean ====
section
/-! DEFINITION. The terms the claims are stated in: the contents of a ring, the machine's invariant (R17, R19, R23,
R24, R32), an acceptable state (R160), what a step puts into and takes out of a port, and logs of those over a run. -/

namespace Sys2Proof.Machine

/-! ### Rings -/

/-- The slot of the `k`-th oldest byte (R17). -/
def Ring.slot (r : Ring) (k : Nat) : Nat := (r.head + k) % r.N

/-- `contents(r)`: the bytes in the occupied slots, oldest first (R17). -/
def Ring.contents (r : Ring) : List Byte := (List.range r.count).filterMap fun k => r.storage.read (r.slot k)

/-- What holds of a ring from power-on: a legal capacity (R4), and storage in canonical form within the ring's slots. -/
structure Ring.Base (r : Ring) : Prop where
  capacity : 0 < r.N
  canonical : r.storage.wf
  bounded : r.storage.within r.N

/-- The ring invariant (R17) and the bounds of the views (R19). -/
structure Ring.Inv (c : CdcMode) (r : Ring) : Prop extends Ring.Base r where
  head_lt : r.head < r.N
  tail_lt : r.tail < r.N
  count_le : r.count ≤ r.N
  cursors : (r.head + r.count) % r.N = r.tail
  occupied : ∀ k, k < r.count → (r.storage.read (r.slot k)).isSome
  pendPush_le : r.pendPush ≤ r.count
  viewp_le : r.viewp ≤ r.N
  exact_tokens : c = .exact → r.pendPush = 0 ∧ r.pendPop = 0

/-- The bytes waiting in a port's transmit ring, oldest first; none on a direct port (R109). -/
def Port.txContents (P : Port) : List Byte := (P.tx.ring?.map Ring.contents).getD []

/-! ### Ports and the machine -/

/-- What holds of a port: of every port the base of its rings, and of an initialised port the ring invariant, the
armed interrupt (R24) and the bound of the pending error events (R23). -/
structure Port.Inv (c : CdcMode) (P : Port) : Prop where
  rxBase : P.rx.Base
  txBase : ∀ t ie, P.tx = .queued t ie → t.Base
  rxRing : P.inited = true → P.rx.Inv c
  txRing : P.inited = true → ∀ t ie, P.tx = .queued t ie → t.Inv c
  armed : P.inited = true → ∀ t ie, P.tx = .queued t ie → 0 < t.viewc → ie = true
  errors : P.inited = true → P.pendErr ≤ P.errcnt.toNat
  exact_errors : P.inited = true → c = .exact → P.pendErr = 0

/-- The invariant of the machine: both ports', `faulted` is a set, and what holds is a GETCH or a PUTCH on an
initialised port (R161). -/
structure State.Inv (s : State) : Prop where
  ports : ∀ p, (s.port p).Inv s.cdc
  faults : s.faulted.Nodup
  holds : ∀ i, s.held = some i → (s.port i.port).inited = true ∧ (i = .getch i.port ∨ ∃ d, i = .putch i.port d)

/-- A state that may end a run: no fault was recorded (R160) and `FG` is not held (R161). -/
def State.acceptable (s : State) : Prop := s.faulted = [] ∧ s.held = none

/-- Everything of the state but the answer of the last step. -/
def State.sameButAnswer (s t : State) : Prop := s.respond .none = t.respond .none

/-- What an operation makes of one port and what it answers. -/
def portOutcome (p : PortId) : Result → Option (Port × Response)
  | .next s => some (s.port p, s.resp)
  | .fault _ => none
  | .refused _ => none

/-- A port with every field that R34 leaves unspecified before the first INIT blanked out. -/
def Port.specified (P : Port) : Port :=
  if P.inited then P
  else { P with rx := P.rx.clear, tx := P.tx.clear, errcnt := 0, pendErr := 0, hwTxReady := false }

/-- A state with every unspecified field blanked out (R34). -/
def State.specified (s : State) : State := { s with port0 := s.port0.specified, port1 := s.port1.specified }

/-- An outcome with every unspecified field blanked out (R34). -/
def specifiedOutcome : Result → Result
  | .next s => .next s.specified
  | .fault f => .fault f
  | .refused r => .refused r

/-! ### Sequences of operations -/

/-- Operations performed one after the other (R49: one total order), stopping where the machine stops. -/
def runOps : List Instr → State → Result
  | [], s => .next s
  | i :: is, s =>
    match exec i s with
    | .next t => runOps is t
    | .fault f => .fault f
    | .refused r => .refused r

/-- The operations that deliver the tokens an operation may create (R142). -/
def deliveries : Instr → List Instr
  | .rxpush p _ => [.syncRxpush p, .syncErr p]
  | .rxerr p _ => [.syncErr p]
  | .getch p => [.syncRxpop p]
  | .putch p _ => [.syncTxpush p]
  | .txdrain p => [.syncTxpop p]
  | .init _ | .rxavail _ | .rxflush _ | .txrdy _ | .errq _ | .errclr _ | .syncRxpush _ | .syncRxpop _
  | .syncTxpush _ | .syncTxpop _ | .syncErr _ | .txdone _ => []

/-- The state with `CDC_MODE = LAGGED`. -/
def State.lagged (s : State) : State := { s with cdc := .lagged }

/-! ### What one step does to a port -/

/-- The operand of the RXPUSH the next step performs on `p`, where it is accepted (R81). -/
def rxAccepted (p : PortId) (s : State) : List Byte :=
  match s.currentOp with
  | some (.rxpush q d) => if q = p ∧ (s.port p).inited = true ∧ (s.port p).rxFull = false then [d] else []
  | _ => []

/-- The byte a GETCH on `p` returns in the next step (R84). -/
def rxDelivered (p : PortId) (s : State) : List Byte :=
  match s.currentOp, step s with
  | some (.getch q), .next t => match t.resp with | .byte b => if q = p then [b] else [] | _ => []
  | _, _ => []

/-- The operand of the PUTCH on `p` the next step completes (R101, R102). -/
def putCompleted (p : PortId) (s : State) : List Byte :=
  match s.currentOp, step s with
  | some (.putch q d), .next t => if q = p ∧ t.resp = .done then [d] else []
  | _, _ => []

/-- The next step performs INIT on `p`. -/
def initialises (p : PortId) (s : State) : Bool := decide (s.currentOp = some (.init p))

/-- The next step performs INIT or RXFLUSH on `p`. -/
def resetsRx (p : PortId) (s : State) : Bool := initialises p s || decide (s.currentOp = some (.rxflush p))

/-- The number of receive bytes the next step discards on `p`: RXERR, and RXPUSH at a full view (R151). -/
def discards (p : PortId) (s : State) : Nat :=
  match s.currentOp with
  | some (.rxerr q _) => if q = p ∧ (s.port p).inited = true then 1 else 0
  | some (.rxpush q _) => if q = p ∧ (s.port p).inited = true ∧ (s.port p).rxFull = true then 1 else 0
  | _ => 0

/-- The number an ERRCLR on `p` returns in the next step (R122). -/
def cleared (p : PortId) (s : State) : Nat :=
  match s.currentOp, step s with
  | some (.errclr q), .next t => match t.resp with | .count v => if q = p then v.toNat else 0 | _ => 0
  | _, _ => 0

/-! ### Over a run of `k` steps -/

/-- What `f` collects at each of the first `k` states of the run. -/
def collect {α : Type} (f : State → List α) : Nat → State → List α
  | 0, _ => []
  | k + 1, s => f s ++ (match step s with | .next t => collect f k t | .fault _ => [] | .refused _ => [])

/-- The sum of `f` over the first `k` states of the run. -/
def total (f : State → Nat) : Nat → State → Nat
  | 0, _ => 0
  | k + 1, s => f s + (match step s with | .next t => total f k t | .fault _ => 0 | .refused _ => 0)

/-- `b` is false at each of the first `k` states of the run. -/
def never (b : State → Bool) : Nat → State → Bool
  | 0, _ => true
  | k + 1, s => !b s && (match step s with | .next t => never b k t | .fault _ => true | .refused _ => true)

end Sys2Proof.Machine
end

