-- ==== Sys2Proof/Certificates/Slice0/Obligations.lean ====
section
/-! DEFINITION. The statements for the provers. Each docstring names the rules of spec/ the statement formalises; a
part that rests on a choice of the model names its log entry (notes/assumptions). An equality of whole states says
the frame of an operation too: every field it does not name is unchanged. The storage after a store is given by what
each slot reads as. -/

open Sys2Proof Sys2Proof.Machine

/-! ### Words used in several statements -/

/-- Port `P` after one counted event: the saturating counter of R22 and the token of R90. -/
def Sys2Proof.Claims.oneMoreError (c : CdcMode) (P : Port) : Port :=
  { P with
    errcnt := BitVec.ofNat 32 (min (P.errcnt.toNat + 1) (2 ^ 32 - 1))
    pendErr := if c = .lagged ∧ P.errcnt.toNat < 2 ^ 32 - 1 then P.pendErr + 1 else P.pendErr }

/-- One more token under `LAGGED`, none under `EXACT` (R135). -/
def Sys2Proof.Claims.oneMoreToken (c : CdcMode) (n : Nat) : Nat := if c = .lagged then n + 1 else n

/-- `l` is the set of faults `old` with `f` added (R160). -/
def Sys2Proof.Claims.recorded (f : ModelFault) (old l : List ModelFault) : Prop := ∀ g, g ∈ l ↔ g = f ∨ g ∈ old

/-- The port bit in its place in the command word: "for port 1 add 0x0800" (R64). -/
def Sys2Proof.Claims.portBits : PortId → Word
  | .p0 => 0x0000
  | .p1 => 0x0800

open Sys2Proof.Claims

/-! ### Encoding -/

/-- Words of vector V1 of 95_test_vectors.md, at least one of each family, and three of its invalid words; the names of
the reasons are the model's (log entry 18). -/
def Obligations.SampleWordsDecode : Prop :=
  decode 0x0800 = .op (.init .p1) ∧ decode 0x1041 = .op (.rxpush .p0 0x41) ∧ decode 0x287F = .op (.rxerr .p1 0x7F) ∧
  decode 0x4800 = .op (.getch .p1) ∧ decode 0x6058 = .op (.putch .p0 0x58) ∧ decode 0x7000 = .op (.txdrain .p0) ∧
  decode 0x9800 = .op (.errq .p1) ∧ decode 0xB802 = .op (.syncTxpush .p1) ∧ decode 0xC000 = .op (.txdone .p0) ∧
  decode 0xD000 = .invalid .reservedOp ∧ decode 0x1441 = .invalid .reservedBits ∧
  decode 0xB005 = .invalid .reservedChannel

/-- Decoding the encoding of any operation gives it back (R60, R61, R64). -/
def Obligations.DecodeInvertsEncode : Prop := ∀ i : Instr, decode (encode i) = .op i

/-- A word has one spelling: what decodes to an operation is that operation's encoding (R64, R65). -/
def Obligations.EncodeInvertsDecode : Prop := ∀ (w : Word) (i : Instr), decode w = .op i → encode i = w

/-- "A word `w` is the operation of a row exactly when `w & mask = match`. Rows are disjoint." (R64). -/
def Obligations.DecoderAgreesWithMatchAndMask : Prop :=
  (∀ i : Instr, i.row ∈ opTable) ∧
  ∀ w : Word,
    (∀ i, decode w = .op i → w &&& i.row.mask = i.row.pattern) ∧
    (∀ r ∈ opTable, w &&& r.mask = r.pattern → ∃ i, decode w = .op i ∧ i.row = r) ∧
    (∀ r ∈ opTable, ∀ r' ∈ opTable, w &&& r.mask = r.pattern → w &&& r'.mask = r'.pattern → r = r')

/-- The invalid words (R65): a reserved `op`, `w[10:8]` not 0, data bits on an operation without a data operand, a
reserved SYNC channel; and no others. "An invalid word changes no state of the block and the model records the fault
`InvalidCommand`": so it is of every turn on which one is presented. -/
def Obligations.InvalidWordsAreTheseAndAreRecorded : Prop :=
  (∀ w : Word,
    ((∃ why, decode w = .invalid why) ↔
      13 ≤ w.toNat / 4096 ∨ w.toNat / 256 % 8 ≠ 0 ∨
      (w.toNat / 4096 ∉ [1, 2, 6, 11] ∧ w.toNat % 256 ≠ 0) ∨
      (w.toNat / 4096 = 11 ∧ 5 ≤ w.toNat % 256)) ∧
    ((∃ i, decode w = .op i) ↔ w.wellFormed = true)) ∧
  (∀ (s : State) (a : Agent) (rest : List Agent) (w : Word) (why : Invalid),
    s.turns = a :: rest → (a = .fg → s.held = none) → s.nextWord a = some w → decode w = .invalid why →
    ∃ l, recorded (.invalidCommand w) s.faulted l ∧
      step s = .next { s with
        turns := rest, offers := s.offers.eraseP fun o => decide (o.agent = a)
        faulted := l, resp := .faulted (.invalidCommand w) })

/-! ### Agents' turns and the command ports -/

/-- A step runs the decoded operation: when agent `a`'s turn is next, `FG` is not held (if it is `FG`'s turn), and
the next word `a` issues decodes to an operation its port accepts, the step is that operation in the state in which
the turn and the word are taken. The second clause says the same of a word placed by `withFetchWord`. -/
def Obligations.StepRunsTheDecodedOperation : Prop :=
  (∀ (s : State) (a : Agent) (rest : List Agent) (w : Word) (i : Instr),
    s.turns = a :: rest → (a = .fg → s.held = none) → s.nextWord a = some w → decode w = .op i → issuer i = a →
      step s = exec i { s with turns := rest, offers := s.offers.eraseP fun o => decide (o.agent = a) }) ∧
  (∀ (s : State) (w : Word) (i : Instr), decode w = .op i →
    step (s.withFetchWord 16 w.toNat) = exec i { s with held := if issuer i = .fg then none else s.held })

/-- While `FG` holds, its turn is spent on the operation it is held in and it issues nothing else (R170, R7). -/
def Obligations.HeldForegroundStaysAtItsOperation : Prop :=
  ∀ (s : State) (rest : List Agent) (i : Instr), s.turns = .fg :: rest → s.held = some i →
    step s = exec i { s with turns := rest, held := none }

/-- An operation on a command port that does not accept it changes no state of the block, and `WrongAgent` is recorded
(R66). On a port not yet initialised `NotInitialised` is recorded beside it, by the model's reading of R121's "from
any agent" (log entry 7). That a port accepts only operations of its own number is log entry 6. -/
def Obligations.WrongAgentIsRecorded : Prop :=
  ∀ (s : State) (a : Agent) (rest : List Agent) (w : Word) (i : Instr),
    s.turns = a :: rest → (a = .fg → s.held = none) → s.nextWord a = some w → decode w = .op i → issuer i ≠ a →
    ∃ l,
      (∀ g, g ∈ l ↔ g = .wrongAgent i ∨ g ∈ s.faulted ∨
        (g = .notInitialised i.port ∧ (s.port i.port).inited = false ∧ i ≠ .init i.port)) ∧
      step s = .next { s with
        turns := rest, offers := s.offers.eraseP fun o => decide (o.agent = a)
        faulted := l, resp := .faulted (.wrongAgent i) }

/-- `inited` (R31): 0 at power-on, set by INIT, never cleared; and while it is 0 every operation but INIT changes no
state and records `NotInitialised` (R121). -/
def Obligations.OnlyInitRunsOnAnUninitialisedPort : Prop :=
  (∀ (c : Config) (p : PortId), ((State.powerOn c).port p).inited = false) ∧
  (∀ (i : Instr) (s t : State) (p : PortId), exec i s = .next t →
    ((t.port p).inited = true ↔ (s.port p).inited = true ∨ i = .init p)) ∧
  (∀ (i : Instr) (s : State), i ≠ .init i.port → (s.port i.port).inited = false →
    ∃ l, recorded (.notInitialised i.port) s.faulted l ∧
      exec i s = .next { s with faulted := l, resp := .faulted (.notInitialised i.port) })

/-- A model fault (R160): a turn that is answered with a fault changed no port and no configuration, and the fault is
in `faulted`; an operation that raises one adds exactly that fault and leaves what `FG` is held in; and `faulted` is
never cleared, whatever the step (R32), so that no acceptable state follows. -/
def Obligations.FaultsChangeNothingAndStay : Prop :=
  (∀ (s t : State) (a : Agent) (rest : List Agent) (f : ModelFault), s.turns = a :: rest → step s = .next t →
    t.resp = .faulted f → (∀ p, t.port p = s.port p) ∧ t.cdc = s.cdc ∧ f ∈ t.faulted) ∧
  (∀ (i : Instr) (s t : State) (f : ModelFault), exec i s = .next t → t.resp = .faulted f →
    (∀ p, t.port p = s.port p) ∧ t.cdc = s.cdc ∧ t.held = s.held ∧ recorded f s.faulted t.faulted) ∧
  (∀ (s t : State) (f : ModelFault), step s = .next t → f ∈ s.faulted → f ∈ t.faulted ∧ ¬ t.acceptable)

/-- Faults 5 and 6 "cannot occur in the atomic model" (R163). -/
def Obligations.AtomicModelNeverRacesNorTears : Prop :=
  ∀ (s t : State) (p : PortId), step s = .next t →
    (.resetRace p ∈ t.faulted → .resetRace p ∈ s.faulted) ∧ (.tornCount p ∈ t.faulted → .tornCount p ∈ s.faulted)

/-! ### Receive path -/

/-- RXPUSH (R81, R82): at a full producer's view the byte is dropped and counted, and nothing else changes; otherwise
it is stored at `tail`, and `tail`, `count` and the token follow. It never holds and never faults (R89). -/
def Obligations.RxPushStoresOrDropsNewest : Prop :=
  (∀ (p : PortId) (d : Byte), issuer (.rxpush p d) = .rxi p ∧ encode (.rxpush p d) = 0x1000 + portBits p + d.setWidth 16) ∧
  (∀ (s : State) (p : PortId) (d : Byte), (s.port p).inited = true →
    ((s.port p).rx.viewp = (s.port p).rx.N →
      exec (.rxpush p d) s = .next ((s.setPort p (oneMoreError s.cdc (s.port p))).respond .done)) ∧
    ((s.port p).rx.viewp ≠ (s.port p).rx.N →
      ∃ m : Memory,
        (∀ k, m.read k = if k = (s.port p).rx.tail then some d else (s.port p).rx.storage.read k) ∧
        exec (.rxpush p d) s = .next ((s.setPort p { s.port p with
          rx := { (s.port p).rx with
            storage := m
            tail := ((s.port p).rx.tail + 1) % (s.port p).rx.N
            count := (s.port p).rx.count + 1
            pendPush := oneMoreToken s.cdc (s.port p).rx.pendPush } }).respond .done)))

/-- RXERR (R83): the counter rises by one, saturating, and nothing else changes, whatever the byte and however full the
ring. -/
def Obligations.RxErrCountsAndDiscards : Prop :=
  (∀ (p : PortId) (d : Byte), issuer (.rxerr p d) = .rxi p ∧ encode (.rxerr p d) = 0x2000 + portBits p + d.setWidth 16) ∧
  (∀ (s : State) (p : PortId) (d : Byte), (s.port p).inited = true →
    exec (.rxerr p d) s = .next ((s.setPort p (oneMoreError s.cdc (s.port p))).respond .done))

/-- RXAVAIL (R86): it returns `viewc > 0` and writes nothing. -/
def Obligations.RxAvailReturnsTheConsumersView : Prop :=
  (∀ p : PortId, issuer (.rxavail p) = .fg ∧ encode (.rxavail p) = 0x3000 + portBits p) ∧
  (∀ (s : State) (p : PortId), (s.port p).inited = true →
    exec (.rxavail p) s = .next (s.respond (.bit (decide (0 < (s.port p).rx.viewc)))))

/-- Between two foreground operations the consumer's view of a receive ring only rises, so an answer of true from
RXAVAIL stays true, and so does an answer of true from TXRDY: both are inferences the spec marks as derived, at R86 and
R107. -/
def Obligations.AvailabilityLastsUntilForegroundActs : Prop :=
  ∀ (i : Instr) (s t : State) (p : PortId), issuer i ≠ .fg → exec i s = .next t →
    (s.port p).rx.viewc ≤ (t.port p).rx.viewc ∧ (t.port p).rx.head = (s.port p).rx.head ∧
    ((s.port p).txReady = true → (t.port p).txReady = true)

/-- GETCH (R84): with a byte in view it pops the slot at `head` and returns it; on an empty view it holds under `POLLED`
and raises `EmptyPop`, returning nothing, under `INTERRUPT` (R85). -/
def Obligations.GetchPopsHoldsOrFaults : Prop :=
  (∀ p : PortId, issuer (.getch p) = .fg ∧ encode (.getch p) = 0x4000 + portBits p) ∧
  (∀ (s : State) (p : PortId), (s.port p).inited = true →
    (∀ b, 0 < (s.port p).rx.viewc → (s.port p).rx.storage.read (s.port p).rx.head = some b →
      exec (.getch p) s = .next ((s.setPort p { s.port p with
        rx := { (s.port p).rx with
          head := ((s.port p).rx.head + 1) % (s.port p).rx.N
          count := (s.port p).rx.count - 1
          pendPop := oneMoreToken s.cdc (s.port p).rx.pendPop } }).respond (.byte b))) ∧
    ((s.port p).rx.viewc = 0 → (s.port p).rxMode = .polled →
      exec (.getch p) s = .next { s with held := some (.getch p), resp := .held }) ∧
    ((s.port p).rx.viewc = 0 → (s.port p).rxMode = .interrupt →
      ∃ l, recorded (.emptyPop p) s.faulted l ∧
        exec (.getch p) s = .next { s with faulted := l, resp := .faulted (.emptyPop p) }))

/-- GETCH on an empty ring (R85): under `POLLED` it holds, and the hold is lifted by an accepted RXPUSH (`EXACT`) or by
the SYNC.RXPUSH that delivers its token (`LAGGED`), after which it completes as in R84; under `INTERRUPT` it is the
fault `EmptyPop`, with no state change and no value. -/
def Obligations.EmptyGetchHoldsUntilAByteArrives : Prop :=
  ∀ (s : State) (p : PortId) (d : Byte), s.Inv → (s.port p).inited = true → (s.port p).rx.viewc = 0 →
    ((s.port p).rxMode = .polled → exec (.getch p) s = .next { s with held := some (.getch p), resp := .held }) ∧
    (s.cdc = .exact → ∃ t, runOps [.rxpush p d, .getch p] s = .next t ∧ t.resp = .byte d) ∧
    (0 < (s.port p).rx.pendPush →
      ∃ t b, runOps [.syncRxpush p, .getch p] s = .next t ∧ t.resp = .byte b ∧
        (s.port p).rx.contents = b :: (t.port p).rx.contents) ∧
    ((s.port p).rxMode = .interrupt →
      ∃ l, recorded (.emptyPop p) s.faulted l ∧
        exec (.getch p) s = .next { s with faulted := l, resp := .faulted (.emptyPop p) })

/-- RXFLUSH (R87): cursors, count and pending counters of the receive ring become 0 and nothing else changes; a second
flush in a row changes nothing (the document's own sentence, which the spec also derives). -/
def Obligations.RxFlushEmptiesAndIsIdempotent : Prop :=
  (∀ p : PortId, issuer (.rxflush p) = .fg ∧ encode (.rxflush p) = 0x5000 + portBits p) ∧
  (∀ (s : State) (p : PortId), (s.port p).inited = true →
    exec (.rxflush p) s = .next ((s.setPort p { s.port p with
      rx := { (s.port p).rx with head := 0, tail := 0, count := 0, pendPush := 0, pendPop := 0 } }).respond .done) ∧
    ∀ t, exec (.rxflush p) s = .next t → exec (.rxflush p) t = .next t)

/-- FIFO order of the receive path (R88, R53): over any run with no INIT or RXFLUSH of the port, the bytes buffered at
the start and then the accepted ones are, in order, the bytes GETCH returned and then the bytes still buffered. -/
def Obligations.ReceivedBytesAreDeliveredInOrder : Prop :=
  ∀ (k : Nat) (s t : State) (p : PortId), s.Inv → core.run k s = .next t → never (resetsRx p) k s = true →
    (s.port p).rx.contents ++ collect (rxAccepted p) k s = collect (rxDelivered p) k s ++ (t.port p).rx.contents

/-- The occupancy law (R91): over any such run `count` is what it was, plus the accepted pushes, less the completed
pops, and never exceeds the capacity. -/
def Obligations.OccupancyIsPushesLessPops : Prop :=
  ∀ (k : Nat) (s t : State) (p : PortId), s.Inv → core.run k s = .next t → never (resetsRx p) k s = true →
    (t.port p).rx.count + (collect (rxDelivered p) k s).length =
      (s.port p).rx.count + (collect (rxAccepted p) k s).length ∧
    ((t.port p).inited = true → (t.port p).rx.count ≤ (t.port p).rx.N)

/-! ### Transmit path -/

/-- PUTCH, queued (R101): it holds at a full view, and otherwise stores at `tail` and re-arms `tx_ie`, at once under
`EXACT`. The hold is lifted by a TXDRAIN that pops (`EXACT`) or by the SYNC.TXPOP that delivers that pop's token. -/
def Obligations.QueuedPutchStoresOrHolds : Prop :=
  (∀ (p : PortId) (d : Byte), issuer (.putch p d) = .fg ∧ encode (.putch p d) = 0x6000 + portBits p + d.setWidth 16) ∧
  (∀ (s : State) (p : PortId) (d : Byte) (t : Ring) (ie : Bool),
    (s.port p).inited = true → (s.port p).tx = .queued t ie →
    (t.viewp = t.N → exec (.putch p d) s = .next { s with held := some (.putch p d), resp := .held }) ∧
    (t.viewp ≠ t.N →
      ∃ m : Memory, (∀ k, m.read k = if k = t.tail then some d else t.storage.read k) ∧
        exec (.putch p d) s = .next ((s.setPort p { s.port p with
          tx := .queued
            { t with
              storage := m, tail := (t.tail + 1) % t.N, count := t.count + 1
              pendPush := oneMoreToken s.cdc t.pendPush }
            (if s.cdc = .exact then true else ie) }).respond .done)) ∧
    (s.Inv → t.viewp = t.N → s.cdc = .exact → (s.port p).hwTxReady = true →
      ∃ u b, runOps [.txdrain p, .putch p d] s = .next u ∧ u.resp = .done ∧
        t.contents ++ [d] = b :: (u.port p).txContents ∧ (u.port p).wireOut = (s.port p).wireOut ++ [b]) ∧
    (s.Inv → t.viewp = t.N → 0 < t.pendPop →
      ∃ u, runOps [.syncTxpop p, .putch p d] s = .next u ∧ u.resp = .done ∧
        (u.port p).txContents = t.contents ++ [d]))

/-- PUTCH, direct (R102): it holds while the hardware register is busy, and otherwise writes the byte to the wire. The
hold is lifted by TXDONE. -/
def Obligations.DirectPutchSendsOrHolds : Prop :=
  (∀ (p : PortId) (d : Byte), issuer (.putch p d) = .fg ∧ encode (.putch p d) = 0x6000 + portBits p + d.setWidth 16) ∧
  (∀ (s : State) (p : PortId) (d : Byte), (s.port p).inited = true → (s.port p).tx = .direct →
    ((s.port p).hwTxReady = false →
      exec (.putch p d) s = .next { s with held := some (.putch p d), resp := .held } ∧
      ∃ u, runOps [.txdone p, .putch p d] s = .next u ∧ u.resp = .done ∧
        (u.port p).wireOut = (s.port p).wireOut ++ [d]) ∧
    ((s.port p).hwTxReady = true →
      exec (.putch p d) s = .next ((s.setPort p { s.port p with
        wireOut := (s.port p).wireOut ++ [d], hwTxReady := false }).respond .done)))

/-- TXDRAIN where it is enabled (R104, R105): one byte from `head` goes to the wire and the hardware register is busy;
on an empty view `tx_ie` is cleared and nothing else changes. -/
def Obligations.TxDrainSendsOneByteOrDisarms : Prop :=
  (∀ p : PortId, issuer (.txdrain p) = .txi p ∧ encode (.txdrain p) = 0x7000 + portBits p) ∧
  (∀ (s : State) (p : PortId) (t : Ring), (s.port p).inited = true → (s.port p).tx = .queued t true →
    (s.port p).hwTxReady = true →
    (∀ b, 0 < t.viewc → t.storage.read t.head = some b →
      exec (.txdrain p) s = .next ((s.setPort p { s.port p with
        tx := .queued
          { t with head := (t.head + 1) % t.N, count := t.count - 1, pendPop := oneMoreToken s.cdc t.pendPop } true
        wireOut := (s.port p).wireOut ++ [b]
        hwTxReady := false }).respond .done)) ∧
    (t.viewc = 0 →
      exec (.txdrain p) s = .next ((s.setPort p { s.port p with tx := .queued t false }).respond .done)))

/-- An operation whose enabling condition is false does not occur: TXDRAIN without its interrupt pending or on a direct
port (R105, R67), TXDONE with the register already free (R106). That the model's step then answers with an unchanged
state is its own choice (log entry 5). -/
def Obligations.DisabledOperationsChangeNothing : Prop :=
  ∀ (s : State) (p : PortId), (s.port p).inited = true →
    ((s.port p).tx = .direct → exec (.txdrain p) s = .next (s.respond .notEnabled)) ∧
    (∀ t ie, (s.port p).tx = .queued t ie → ie = false ∨ (s.port p).hwTxReady = false →
      exec (.txdrain p) s = .next (s.respond .notEnabled)) ∧
    ((s.port p).hwTxReady = true → exec (.txdone p) s = .next (s.respond .notEnabled))

/-- TXDONE (R106): it sets `hw_tx_ready` and touches nothing inside the block; it takes place only where that bit
was 0. -/
def Obligations.TxDoneFreesTheHardwareRegister : Prop :=
  (∀ p : PortId, issuer (.txdone p) = .env p ∧ encode (.txdone p) = 0xC000 + portBits p) ∧
  (∀ (s : State) (p : PortId), (s.port p).inited = true → (s.port p).hwTxReady = false →
    exec (.txdone p) s = .next ((s.setPort p { s.port p with hwTxReady := true }).respond .done)) ∧
  (∀ (s t : State) (p : PortId), exec (.txdone p) s = .next t → t.resp = .done → (s.port p).hwTxReady = false)

/-- TXRDY (R107): queued, `viewp < N`; direct, `hw_tx_ready`; it writes nothing. It answers true exactly when a PUTCH
issued next would not hold. -/
def Obligations.TxReadyTellsWhetherPutchHolds : Prop :=
  (∀ p : PortId, issuer (.txrdy p) = .fg ∧ encode (.txrdy p) = 0x8000 + portBits p) ∧
  (∀ (s : State) (p : PortId), (s.port p).inited = true →
    (∀ t ie, (s.port p).tx = .queued t ie →
      exec (.txrdy p) s = .next (s.respond (.bit (decide (t.viewp < t.N))))) ∧
    ((s.port p).tx = .direct → exec (.txrdy p) s = .next (s.respond (.bit (s.port p).hwTxReady))) ∧
    (s.Inv → ∀ d, exec (.txrdy p) s = .next (s.respond (.bit true)) ↔
      ∃ t, exec (.putch p d) s = .next t ∧ t.resp = .done ∧ t.held = s.held))

/-- PUTSTR (R69): one PUTCH per byte before the first zero byte, in order; the zero is not sent. -/
def Obligations.PutstrExpandsToPutches : Prop :=
  ∀ (p : PortId) (bytes rest : List Byte), 0 ∉ bytes →
    expandPutstr p (bytes ++ 0 :: rest) = bytes.map (fun b => Instr.putch p b)

/-- A string that fits into the free slots the foreground sees is enqueued whole and in order, without a hold
(R108 on R101). -/
def Obligations.PutstrEnqueuesTheString : Prop :=
  ∀ (s : State) (p : PortId) (bytes rest : List Byte) (t : Ring) (ie : Bool),
    s.Inv → (s.port p).inited = true → (s.port p).tx = .queued t ie → 0 ∉ bytes → t.viewp + bytes.length ≤ t.N →
    ∃ s', runOps (expandPutstr p (bytes ++ 0 :: rest)) s = .next s' ∧ s'.held = s.held ∧ s'.faulted = s.faulted ∧
      (s'.port p).txContents = t.contents ++ bytes ∧ (s'.port p).wireOut = (s.port p).wireOut ∧
      (s'.port p).rx = (s.port p).rx ∧ (s'.port p).errcnt = (s.port p).errcnt

/-- Order of transmission (R109): over any run with no INIT of the port, what is on the wire and then in the ring is
what was there at the start and then the operands of the completed PUTCH operations: nothing lost, duplicated or
reordered. -/
def Obligations.TransmittedBytesKeepTheirOrder : Prop :=
  ∀ (k : Nat) (s t : State) (p : PortId), s.Inv → core.run k s = .next t → never (initialises p) k s = true →
    (t.port p).wireOut ++ (t.port p).txContents =
      (s.port p).wireOut ++ (s.port p).txContents ++ collect (putCompleted p) k s

/-- No transmit-side condition touches the error counter (R103, R150). -/
def Obligations.TransmitSideNeverCounts : Prop :=
  ∀ (i : Instr) (s t : State) (q : PortId),
    ((∃ d, i = .putch i.port d) ∨ i = .txdrain i.port ∨ i = .txdone i.port ∨ i = .txrdy i.port ∨
      i = .syncTxpush i.port ∨ i = .syncTxpop i.port) →
    exec i s = .next t → (t.port q).errcnt = (s.port q).errcnt ∧ (t.port q).pendErr = (s.port q).pendErr ∧
      (t.port q).rx = (s.port q).rx

/-- Whatever the transmit ring holds, synchroniser deliveries, transmit interrupts and TXDONEs alone can bring all of
it to the wire, in order (R24: no byte is stranded with the interrupt off; R104, R106, R138). -/
def Obligations.BufferedBytesCanAlwaysBeSent : Prop :=
  ∀ (s : State) (p : PortId), s.Inv → (s.port p).inited = true →
    ∃ (ops : List Instr) (t : State),
      (∀ i ∈ ops, issuer i = .txi p ∨ issuer i = .env p ∨ issuer i = .syn p) ∧ runOps ops s = .next t ∧
      (t.port p).wireOut = (s.port p).wireOut ++ (s.port p).txContents ∧ (t.port p).txContents = [] ∧
      t.faulted = s.faulted ∧ t.port p.other = s.port p.other

/-! ### Initialisation and status -/

/-- INIT (R120): what it writes, on any state, and the flags after it. It leaves storage, `wire_out`, the
configuration, the other port and `faulted` as they were. -/
def Obligations.InitResetsThePort : Prop :=
  (∀ p : PortId, issuer (.init p) = .fg ∧ encode (.init p) = 0x0000 + portBits p) ∧
  (∀ (s : State) (p : PortId),
    exec (.init p) s = .next ((s.setPort p { s.port p with
      rx := { (s.port p).rx with head := 0, tail := 0, count := 0, pendPush := 0, pendPop := 0 }
      tx := (match (s.port p).tx with
        | .queued t _ => .queued { t with head := 0, tail := 0, count := 0, pendPush := 0, pendPop := 0 } false
        | .direct => .direct)
      errcnt := 0
      pendErr := 0
      hwTxReady := true
      inited := true }).respond .done) ∧
    (s.config.wellFormed = true → ∀ t, exec (.init p) s = .next t →
      (t.port p).rxAvail = false ∧ (t.port p).rxFull = false ∧ (t.port p).txFull = false ∧
      (t.port p).txNonempty = false ∧ (t.port p).txIe = false ∧ (t.port p).active = false))

/-- ERRQ (R123): it returns `errcnt - pend_err` and writes nothing. -/
def Obligations.ErrqReturnsTheView : Prop :=
  (∀ p : PortId, issuer (.errq p) = .fg ∧ encode (.errq p) = 0x9000 + portBits p) ∧
  (∀ (s : State) (p : PortId), (s.port p).inited = true →
    exec (.errq p) s = .next (s.respond (.count (BitVec.ofNat 32 ((s.port p).errcnt.toNat - (s.port p).pendErr)))))

/-- ERRCLR (R122): it returns the view and leaves in the counter the events still under way, which is 0 under
`EXACT`. -/
def Obligations.ErrclrReturnsAndClearsTheView : Prop :=
  (∀ p : PortId, issuer (.errclr p) = .fg ∧ encode (.errclr p) = 0xA000 + portBits p) ∧
  (∀ (s : State) (p : PortId), (s.port p).inited = true → (s.port p).pendErr ≤ (s.port p).errcnt.toNat →
    exec (.errclr p) s = .next ((s.setPort p { s.port p with errcnt := BitVec.ofNat 32 (s.port p).pendErr }).respond
      (.count (BitVec.ofNat 32 ((s.port p).errcnt.toNat - (s.port p).pendErr)))) ∧
    (s.Inv → s.cdc = .exact → ∀ t, exec (.errclr p) s = .next t → (t.port p).errcnt = 0))

/-- No event is lost or counted twice across clears (R122, R91): over any run with no INIT of the port, below
saturation, the final counter plus the ERRCLR results is the initial counter plus the discarded bytes. -/
def Obligations.ErrorEventsAreConserved : Prop :=
  ∀ (k : Nat) (s t : State) (p : PortId), s.Inv → core.run k s = .next t → never (initialises p) k s = true →
    (s.port p).errcnt.toNat + total (discards p) k s ≤ 2 ^ 32 - 1 →
    (t.port p).errcnt.toNat + total (cleared p) k s = (s.port p).errcnt.toNat + total (discards p) k s

/-- Idle and Active (R26, R125): a port becomes Active only by RXPUSH or PUTCH, and Idle only by GETCH, TXDRAIN, RXFLUSH
or INIT. -/
def Obligations.IdleAndActiveTransitions : Prop :=
  ∀ (i : Instr) (s t : State) (p : PortId), exec i s = .next t →
    ((s.port p).active = false → (t.port p).active = true → (∃ d, i = .rxpush p d) ∨ ∃ d, i = .putch p d) ∧
    ((s.port p).active = true → (t.port p).active = false →
      i = .getch p ∨ i = .txdrain p ∨ i = .rxflush p ∨ i = .init p)

/-! ### Status synchronisers -/

/-- SYNC.RXPUSH and SYNC.RXPOP (R136, R137): one pending token fewer, where there is one; nothing else. -/
def Obligations.ReceiveSynchronisersDeliverOneToken : Prop :=
  (∀ p : PortId, issuer (.syncRxpush p) = .syn p ∧ encode (.syncRxpush p) = 0xB000 + portBits p ∧
    issuer (.syncRxpop p) = .syn p ∧ encode (.syncRxpop p) = 0xB001 + portBits p) ∧
  (∀ (s : State) (p : PortId), (s.port p).inited = true →
    exec (.syncRxpush p) s = .next ((s.setPort p { s.port p with
      rx := { (s.port p).rx with pendPush := (s.port p).rx.pendPush - 1 } }).respond .done) ∧
    exec (.syncRxpop p) s = .next ((s.setPort p { s.port p with
      rx := { (s.port p).rx with pendPop := (s.port p).rx.pendPop - 1 } }).respond .done))

/-- SYNC.TXPUSH and SYNC.TXPOP (R138, R139, R67): one pending token fewer, and a delivered push re-arms `tx_ie`; no
effect without a token or on a direct port. -/
def Obligations.TransmitSynchronisersDeliverOneToken : Prop :=
  (∀ p : PortId, issuer (.syncTxpush p) = .syn p ∧ encode (.syncTxpush p) = 0xB002 + portBits p ∧
    issuer (.syncTxpop p) = .syn p ∧ encode (.syncTxpop p) = 0xB003 + portBits p) ∧
  (∀ (s : State) (p : PortId), (s.port p).inited = true →
    (∀ t ie, (s.port p).tx = .queued t ie →
      exec (.syncTxpush p) s = .next ((s.setPort p { s.port p with
        tx := .queued { t with pendPush := t.pendPush - 1 } (if 0 < t.pendPush then true else ie) }).respond .done) ∧
      exec (.syncTxpop p) s = .next ((s.setPort p { s.port p with
        tx := .queued { t with pendPop := t.pendPop - 1 } ie }).respond .done)) ∧
    ((s.port p).tx = .direct →
      exec (.syncTxpush p) s = .next (s.respond .done) ∧ exec (.syncTxpop p) s = .next (s.respond .done)))

/-- SYNC.ERR (R140): one pending error event fewer, where there is one; the counter itself is unchanged. -/
def Obligations.ErrorSynchroniserDeliversOneEvent : Prop :=
  (∀ p : PortId, issuer (.syncErr p) = .syn p ∧ encode (.syncErr p) = 0xB004 + portBits p) ∧
  (∀ (s : State) (p : PortId), (s.port p).inited = true →
    exec (.syncErr p) s =
      .next ((s.setPort p { s.port p with pendErr := (s.port p).pendErr - 1 }).respond .done))

/-- Under `EXACT` every side sees `count` and `errcnt` themselves and every SYNC operation has no effect (R135). -/
def Obligations.ExactViewsAreTheCounts : Prop :=
  ∀ (s : State) (p : PortId), s.Inv → s.cdc = .exact → (s.port p).inited = true →
    (s.port p).rx.viewp = (s.port p).rx.count ∧ (s.port p).rx.viewc = (s.port p).rx.count ∧
    (∀ t ie, (s.port p).tx = .queued t ie → t.viewp = t.count ∧ t.viewc = t.count) ∧
    (s.port p).errview = (s.port p).errcnt ∧
    ∀ i ∈ [Instr.syncRxpush p, .syncRxpop p, .syncTxpush p, .syncTxpop p, .syncErr p],
      exec i s = .next (s.respond .done)

/-- "Every run under `EXACT` is a run under `LAGGED` in which each token-creating operation is followed at once by its
SYNC operation" (R142), with the same results. -/
def Obligations.ExactRunsAreLaggedRunsWithImmediateDelivery : Prop :=
  (∀ (ops : List Instr) (s t : State), s.Inv → s.cdc = .exact → runOps ops s = .next t →
    ∃ u, runOps (ops.flatMap fun i => i :: deliveries i) s.lagged = .next u ∧ u.sameButAnswer t.lagged) ∧
  (∀ (i : Instr) (s t : State), s.Inv → s.cdc = .exact → exec i s = .next t →
    ∃ u, exec i s.lagged = .next u ∧ u.resp = t.resp)

/-! ### Fair executions -/

/-- Delivery of tokens (R141). It is fair: in a fair execution, whatever number of tokens of one channel is pending on an
initialised port, the channel's SYNC operation is performed that many times, unless an INIT or RXFLUSH of the ring
discards them. It has no bound: however many steps are named, some fair execution keeps a token pending longer. It has no
order: two deliveries give the same state in either order. -/
def Obligations.DeliveryIsFairUnboundedAndUnordered : Prop :=
  (∀ (e : Execution) (p : PortId) (i : Instr) (n : Nat), e.Valid → e.Fair → i ∈ syncOps p →
    ((e.states n).port p).inited = true →
    ∃ k, (∃ j, j < k ∧ ∃ r ∈ tokenResets i, e.performed (n + j) = some r) ∨ tokens i (e.states n) ≤ e.times i n k) ∧
  (∀ bound : Nat, ∃ (e : Execution) (i : Instr), e.Valid ∧ e.Fair ∧ 0 < tokens i (e.states 0) ∧
    (∀ n, n ≤ bound → tokens i (e.states n) = tokens i (e.states 0)) ∧ ∃ n, tokens i (e.states n) = 0) ∧
  (∀ (s : State) (p q : PortId) (i j : Instr), i ∈ syncOps p → j ∈ syncOps q → (s.port p).inited = true →
    (s.port q).inited = true → ∃ u v, runOps [i, j] s = .next u ∧ runOps [j, i] s = .next v ∧ u.sameButAnswer v)

/-- In a fair execution with no further INIT of the port every byte in the transmit ring reaches the wire, in order,
whatever the foreground does (R24, R101, R105, R106, R138 under the fairness of R173). -/
def Obligations.EveryBufferedByteIsSent : Prop :=
  ∀ (e : Execution) (p : PortId) (n : Nat), e.Valid → e.Fair → (e.states 0).Inv → ((e.states n).port p).inited = true →
    (∀ j, n ≤ j → e.performed j ≠ some (.init p)) →
    ∃ m, n ≤ m ∧
      ((e.states n).port p).wireOut ++ ((e.states n).port p).txContents <+: ((e.states m).port p).wireOut

/-! ### The whole machine -/

/-- The machine at power-on, with any configuration: nothing on the wire, no port initialised, no fault, no slot with a
value, the configured modes and capacities (R33, R34); and reset is power-on with the reference configuration (log
entry 1). -/
def Obligations.PowerOnState : Prop :=
  (∀ (c : Config) (p : PortId),
    (State.powerOn c).config = c ∧ (State.powerOn c).faulted = [] ∧ (State.powerOn c).held = none ∧
    ((State.powerOn c).port p).wireOut = [] ∧ ((State.powerOn c).port p).inited = false ∧
    (∀ k, ((State.powerOn c).port p).rx.storage.read k = none) ∧
    (∀ t ie, ((State.powerOn c).port p).tx = .queued t ie → ∀ k, t.storage.read k = none)) ∧
  State.reset = State.powerOn Config.reference

/-- Power-on with any legal configuration meets the invariant, and so does the state right after reset. -/
def Obligations.PowerOnMeetsTheInvariant : Prop :=
  (∀ c : Config, c.wellFormed = true → (State.powerOn c).Inv) ∧ State.reset.Inv

/-- Every step keeps the invariant: the ring invariant (R17), the bounds of the views (R19), the bound of the pending
events (R23), the armed interrupt (R24), the canonical storage. -/
def Obligations.StepKeepsTheInvariant : Prop := ∀ s t : State, s.Inv → step s = .next t → t.Inv

/-- No state of the block is terminal (R124): from every state that meets the invariant the step answers a next state. -/
def Obligations.TheMachineNeverStops : Prop := ∀ s : State, s.Inv → ∃ t, step s = .next t

/-- The model's own stop (log entry 2): GETCH and TXDRAIN stop where the slot at `head` holds no value. -/
def Obligations.ValuelessSlotStopsTheMachine : Prop :=
  ∀ (s : State) (p : PortId), (s.port p).inited = true →
    (0 < (s.port p).rx.viewc → (s.port p).rx.storage.read (s.port p).rx.head = none →
      exec (.getch p) s = .fault (.slotWithoutValue p (s.port p).rx.head)) ∧
    (∀ t, (s.port p).tx = .queued t true → (s.port p).hwTxReady = true → 0 < t.viewc →
      t.storage.read t.head = none → exec (.txdrain p) s = .fault (.slotWithoutValue p t.head))

/-- "No operation writes them": the modes, the capacities and `CDC_MODE` are constants of a run (R27). -/
def Obligations.ConfigurationNeverChanges : Prop := ∀ s t : State, step s = .next t → t.config = s.config

/-- The two ports share no state (R11): an operation leaves the other port as it was, and what it makes of its own port
and answers depends on that port and `CDC_MODE` alone. -/
def Obligations.PortsShareNoState : Prop :=
  (∀ (i : Instr) (s t : State), exec i s = .next t → t.port i.port.other = s.port i.port.other) ∧
  (∀ (i : Instr) (s s' : State), s.cdc = s'.cdc → s.port i.port = s'.port i.port →
    portOutcome i.port (exec i s) = portOutcome i.port (exec i s'))

/-- Ownership (R18; the writers of R165; R28, R29): the operations that can change each field of a port, and, where a
field is raised and lowered by different sides, which of them does which. `inited` is R31's, and the configuration has no
writer (R27). -/
def Obligations.EveryFieldHasItsWriters : Prop :=
  ∀ (i : Instr) (s t : State) (p : PortId), exec i s = .next t →
    ((t.port p).rx.head ≠ (s.port p).rx.head → i = .getch p ∨ i = .rxflush p ∨ i = .init p) ∧
    ((t.port p).rx.tail ≠ (s.port p).rx.tail → (∃ d, i = .rxpush p d) ∨ i = .rxflush p ∨ i = .init p) ∧
    ((t.port p).rx.storage ≠ (s.port p).rx.storage → ∃ d, i = .rxpush p d) ∧
    ((s.port p).rx.count < (t.port p).rx.count →
      (∃ d, i = .rxpush p d) ∧ (t.port p).rx.count = (s.port p).rx.count + 1) ∧
    ((t.port p).rx.count < (s.port p).rx.count →
      (i = .getch p ∧ (t.port p).rx.count + 1 = (s.port p).rx.count) ∨
        ((i = .rxflush p ∨ i = .init p) ∧ (t.port p).rx.count = 0)) ∧
    ((s.port p).rx.pendPush < (t.port p).rx.pendPush → ∃ d, i = .rxpush p d) ∧
    ((t.port p).rx.pendPush < (s.port p).rx.pendPush → i = .syncRxpush p ∨ i = .rxflush p ∨ i = .init p) ∧
    ((s.port p).rx.pendPop < (t.port p).rx.pendPop → i = .getch p) ∧
    ((t.port p).rx.pendPop < (s.port p).rx.pendPop → i = .syncRxpop p ∨ i = .rxflush p ∨ i = .init p) ∧
    (∀ r ie r' ie', (s.port p).tx = .queued r ie → (t.port p).tx = .queued r' ie' →
      (r'.head ≠ r.head → i = .txdrain p ∨ i = .init p) ∧
      (r'.tail ≠ r.tail → (∃ d, i = .putch p d) ∨ i = .init p) ∧
      (r'.storage ≠ r.storage → ∃ d, i = .putch p d) ∧
      (r.count < r'.count → (∃ d, i = .putch p d) ∧ r'.count = r.count + 1) ∧
      (r'.count < r.count → (i = .txdrain p ∧ r'.count + 1 = r.count) ∨ (i = .init p ∧ r'.count = 0)) ∧
      (r.pendPush < r'.pendPush → ∃ d, i = .putch p d) ∧
      (r'.pendPush < r.pendPush → i = .syncTxpush p ∨ i = .init p) ∧
      (r.pendPop < r'.pendPop → i = .txdrain p) ∧
      (r'.pendPop < r.pendPop → i = .syncTxpop p ∨ i = .init p) ∧
      (ie = false → ie' = true → (∃ d, i = .putch p d) ∨ i = .syncTxpush p) ∧
      (ie = true → ie' = false → i = .txdrain p ∨ i = .init p)) ∧
    ((s.port p).errcnt.toNat < (t.port p).errcnt.toNat →
      ((∃ d, i = .rxpush p d) ∨ ∃ d, i = .rxerr p d) ∧ (t.port p).errcnt.toNat = (s.port p).errcnt.toNat + 1) ∧
    ((t.port p).errcnt.toNat < (s.port p).errcnt.toNat → i = .errclr p ∨ i = .init p) ∧
    ((s.port p).pendErr < (t.port p).pendErr → (∃ d, i = .rxpush p d) ∨ ∃ d, i = .rxerr p d) ∧
    ((t.port p).pendErr < (s.port p).pendErr → i = .syncErr p ∨ i = .init p) ∧
    ((t.port p).wireOut ≠ (s.port p).wireOut →
      (((∃ d, i = .putch p d) ∧ (s.port p).tx = .direct) ∨ i = .txdrain p) ∧
        ∃ b, (t.port p).wireOut = (s.port p).wireOut ++ [b]) ∧
    (∀ w : List Byte,
      exec i (s.setPort p { s.port p with wireOut := w ++ (s.port p).wireOut }) =
        .next (t.setPort p { t.port p with wireOut := w ++ (t.port p).wireOut })) ∧
    ((s.port p).hwTxReady = true → (t.port p).hwTxReady = false →
      ((∃ d, i = .putch p d) ∧ (s.port p).tx = .direct) ∨ i = .txdrain p) ∧
    ((s.port p).hwTxReady = false → (t.port p).hwTxReady = true → i = .txdone p ∨ i = .init p) ∧
    ((t.port p).inited ≠ (s.port p).inited → i = .init p) ∧
    (t.port p).config = (s.port p).config

/-- Simultaneous firings of two different interrupt sources give the same state in either order (R157, R153). -/
def Obligations.SimultaneousInterruptsCommute : Prop :=
  ∀ (s : State) (i j : Instr) (a b : IrqSource), s.Inv → sourceOf i = some a → sourceOf j = some b → a ≠ b →
    (s.port i.port).inited = true → (s.port j.port).inited = true →
    ∃ u v, runOps [i, j] s = .next u ∧ runOps [j, i] s = .next v ∧ u.sameButAnswer v

/-- The values R34 leaves unspecified are never used: two states that differ only in them take steps that differ only
in them, and hand back the same answers. -/
def Obligations.UnspecifiedValuesAreNeverUsed : Prop :=
  ∀ s s' : State, s.specified = s'.specified → specifiedOutcome (step s) = specifiedOutcome (step s')

/-- The holds, complete (R161): GETCH on an empty view under `POLLED`, queued PUTCH at a full view, direct PUTCH with the
hardware register busy. No other operation ever holds (R159). -/
def Obligations.HoldsAreTheseThree : Prop :=
  ∀ (i : Instr) (s : State), (s.port i.port).inited = true →
    ((∃ t, exec i s = .next t ∧ t.resp = .held) ↔
      (i = .getch i.port ∧ (s.port i.port).rxMode = .polled ∧ (s.port i.port).rx.viewc = 0) ∨
      (∃ d t ie, i = .putch i.port d ∧ (s.port i.port).tx = .queued t ie ∧ t.viewp = t.N) ∨
      (∃ d, i = .putch i.port d ∧ (s.port i.port).tx = .direct ∧ (s.port i.port).hwTxReady = false))

/-! ### The micro-step model -/

/-- GETCH as micro-steps g1 to g5 (R191, R194): with any operations of the other agents between them, the outcome is
that of the atomic model with GETCH at its effect point g4, and the byte returned is the same. -/
def Obligations.GetchMicroStepsRefineTheAtomicGetch : Prop :=
  ∀ (s : State) (p : PortId) (l₁ l₂ l₃ l₄ : List Instr),
    s.Inv → s.cdc = .exact → (s.port p).inited = true → (s.port p).rx.count ≠ 0 →
    (∀ i ∈ l₁ ++ l₂ ++ l₃ ++ l₄, issuer i ≠ .fg) →
    ∃ u v t b, runOps (l₁ ++ l₂ ++ l₃) s = .next u ∧ exec (.getch p) u = .next v ∧ v.resp = .byte b ∧
      runOps l₄ v = .next t ∧
      microRun
        ([.issue (.getch p), .fg] ++ l₁.map .other ++ [.fg] ++ l₂.map .other ++ [.fg] ++ l₃.map .other ++ [.fg] ++
          l₄.map .other ++ [.fg])
        { base := s, fg := .idle, masked := [], wordAtomic := true } =
        .next { base := t.respond (.byte b), fg := .idle, masked := [], wordAtomic := true }

/-- Queued PUTCH as micro-steps p1 to p5 (R192, R194): the outcome is that of the atomic model with PUTCH at its effect
point p4, with `tx_ie` set last. A TXDRAIN between p4 and p5 occurs only if `tx_ie` was 1 before (R192), so runs that
list one there while it was 0 are left out. -/
def Obligations.PutchMicroStepsRefineTheAtomicPutch : Prop :=
  ∀ (s : State) (p : PortId) (d : Byte) (r : Ring) (ie : Bool) (l₁ l₂ l₃ l₄ : List Instr),
    s.Inv → s.cdc = .exact → (s.port p).inited = true → (s.port p).tx = .queued r ie → r.count ≠ r.N →
    (∀ i ∈ l₁ ++ l₂ ++ l₃ ++ l₄, issuer i ≠ .fg) →
    ∃ u v t, runOps (l₁ ++ l₂ ++ l₃) s = .next u ∧ exec (.putch p d) u = .next v ∧ v.resp = .done ∧
      runOps l₄ v = .next t ∧
      ((u.port p).txIe = true ∨ Instr.txdrain p ∉ l₄ →
        microRun
          ([.issue (.putch p d), .fg] ++ l₁.map .other ++ [.fg] ++ l₂.map .other ++ [.fg] ++ l₃.map .other ++ [.fg] ++
            l₄.map .other ++ [.fg])
          { base := s, fg := .idle, masked := [], wordAtomic := true } =
          .next
            { base := (t.setPort p { t.port p with tx := (t.port p).tx.setIe true }).respond .done
              fg := .idle, masked := [], wordAtomic := true })

/-- RXFLUSH and INIT as several writes, with the port's interrupt sources masked (R186, R193, R166): whatever the
handlers would do between the writes, the outcome is the atomic operation's. -/
def Obligations.MaskedResetIsAtomic : Prop :=
  ∀ (s t : State) (p : PortId) (i : Instr) (between : List (List Instr)),
    s.Inv → s.cdc = .exact → i = .init p ∨ (i = .rxflush p ∧ (s.port p).inited = true) → exec i s = .next t →
    between.length = (resetWrites i (s.port p)).length →
    (∀ l ∈ between, ∀ j ∈ l, sourceOf j = some (.rx p) ∨ sourceOf j = some (.tx p)) →
    microRun (.issue i :: between.flatMap fun l => .fg :: l.map .other)
      { base := s, fg := .idle, masked := [.rx p, .tx p], wordAtomic := true } =
      .next { base := t, fg := .idle, masked := [.rx p, .tx p], wordAtomic := true }

/-- An interrupt-side operation between the writes of an unmasked reset changes nothing and `ResetRace` is recorded
(R186, R163). -/
def Obligations.UnmaskedResetRaceIsRecorded : Prop :=
  ∀ (m : Micro) (p : PortId) (i j : Instr) (done : Nat),
    m.base.cdc = .exact → m.fg = .reset i done → 0 < done → (m.base.port p).inited = true → m.masked = [] →
    (i = .rxflush p ∧ (∃ d, j = .rxpush p d)) ∨
      (i = .init p ∧ ((∃ d, j = .rxpush p d) ∨ (∃ d, j = .rxerr p d) ∨
        (j = .txdrain p ∧ (m.base.port p).txIe = true ∧ (m.base.port p).hwTxReady = true))) →
    ∃ l, recorded (.resetRace p) m.base.faulted l ∧
      microStep (.other j) m =
        .next { m with base := { m.base with faulted := l, resp := .faulted (.resetRace p) } }

/-- Updates of `count` and `errcnt` that are not indivisible (R185, R187, R163): an access of another agent between the
read and the write is recorded as `TornCount` and changes nothing; where they are indivisible, as this spec assumes
(R47), no micro-step records it. -/
def Obligations.TornUpdatesAreRecorded : Prop :=
  (∀ (m : Micro) (p : PortId) (j : Instr),
    m.base.cdc = .exact → (m.base.port p).inited = true → m.masked = [] →
    ((∃ b c, m.fg = .getchWrite p b c) ∧ (∃ d, j = .rxpush p d)) ∨
      ((∃ d c, m.fg = .putchWrite p d c) ∧ j = .txdrain p ∧ (m.base.port p).txIe = true ∧
        (m.base.port p).hwTxReady = true) ∨
      ((∃ v, m.fg = .errclrWrite p v) ∧
        ((∃ d, j = .rxerr p d) ∨
          ((∃ d, j = .rxpush p d) ∧ (m.base.port p).rx.viewp = (m.base.port p).rx.N))) →
    ∃ l, recorded (.tornCount p) m.base.faulted l ∧
      microStep (.other j) m =
        .next { m with base := { m.base with faulted := l, resp := .faulted (.tornCount p) } }) ∧
  (∀ (es : List MicroEvent) (s : State) (m : Micro) (p : PortId),
    microRun es { base := s, fg := .idle, masked := [], wordAtomic := true } = .next m →
    .tornCount p ∈ m.base.faulted → .tornCount p ∈ s.faulted)
end

