-- ==== Sys2Proof/Laws/State.lean ====
section
/-! SUPPORT. One lemma per field per update of the state, each true by rfl or by the two ports. -/

namespace Sys2Proof.Machine

variable (s : State) (p q : PortId) (P Q : Port) (r : Response) (f : ModelFault)

@[simp] theorem port_p0 : s.port .p0 = s.port0 := rfl
@[simp] theorem port_p1 : s.port .p1 = s.port1 := rfl

@[simp] theorem setPort_port_same : (s.setPort p P).port p = P := by cases p <;> rfl
theorem setPort_port_other (h : q ≠ p) : (s.setPort p P).port q = s.port q := by
  cases p <;> cases q <;> first | rfl | exact absurd rfl h
@[simp] theorem setPort_cdc : (s.setPort p P).cdc = s.cdc := by cases p <;> rfl
@[simp] theorem setPort_faulted : (s.setPort p P).faulted = s.faulted := by cases p <;> rfl
@[simp] theorem setPort_held : (s.setPort p P).held = s.held := by cases p <;> rfl
@[simp] theorem setPort_resp : (s.setPort p P).resp = s.resp := by cases p <;> rfl
@[simp] theorem setPort_offers : (s.setPort p P).offers = s.offers := by cases p <;> rfl
@[simp] theorem setPort_turns : (s.setPort p P).turns = s.turns := by cases p <;> rfl
@[simp] theorem setPort_setPort : (s.setPort p P).setPort p Q = s.setPort p Q := by cases p <;> rfl
@[simp] theorem setPort_self : s.setPort p (s.port p) = s := by cases p <;> rfl

@[simp] theorem respond_port : (s.respond r).port p = s.port p := by cases p <;> rfl
@[simp] theorem respond_cdc : (s.respond r).cdc = s.cdc := rfl
@[simp] theorem respond_faulted : (s.respond r).faulted = s.faulted := rfl
@[simp] theorem respond_held : (s.respond r).held = s.held := rfl
@[simp] theorem respond_resp : (s.respond r).resp = r := rfl
@[simp] theorem respond_offers : (s.respond r).offers = s.offers := rfl
@[simp] theorem respond_turns : (s.respond r).turns = s.turns := rfl

@[simp] theorem raiseFault_port : (s.raiseFault f).port p = s.port p := by cases p <;> rfl
@[simp] theorem raiseFault_cdc : (s.raiseFault f).cdc = s.cdc := rfl
@[simp] theorem raiseFault_faulted : (s.raiseFault f).faulted = addFault f s.faulted := rfl
@[simp] theorem raiseFault_held : (s.raiseFault f).held = s.held := rfl
@[simp] theorem raiseFault_resp : (s.raiseFault f).resp = .faulted f := rfl
@[simp] theorem raiseFault_offers : (s.raiseFault f).offers = s.offers := rfl
@[simp] theorem raiseFault_turns : (s.raiseFault f).turns = s.turns := rfl

@[simp] theorem lagged_port : s.lagged.port p = s.port p := by cases p <;> rfl
@[simp] theorem lagged_cdc : s.lagged.cdc = .lagged := rfl

@[simp] theorem dropOffer_port (a : Agent) : (s.dropOffer a).port p = s.port p := by cases p <;> rfl
@[simp] theorem dropOffer_cdc (a : Agent) : (s.dropOffer a).cdc = s.cdc := rfl
@[simp] theorem dropOffer_faulted (a : Agent) : (s.dropOffer a).faulted = s.faulted := rfl
@[simp] theorem dropOffer_held (a : Agent) : (s.dropOffer a).held = s.held := rfl
@[simp] theorem dropOffer_turns (a : Agent) : (s.dropOffer a).turns = s.turns := rfl

@[simp] theorem load_port (ts : List Agent) (os : List Offer) : (s.load ts os).port p = s.port p := by cases p <;> rfl
@[simp] theorem load_cdc (ts : List Agent) (os : List Offer) : (s.load ts os).cdc = s.cdc := rfl
@[simp] theorem load_faulted (ts : List Agent) (os : List Offer) : (s.load ts os).faulted = s.faulted := rfl
@[simp] theorem load_held (ts : List Agent) (os : List Offer) : (s.load ts os).held = s.held := rfl
@[simp] theorem load_resp (ts : List Agent) (os : List Offer) : (s.load ts os).resp = s.resp := rfl
@[simp] theorem load_turns (ts : List Agent) (os : List Offer) : (s.load ts os).turns = s.turns ++ ts := rfl
@[simp] theorem load_offers (ts : List Agent) (os : List Offer) : (s.load ts os).offers = s.offers ++ os := rfl

/-- A fault that is added is a member, and every old member stays (R32). -/
theorem mem_addFault (g : ModelFault) (l : List ModelFault) : g ∈ addFault f l ↔ g = f ∨ g ∈ l := by
  unfold addFault
  split
  · constructor
    · exact .inr
    · rintro (rfl | h)
      · assumption
      · exact h
  · simp [or_comm]

/-- A set of faults stays a list without repeats. -/
theorem addFault_nodup (l : List ModelFault) (h : l.Nodup) : (addFault f l).Nodup := by
  unfold addFault
  split
  · exact h
  · exact List.nodup_append.2 ⟨h, by simp, by simpa using fun a ha e => by subst e; contradiction⟩

/-- Every state is its own ports; two states with the same fields are the same. -/
theorem State.ext_fields {s t : State} (hc : s.cdc = t.cdc) (hp : ∀ p, s.port p = t.port p)
    (hf : s.faulted = t.faulted) (hh : s.held = t.held) (hr : s.resp = t.resp) (ho : s.offers = t.offers)
    (ht : s.turns = t.turns) : s = t := by
  have h0 := hp .p0
  have h1 := hp .p1
  cases s
  cases t
  simp_all

end Sys2Proof.Machine
end

