-- ==== Sys2Proof/Laws/Memory.lean ====
section
/-! SUPPORT. The storage: read after write, the canonical form and the slot bound are kept. -/

namespace Sys2Proof.Machine

/-- A read after a write: the written byte at its slot, and every other slot as before (R42). -/
theorem read_write (m : Memory) (i j : Nat) (v : Byte) :
    (m.write i v).read j = if j = i then some v else m.read j := by
  induction m with
  | nil => simp [Memory.write, Memory.read, eq_comm]
  | cons c m ih =>
    obtain ⟨a, u⟩ := c
    simp only [Memory.write]
    split
    · simp [Memory.read, eq_comm]
    · split
      · rename_i h
        subst h
        by_cases h : a = j
        · simp [Memory.read, h]
        · simp [Memory.read, h, Ne.symm h]
      · rename_i h
        by_cases hj : a = j
        · subst hj
          simp [Memory.read, h]
        · simp [Memory.read, ih, hj]

/-- Every entry of a written storage is the written one or an old one. -/
theorem mem_write {m : Memory} {i : Nat} {v : Byte} {c : Host.Cell} (h : c ∈ m.write i v) : c = (i, v) ∨ c ∈ m := by
  induction m with
  | nil => simpa [Memory.write] using h
  | cons a m ih =>
    obtain ⟨a, u⟩ := a
    simp only [Memory.write] at h
    split at h
    · simpa using h
    · split at h
      · rcases List.mem_cons.1 h with h | h
        · exact .inl h
        · exact .inr (List.mem_cons_of_mem _ h)
      · rcases List.mem_cons.1 h with h | h
        · exact .inr (by simp [h])
        · exact (ih h).imp_right (List.mem_cons_of_mem _)

/-- A write keeps the canonical form. -/
theorem write_wf {m : Memory} (h : m.wf) (i : Nat) (v : Byte) : (m.write i v).wf := by
  induction m with
  | nil => simp [Memory.write, Memory.wf]
  | cons c m ih =>
    obtain ⟨a, u⟩ := c
    obtain ⟨hlt, hm⟩ := List.pairwise_cons.1 h
    simp only [Memory.write]
    split
    · rename_i hi
      refine List.pairwise_cons.2 ⟨fun y hy => ?_, h⟩
      rcases List.mem_cons.1 hy with rfl | hy
      · exact hi
      · exact lt_trans hi (hlt y hy)
    · split
      · subst_vars
        exact List.pairwise_cons.2 ⟨hlt, hm⟩
      · refine List.pairwise_cons.2 ⟨fun y hy => ?_, ih hm⟩
        rcases mem_write hy with rfl | hy
        · simp only
          omega
        · exact hlt y hy

/-- A write inside the ring keeps the storage inside the ring. -/
theorem write_within {m : Memory} {n i : Nat} (h : m.within n) (hi : i < n) (v : Byte) : (m.write i v).within n := by
  intro c hc
  rcases mem_write hc with rfl | hc
  · exact hi
  · exact h c hc

/-- The storage of a ring at power-on is in canonical form, whatever its capacity. -/
theorem powerOn_wf (n : Nat) : (Ring.powerOn n).storage.wf := List.Pairwise.nil

/-- The storages of the machine right after reset are in canonical form. -/
theorem reset_wf (p : PortId) : (State.reset.port p).rx.storage.wf := by
  cases p <;> exact List.Pairwise.nil

end Sys2Proof.Machine
end

