-- ==== Sys2Proof/Laws/Ops.lean ====
section
/-! SUPPORT. What each shared operation can do, said once: ring push, pop and reset, and how an operation ends. -/

namespace Sys2Proof.Machine

variable {p : PortId} {P : Port} {r : Response} {s t : State} {c : CdcMode} {R : Ring} {d : Byte}

@[simp] theorem token_exact (n : Nat) : token .exact n = n := rfl
@[simp] theorem token_lagged (n : Nat) : token .lagged n = n + 1 := rfl

@[simp] theorem push_N : (R.push c d).N = R.N := rfl
@[simp] theorem push_storage : (R.push c d).storage = R.storage.write R.tail d := rfl
@[simp] theorem push_head : (R.push c d).head = R.head := rfl
@[simp] theorem push_tail : (R.push c d).tail = (R.tail + 1) % R.N := rfl
@[simp] theorem push_count : (R.push c d).count = R.count + 1 := rfl
@[simp] theorem push_pendPush : (R.push c d).pendPush = token c R.pendPush := rfl
@[simp] theorem push_pendPop : (R.push c d).pendPop = R.pendPop := rfl

@[simp] theorem dropHead_N : (R.dropHead c).N = R.N := rfl
@[simp] theorem dropHead_storage : (R.dropHead c).storage = R.storage := rfl
@[simp] theorem dropHead_head : (R.dropHead c).head = (R.head + 1) % R.N := rfl
@[simp] theorem dropHead_tail : (R.dropHead c).tail = R.tail := rfl
@[simp] theorem dropHead_count : (R.dropHead c).count = R.count - 1 := rfl
@[simp] theorem dropHead_pendPush : (R.dropHead c).pendPush = R.pendPush := rfl
@[simp] theorem dropHead_pendPop : (R.dropHead c).pendPop = token c R.pendPop := rfl

@[simp] theorem clear_N : R.clear.N = R.N := rfl
@[simp] theorem clear_storage : R.clear.storage = R.storage := rfl
@[simp] theorem clear_head : R.clear.head = 0 := rfl
@[simp] theorem clear_tail : R.clear.tail = 0 := rfl
@[simp] theorem clear_count : R.clear.count = 0 := rfl
@[simp] theorem clear_pendPush : R.clear.pendPush = 0 := rfl
@[simp] theorem clear_pendPop : R.clear.pendPop = 0 := rfl
@[simp] theorem clear_clear : R.clear.clear = R.clear := rfl

/-- A pop succeeds exactly where the slot at `head` holds a value. -/
theorem pop_eq_some {b : Byte} {R' : Ring} :
    R.pop c = some (b, R') ↔ R.storage.read R.head = some b ∧ R' = R.dropHead c := by
  unfold Ring.pop
  cases R.storage.read R.head <;> simp [eq_comm]

theorem pop_eq_none : R.pop c = none ↔ R.storage.read R.head = none := by
  unfold Ring.pop
  split <;> simp_all

/-- The saturating increment as a number (R22). -/
theorem satSucc_toNat (e : Count) : (satSucc e).toNat = min (e.toNat + 1) (2 ^ 32 - 1) := by
  simp only [satSucc, satW, BitVec.toNat_ofNat]
  omega

/-- Below the maximum the counter rises by one, and at the maximum it stays (R22). -/
theorem satSucc_of_lt {e : Count} (h : e.toNat < 2 ^ 32 - 1) : (satSucc e).toNat = e.toNat + 1 := by
  rw [satSucc_toNat]
  omega

theorem satSucc_of_max {e : Count} (h : e.toNat = 2 ^ 32 - 1) : satSucc e = e := by
  apply BitVec.eq_of_toNat_eq
  rw [satSucc_toNat]
  omega

/-- The view of the counter as a number (R23). -/
theorem errview_toNat : P.errview.toNat = P.errcnt.toNat - P.pendErr := by
  have := P.errcnt.isLt
  simp only [Port.errview, BitVec.toNat_ofNat]
  omega

theorem complete_next : complete p P r s = .next t ↔ t = (s.setPort p P).respond r := by
  simp [complete, eq_comm]

theorem answer_next : answer r s = .next t ↔ t = s.respond r := by
  simp [answer, eq_comm]

theorem faultWith_next {f : ModelFault} : faultWith f s = .next t ↔ t = s.raiseFault f := by
  simp [faultWith, eq_comm]

theorem hold_next {i : Instr} : hold i s = .next t ↔ t = { s with held := some i, resp := .held } := by
  simp [hold, eq_comm]

/-- On an initialised port an operation is its body (R121). -/
theorem whenInited_of_inited {k : Port → Result} (h : (s.port p).inited = true) :
    whenInited p s k = k (s.port p) := by
  simp [whenInited, h]

/-- On a port not yet initialised an operation records `NotInitialised` and changes nothing (R121). -/
theorem whenInited_of_not {k : Port → Result} (h : (s.port p).inited = false) :
    whenInited p s k = .next (s.raiseFault (.notInitialised p)) := by
  simp [whenInited, h, faultWith]

end Sys2Proof.Machine
end

