-- ==== Sys2Proof/Laws/Exec.lean ====
section
/-! SUPPORT. What an operation can do, said once: `exec_next`. Later proofs cite it instead of unfolding the
meanings. -/

namespace Sys2Proof.Machine

/-- The three ways an operation that answers a next state can end: it makes its own port some `P` and answers `r`
(an answer that changes nothing makes the port what it was); it records a model fault; it holds. -/
def Ends (i : Instr) (s t : State) : Prop :=
  (∃ P r, t = (s.setPort i.port P).respond r) ∨ (∃ f, t = s.raiseFault f) ∨
    t = { s with held := some i, resp := .held }

variable {i : Instr} {p : PortId} {s t : State}

theorem ends_complete {P : Port} {r : Response} (hp : i.port = p) (h : complete p P r s = .next t) : Ends i s t :=
  .inl ⟨P, r, by rw [hp]; exact complete_next.1 h⟩

theorem ends_answer {r : Response} (h : answer r s = .next t) : Ends i s t :=
  .inl ⟨s.port i.port, r, by rw [setPort_self]; exact answer_next.1 h⟩

theorem ends_fault {f : ModelFault} (h : faultWith f s = .next t) : Ends i s t :=
  .inr (.inl ⟨f, faultWith_next.1 h⟩)

theorem ends_hold (h : hold i s = .next t) : Ends i s t := .inr (.inr (hold_next.1 h))

theorem ends_whenInited {k : Port → Result} (h : whenInited p s k = .next t)
    (hk : k (s.port p) = .next t → Ends i s t) : Ends i s t := by
  unfold whenInited at h
  split at h
  · exact hk h
  · exact ends_fault h

/-- What an operation that answers a next state can have done. -/
theorem exec_next (h : exec i s = .next t) : Ends i s t := by
  cases i with
  | init p => exact ends_complete rfl h
  | rxpush p d =>
    rw [exec, execRxpush] at h
    refine ends_whenInited h fun h => ?_
    split at h <;> exact ends_complete rfl h
  | rxerr p d =>
    rw [exec, execRxerr] at h
    exact ends_whenInited h fun h => ends_complete rfl h
  | rxavail p =>
    rw [exec, execRxavail] at h
    exact ends_whenInited h fun h => ends_answer h
  | getch p =>
    rw [exec, execGetch] at h
    refine ends_whenInited h fun h => ?_
    split at h
    · split at h
      · exact ends_complete rfl h
      · cases h
    · split at h
      · exact ends_hold h
      · exact ends_fault h
  | rxflush p =>
    rw [exec, execRxflush] at h
    exact ends_whenInited h fun h => ends_complete rfl h
  | putch p d =>
    rw [exec, execPutch] at h
    refine ends_whenInited h fun h => ?_
    split at h <;> split at h <;> first | exact ends_hold h | exact ends_complete rfl h
  | txdrain p =>
    rw [exec, execTxdrain] at h
    refine ends_whenInited h fun h => ?_
    split at h
    · exact ends_answer h
    · split at h
      · split at h
        · split at h
          · exact ends_complete rfl h
          · cases h
        · exact ends_complete rfl h
      · exact ends_answer h
  | txrdy p =>
    rw [exec, execTxrdy] at h
    exact ends_whenInited h fun h => ends_answer h
  | errq p =>
    rw [exec, execErrq] at h
    exact ends_whenInited h fun h => ends_answer h
  | errclr p =>
    rw [exec, execErrclr] at h
    exact ends_whenInited h fun h => ends_complete rfl h
  | syncRxpush p =>
    rw [exec, execSyncRxpush] at h
    refine ends_whenInited h fun h => ?_
    split at h <;> first | exact ends_complete rfl h | exact ends_answer h
  | syncRxpop p =>
    rw [exec, execSyncRxpop] at h
    refine ends_whenInited h fun h => ?_
    split at h <;> first | exact ends_complete rfl h | exact ends_answer h
  | syncTxpush p =>
    rw [exec, execSyncTxpush] at h
    refine ends_whenInited h fun h => ?_
    split at h
    · split at h <;> first | exact ends_complete rfl h | exact ends_answer h
    · exact ends_answer h
  | syncTxpop p =>
    rw [exec, execSyncTxpop] at h
    refine ends_whenInited h fun h => ?_
    split at h
    · split at h <;> first | exact ends_complete rfl h | exact ends_answer h
    · exact ends_answer h
  | syncErr p =>
    rw [exec, execSyncErr] at h
    refine ends_whenInited h fun h => ?_
    split at h <;> first | exact ends_complete rfl h | exact ends_answer h
  | txdone p =>
    rw [exec, execTxdone] at h
    refine ends_whenInited h fun h => ?_
    split at h <;> first | exact ends_complete rfl h | exact ends_answer h

/-- No operation is refused. -/
theorem exec_not_refused (i : Instr) (s : State) (r : Refusal) : exec i s ≠ .refused r := by
  intro h
  cases i <;>
    simp only [exec, execInit, execRxpush, execRxerr, execRxavail, execGetch, execRxflush, execPutch, execTxdrain,
      execTxrdy, execErrq, execErrclr, execSyncRxpush, execSyncRxpop, execSyncTxpush, execSyncTxpop, execSyncErr,
      execTxdone, whenInited, complete, answer, hold, faultWith] at h <;>
    (repeat' split at h) <;> cases h

/-- A step with a turn to take is that agent's turn. -/
theorem step_turn {a : Agent} {rest : List Agent} (h : s.turns = a :: rest) :
    step s = takeTurn a { s with turns := rest } := by
  simp [step, h]

/-- Without a turn to take a step changes nothing. -/
theorem step_idle (h : s.turns = []) : step s = .next s := by
  simp [step, h]

@[simp] theorem taken_port (a : Agent) (q : PortId) : (s.taken a).port q = s.port q := by
  unfold State.taken
  split <;> cases q <;> rfl

@[simp] theorem taken_cdc (a : Agent) : (s.taken a).cdc = s.cdc := by
  unfold State.taken
  split <;> rfl

@[simp] theorem rejectPort_port (q : PortId) : (rejectPort i s).port q = s.port q := by
  cases i <;> simp only [rejectPort] <;> first | exact raiseFault_port .. | (split <;> simp)

/-- What the next step does where an agent has a turn, by what that agent issues. -/
theorem step_perform {a : Agent} {rest : List Agent} (h : s.turns = a :: rest) :
    step s = perform (s.issue a) (State.taken a { s with turns := rest }) := step_turn h

/-- A step that performs an operation is that operation, in a state with the same ports and `CDC_MODE`. -/
theorem step_currentOp (h : s.currentOp = some i) :
    ∃ u, step s = exec i u ∧ (∀ q, u.port q = s.port q) ∧ u.cdc = s.cdc := by
  unfold State.currentOp at h
  split at h
  · cases h
  · rename_i a rest ht
    split at h <;> cases h
    rename_i hi
    exact ⟨State.taken a { s with turns := rest }, by rw [step_perform ht, hi, perform], fun q => by cases q <;> exact taken_port a _, taken_cdc a⟩

/-- A step that performs no operation leaves the ports as they are. -/
theorem step_noOp_port (h : s.currentOp = none) (hs : step s = .next t) (q : PortId) : t.port q = s.port q := by
  unfold State.currentOp at h
  split at h
  · rename_i ht
    rw [step_idle ht] at hs
    cases hs; rfl
  · rename_i a rest ht
    have hq : (State.taken a { s with turns := rest }).port q = s.port q := by cases q <;> exact taken_port a _
    rw [step_perform ht] at hs
    split at h <;> rename_i hi <;> rw [hi] at hs
    · cases h
    · rw [answer_next.1 hs, respond_port, hq]
    · rw [faultWith_next.1 hs, raiseFault_port, hq]
    · cases hs; rw [rejectPort_port, hq]

end Sys2Proof.Machine
end

