-- ==== Sys2Proof/Laws/Ring.lean ====
section
/-! SUPPORT. The ring operations keep the ring invariant (R17, R19), and what each makes of the contents. -/

namespace Sys2Proof.Machine

variable {c : CdcMode} {R : Ring} {d b : Byte}

/-- Different offsets below the capacity are different slots. -/
theorem slot_inj {h n i j : Nat} (hi : i < n) (hj : j < n) (e : (h + i) % n = (h + j) % n) : i = j := by
  have : i ≡ j [MOD n] := Nat.ModEq.add_left_cancel' h e
  simpa [Nat.ModEq, Nat.mod_eq_of_lt hi, Nat.mod_eq_of_lt hj] using this

theorem slot_lt (hR : R.Base) (k : Nat) : R.slot k < R.N := Nat.mod_lt _ hR.capacity

/-- In a ring that is not full the slot at `tail` is the one after the occupied ones. -/
theorem Ring.Inv.slot_count (hR : R.Inv c) : R.slot R.count = R.tail := hR.cursors

theorem Ring.Inv.tail_free (hR : R.Inv c) (hlt : R.count < R.N) {k : Nat} (hk : k < R.count) : R.slot k ≠ R.tail := by
  rw [← hR.slot_count]
  intro e
  have := slot_inj (by omega : k < R.N) hlt e
  omega

/-- The occupied slots after a push are the old ones and the one written. -/
theorem push_slot (k : Nat) : (R.push c d).slot k = R.slot k := rfl

/-- The producer's and the consumer's tests as statements (R25). -/
theorem full_true : R.full = true ↔ R.viewp = R.N := decide_eq_true_iff
theorem full_false : R.full = false ↔ R.viewp ≠ R.N := decide_eq_false_iff_not
theorem avail_true : R.avail = true ↔ 0 < R.viewc := decide_eq_true_iff
theorem avail_false : R.avail = false ↔ R.viewc = 0 := by
  rw [Ring.avail, decide_eq_false_iff_not, Nat.not_lt, Nat.le_zero]

/-- What the producer's test says of the true occupancy (R42, R56). -/
theorem Ring.Inv.count_lt (hR : R.Inv c) (hf : R.full = false) : R.viewp < R.N ∧ R.count < R.N := by
  have := hR.viewp_le
  have := full_false.1 hf
  have hv : R.viewp = R.count + R.pendPop := rfl
  omega

/-- What the consumer's test says of the true occupancy (R41, R56). -/
theorem count_pos (ha : R.avail = true) : 0 < R.count := by
  have := avail_true.1 ha
  have hv : R.viewc = R.count - R.pendPush := rfl
  omega

/-- An accepted push keeps the ring invariant. -/
theorem push_inv (hR : R.Inv c) (hf : R.full = false) : (R.push c d).Inv c := by
  obtain ⟨hv, hlt⟩ := hR.count_lt hf
  have hN := hR.capacity
  refine ⟨⟨hN, write_wf hR.canonical _ _, write_within hR.bounded hR.tail_lt _⟩, hR.head_lt, Nat.mod_lt _ hN, hlt, ?_, ?_,
    ?_, ?_, ?_⟩
  · rw [push_head, push_count, push_N, push_tail, ← hR.cursors, Nat.mod_add_mod, Nat.add_assoc]
  · intro k hk
    rw [push_slot, push_storage, read_write]
    split
    · rfl
    · rename_i hne
      refine hR.occupied k ?_
      rcases Nat.lt_or_ge k R.count with h | h
      · exact h
      · rw [push_count] at hk
        obtain rfl : k = R.count := by omega
        exact absurd hR.slot_count hne
  · have := hR.pendPush_le
    cases c <;> simp <;> omega
  · simp only [Ring.viewp, push_count, push_pendPop, push_N] at *
    omega
  · intro hc
    simpa [hc] using hR.exact_tokens hc

/-- A pop keeps the ring invariant. -/
theorem dropHead_inv (hR : R.Inv c) (ha : R.avail = true) : (R.dropHead c).Inv c := by
  have hpos := count_pos ha
  have hN := hR.capacity
  have hcount := hR.count_le
  refine ⟨⟨hN, hR.canonical, hR.bounded⟩, Nat.mod_lt _ hN, hR.tail_lt, ?_, ?_, ?_, ?_, ?_, ?_⟩
  · rw [dropHead_count, dropHead_N]; omega
  · rw [dropHead_head, dropHead_count, dropHead_N, dropHead_tail, ← hR.cursors, Nat.mod_add_mod]
    congr 1; omega
  · intro k hk
    have e : (R.dropHead c).slot k = R.slot (k + 1) := by
      simp only [Ring.slot, dropHead_head, dropHead_N, Nat.mod_add_mod]
      congr 1; omega
    rw [e, dropHead_storage]
    exact hR.occupied _ (by rw [dropHead_count] at hk; omega)
  · have := hR.pendPush_le
    have := avail_true.1 ha
    have hv : R.viewc = R.count - R.pendPush := rfl
    rw [dropHead_pendPush, dropHead_count]
    omega
  · have := hR.viewp_le
    simp only [Ring.viewp, dropHead_count, dropHead_pendPop, dropHead_N] at *
    cases c <;> simp <;> omega
  · intro hc
    simpa [hc] using hR.exact_tokens hc

/-- A reset ring meets the ring invariant, whatever it held (R33). -/
theorem clear_inv (hR : R.Base) : R.clear.Inv c :=
  ⟨⟨hR.capacity, hR.canonical, hR.bounded⟩, hR.capacity, hR.capacity, Nat.zero_le _, Nat.zero_mod _,
    fun _ h => absurd h (Nat.not_lt_zero _), Nat.le_refl _, Nat.zero_le _, fun _ => ⟨rfl, rfl⟩⟩

/-- Delivering a token keeps the ring invariant. -/
theorem deliverPush_inv (hR : R.Inv c) : R.deliverPush.Inv c :=
  { hR with
    pendPush_le := Nat.le_trans (Nat.sub_le _ _) hR.pendPush_le
    exact_tokens := fun hc => by simp [Ring.deliverPush, hR.exact_tokens hc] }

theorem deliverPop_inv (hR : R.Inv c) : R.deliverPop.Inv c :=
  { hR with
    viewp_le := Nat.le_trans (Nat.add_le_add_left (Nat.sub_le _ _) _) hR.viewp_le
    exact_tokens := fun hc => by simp [Ring.deliverPop, hR.exact_tokens hc] }

/-- The oldest byte can be read whenever the consumer sees one (R41, R50). -/
theorem Ring.Inv.pop_some (hR : R.Inv c) (ha : R.avail = true) : ∃ b, R.pop c = some (b, R.dropHead c) := by
  obtain ⟨b, hb⟩ := Option.isSome_iff_exists.1 (hR.occupied 0 (count_pos ha))
  refine ⟨b, pop_eq_some.2 ⟨?_, rfl⟩⟩
  rwa [Ring.slot, Nat.add_zero, Nat.mod_eq_of_lt hR.head_lt] at hb

/-- A push appends its byte to the contents (R88). -/
theorem contents_push (hR : R.Inv c) (hf : R.full = false) : (R.push c d).contents = R.contents ++ [d] := by
  obtain ⟨-, hlt⟩ := hR.count_lt hf
  unfold Ring.contents
  rw [push_count, List.range_succ, List.filterMap_append]
  congr 1
  · refine List.filterMap_congr fun k hk => ?_
    rw [push_slot, push_storage, read_write, if_neg (hR.tail_free hlt (List.mem_range.1 hk))]
  · simp [push_slot, read_write, hR.slot_count]

/-- A pop takes the oldest byte off the contents (R88). -/
theorem contents_pop {R' : Ring} (hR : R.Inv c) (ha : R.avail = true) (h : R.pop c = some (b, R')) :
    R.contents = b :: R'.contents := by
  obtain ⟨hb, rfl⟩ := pop_eq_some.1 h
  obtain ⟨n, hn⟩ : ∃ n, R.count = n + 1 := ⟨R.count - 1, by have := count_pos ha; omega⟩
  have h0 : R.slot 0 = R.head := by rw [Ring.slot, Nat.add_zero, Nat.mod_eq_of_lt hR.head_lt]
  unfold Ring.contents
  rw [hn, List.range_succ_eq_map, List.filterMap_cons, h0, hb, dropHead_count, hn, Nat.add_sub_cancel,
    List.filterMap_map]
  refine congrArg _ (List.filterMap_congr fun k _ => ?_)
  simp only [Function.comp_apply, dropHead_storage, Ring.slot, dropHead_head, dropHead_N, Nat.mod_add_mod]
  congr 2; omega

@[simp] theorem contents_clear : R.clear.contents = [] := rfl
@[simp] theorem contents_deliverPush : R.deliverPush.contents = R.contents := rfl
@[simp] theorem contents_deliverPop : R.deliverPop.contents = R.contents := rfl

end Sys2Proof.Machine
end

