-- ==== Sys2Proof/Laws/Check.lean ====
section
/-! SUPPORT. Boolean checks that imply the invariants, so that a concrete state is shown to meet them by evaluation. -/

namespace Sys2Proof.Machine

/-- The ring invariant as a check. -/
def ringCheck (c : CdcMode) (r : Ring) : Bool :=
  decide (0 < r.N ∧ r.storage.wf ∧ r.storage.within r.N ∧ r.head < r.N ∧ r.tail < r.N ∧ r.count ≤ r.N ∧
    (r.head + r.count) % r.N = r.tail ∧ (∀ k, k < r.count → (r.storage.read (r.slot k)).isSome = true) ∧
    r.pendPush ≤ r.count ∧ r.viewp ≤ r.N ∧ (c = .exact → r.pendPush = 0 ∧ r.pendPop = 0))

theorem ringCheck_inv {c : CdcMode} {r : Ring} (h : ringCheck c r = true) : r.Inv c := by
  obtain ⟨h1, h2, h3, h4, h5, h6, h7, h8, h9, h10, h11⟩ := of_decide_eq_true h
  exact ⟨⟨h1, h2, h3⟩, h4, h5, h6, h7, h8, h9, h10, h11⟩

/-- The port invariant as a check, stronger than the invariant on a port not yet initialised. -/
def portCheck (c : CdcMode) (P : Port) : Bool :=
  ringCheck c P.rx && decide (P.pendErr ≤ P.errcnt.toNat ∧ (c = .exact → P.pendErr = 0)) &&
    (match P.tx with
      | .queued t ie => ringCheck c t && decide (0 < t.viewc → ie = true)
      | .direct => true)

theorem portCheck_inv {c : CdcMode} {P : Port} (h : portCheck c P = true) : P.Inv c := by
  unfold portCheck at h
  simp only [Bool.and_eq_true, decide_eq_true_eq] at h
  obtain ⟨⟨hr, he, hx⟩, ht⟩ := h
  have hr := ringCheck_inv hr
  have htx : ∀ t ie, P.tx = .queued t ie → t.Inv c ∧ (0 < t.viewc → ie = true) := by
    intro t ie e
    simp only [e, Bool.and_eq_true, decide_eq_true_eq] at ht
    exact ⟨ringCheck_inv ht.1, ht.2⟩
  exact ⟨hr.toBase, fun t ie e => (htx t ie e).1.toBase, fun _ => hr, fun _ t ie e => (htx t ie e).1,
    fun _ t ie e => (htx t ie e).2, fun _ => he, fun _ => hx⟩

/-- The machine's invariant as a check, for a state in which `FG` is not held. -/
def stateCheck (s : State) : Bool :=
  portCheck s.cdc s.port0 && portCheck s.cdc s.port1 && decide (s.faulted.Nodup ∧ s.held = none)

theorem stateCheck_inv {s : State} (h : stateCheck s = true) : s.Inv := by
  unfold stateCheck at h
  simp only [Bool.and_eq_true, decide_eq_true_eq] at h
  obtain ⟨⟨h0, h1⟩, hf, hh⟩ := h
  refine ⟨fun p => ?_, hf, fun i e => by simp [hh] at e⟩
  cases p
  · exact portCheck_inv h0
  · exact portCheck_inv h1

end Sys2Proof.Machine
end

