-- ==== Sys2Proof/Laws/PerInstr.lean ====
section
/-! SUPPORT. Per-instruction laws of the encoding: in the word of every operation the reserved field is 0 and the
port bit names the operation's port (R60). -/

namespace Sys2Proof.Laws.EncodedFields

/-- The encoded word's reserved field is 0 and its port field is the operation's port (R60). -/
def Statement (i : Instr) : Prop := (encode i).z = 0 ∧ (encode i).p = i.port

theorem init : ∀ p, Statement (.init p) := by rintro (_ | _) <;> constructor <;> decide
theorem rxpush : ∀ p d, Statement (.rxpush p d) := by
  rintro (_ | _) <;> unfold Statement <;> decide
theorem rxerr : ∀ p d, Statement (.rxerr p d) := by
  rintro (_ | _) <;> unfold Statement <;> decide
theorem rxavail : ∀ p, Statement (.rxavail p) := by rintro (_ | _) <;> constructor <;> decide
theorem getch : ∀ p, Statement (.getch p) := by rintro (_ | _) <;> constructor <;> decide
theorem rxflush : ∀ p, Statement (.rxflush p) := by rintro (_ | _) <;> constructor <;> decide
theorem putch : ∀ p d, Statement (.putch p d) := by
  rintro (_ | _) <;> unfold Statement <;> decide
theorem txdrain : ∀ p, Statement (.txdrain p) := by rintro (_ | _) <;> constructor <;> decide
theorem txrdy : ∀ p, Statement (.txrdy p) := by rintro (_ | _) <;> constructor <;> decide
theorem errq : ∀ p, Statement (.errq p) := by rintro (_ | _) <;> constructor <;> decide
theorem errclr : ∀ p, Statement (.errclr p) := by rintro (_ | _) <;> constructor <;> decide
theorem syncRxpush : ∀ p, Statement (.syncRxpush p) := by rintro (_ | _) <;> constructor <;> decide
theorem syncRxpop : ∀ p, Statement (.syncRxpop p) := by rintro (_ | _) <;> constructor <;> decide
theorem syncTxpush : ∀ p, Statement (.syncTxpush p) := by rintro (_ | _) <;> constructor <;> decide
theorem syncTxpop : ∀ p, Statement (.syncTxpop p) := by rintro (_ | _) <;> constructor <;> decide
theorem syncErr : ∀ p, Statement (.syncErr p) := by rintro (_ | _) <;> constructor <;> decide
theorem txdone : ∀ p, Statement (.txdone p) := by rintro (_ | _) <;> constructor <;> decide

end Sys2Proof.Laws.EncodedFields
end

