-- ==== Sys2Proof/Tests/Slice0.lean ====
section
/-! SUPPORT. Own tests: the checks of WellFormed.lean refuse ill-formed data; words written out bit by bit decode as
30_encoding.md and vector V1 say; single operations give the results of 95_test_vectors.md; and every obligation with
hypotheses has a state and operands that meet them all. Expected results are taken from spec/, not from the model. -/

namespace Sys2Proof.Tests

open Sys2Proof Sys2Proof.Machine

/-! ### Helpers -/

/-- The state after a list of operations from power-on. -/
def after (c : Config) (ops : List Instr) : State :=
  match runOps ops (State.powerOn c) with
  | .next s => s
  | .fault _ | .refused _ => State.powerOn c

/-- The next state of an operation, where it has one. -/
def next? : Result → Option State
  | .next s => some s
  | .fault _ | .refused _ => none

/-- What an operation makes of port 0, and its answer. -/
def see (i : Instr) (s : State) : Option (Port × Response) := (next? (exec i s)).map fun t => (t.port0, t.resp)

/-- The default of 95_test_vectors.md on port 0, a direct port 1, and the same under `LAGGED`. -/
def exactC : Config := Config.reference
def laggedC : Config := { Config.reference with cdc := .lagged }
/-- Port 0 polled, both rings of capacity 1; port 1 as before. -/
def polledC : Config := { Config.reference with port0 := { rxMode := .polled, nRx := 1, txMode := .queued 1 } }

abbrev bothUp : List Instr := [.init .p0, .init .p1]
/-- Both ports initialised, nothing buffered. -/
def up : State := after exactC bothUp
def upLagged : State := after laggedC bothUp
/-- Port 0 with A, B, C buffered (`tail` at the last slot). -/
def three : State := after exactC (bothUp ++ [.rxpush .p0 0x41, .rxpush .p0 0x42, .rxpush .p0 0x43])
/-- Port 0 with A, B, C, D buffered: full. -/
def four : State := after exactC (bothUp ++ [.rxpush .p0 0x41, .rxpush .p0 0x42, .rxpush .p0 0x43, .rxpush .p0 0x44])
/-- Port 0 with X, Y in its transmit ring: full; the interrupt is pending. -/
def txFull : State := after exactC (bothUp ++ [.putch .p0 0x58, .putch .p0 0x59])
/-- Port 0 armed with an empty transmit ring, the register free (P2 before its last line). -/
def txSpent : State := after exactC (bothUp ++ [.putch .p0 0x58, .txdrain .p0, .txdone .p0])
/-- Port 1, direct, with its register busy. -/
def busy : State := after exactC (bothUp ++ [.putch .p1 0x90])

/-! ### WellFormed: each check refuses an ill-formed term -/

theorem test_word_reserved_op_refused : Word.opDefined 0xD000 = false ∧ Word.opDefined 0xC000 = true := by decide
theorem test_word_reserved_bits_refused : Word.zClear 0x4200 = false ∧ Word.zClear 0x4800 = true := by decide
theorem test_word_stray_data_refused : Word.dataClear 0x3001 = false ∧ Word.dataClear 0x1041 = true := by decide
theorem test_word_reserved_channel_refused :
    Word.channelDefined 0xB005 = false ∧ Word.channelDefined 0xB004 = true := by decide
theorem test_word_ill_formed_refused : Word.wellFormed 0x0100 = false ∧ Word.wellFormed 0xC800 = true := by decide
theorem test_txMode_capacity_zero_refused : (TxMode.queued 0).wellFormed = false := by decide
theorem test_portConfig_capacity_zero_refused :
    (PortConfig.mk .polled 0 .direct).wellFormed = false ∧ (PortConfig.mk .polled 1 .direct).wellFormed = true := by
  decide
theorem test_config_capacity_zero_refused :
    ({ Config.reference with port1 := ⟨.polled, 1, .queued 0⟩ } : Config).wellFormed = false ∧
      Config.reference.wellFormed = true := by decide
theorem test_unterminated_string_refused : nullTerminated [0x48, 0x69] = false ∧ nullTerminated [0x48, 0] = true := by
  decide

/-! ### Decoding: words written out from the pattern column of R64 (op, p, z, d) -/

theorem test_decode_init : decode 0b0000_0_000_00000000 = .op (.init .p0) := by decide
theorem test_decode_rxpush : decode 0b0001_1_000_11111111 = .op (.rxpush .p1 0xFF) := by decide
theorem test_decode_rxerr : decode 0b0010_1_000_01111111 = .op (.rxerr .p1 0x7F) := by decide
theorem test_decode_rxavail : decode 0b0011_1_000_00000000 = .op (.rxavail .p1) := by decide
theorem test_decode_getch : decode 0b0100_0_000_00000000 = .op (.getch .p0) := by decide
theorem test_decode_rxflush : decode 0b0101_1_000_00000000 = .op (.rxflush .p1) := by decide
theorem test_decode_putch : decode 0b0110_0_000_01011000 = .op (.putch .p0 0x58) := by decide
theorem test_decode_txdrain : decode 0b0111_1_000_00000000 = .op (.txdrain .p1) := by decide
theorem test_decode_txrdy : decode 0b1000_0_000_00000000 = .op (.txrdy .p0) := by decide
theorem test_decode_errq : decode 0b1001_1_000_00000000 = .op (.errq .p1) := by decide
theorem test_decode_errclr : decode 0b1010_0_000_00000000 = .op (.errclr .p0) := by decide
theorem test_decode_syncRxpush : decode 0b1011_0_000_00000000 = .op (.syncRxpush .p0) := by decide
theorem test_decode_syncRxpop : decode 0b1011_0_000_00000001 = .op (.syncRxpop .p0) := by decide
theorem test_decode_syncTxpush : decode 0b1011_1_000_00000010 = .op (.syncTxpush .p1) := by decide
theorem test_decode_syncTxpop : decode 0b1011_0_000_00000011 = .op (.syncTxpop .p0) := by decide
theorem test_decode_syncErr : decode 0b1011_1_000_00000100 = .op (.syncErr .p1) := by decide
theorem test_decode_txdone : decode 0b1100_1_000_00000000 = .op (.txdone .p1) := by decide
/-- The invalid words of V1. -/
theorem test_decode_invalid :
    decode 0xFFFF = .invalid .reservedBits ∧ decode 0xD000 = .invalid .reservedOp ∧
    decode 0x1441 = .invalid .reservedBits ∧ decode 0x70FF = .invalid .strayData ∧
    decode 0xB005 = .invalid .reservedChannel ∧ decode 0xB0FF = .invalid .reservedChannel := by decide
theorem test_encode_putch : encode (.putch .p1 0x58) = 0x6858 := by decide
theorem test_decodeTableWord : decodeTableWord 16 0x1041 = some (.rxpush .p0 0x41) ∧ decodeTableWord 16 0xD000 = none := by
  decide
/-- R64: the rows are disjoint as mask and match. -/
theorem test_opTable_disjoint :
    opTable.Pairwise fun r r' => r.pattern &&& (r.mask &&& r'.mask) ≠ r'.pattern &&& (r.mask &&& r'.mask) := by decide

/-! ### Single operations -/

/-- R120's example: the state of port 0 after INIT 0, port 1 still uninitialised. -/
theorem test_init : (see (.init .p0) (State.powerOn exactC)).map (fun x => (x.1.hwTxReady, x.1.inited, x.2)) =
    some (true, true, .done) ∧ (after exactC [.init .p0]).port1.inited = false := by decide
/-- P4, line 2: an operation before INIT. -/
theorem test_use_before_init : (after exactC [.init .p0, .rxpush .p1 0x55]).faulted = [.notInitialised .p1] := by decide
/-- V2's wrap: the push at the last slot leaves `tail = 0` (P1, line 5). -/
theorem test_rxpush_wraps : (see (.rxpush .p0 0x44) three).map (fun x => (x.1.rx.tail, x.1.rx.count, x.1.rx.contents)) =
    some (0, 4, [0x41, 0x42, 0x43, 0x44]) := by decide
/-- P1, line 6: the fifth byte is dropped and counted. -/
theorem test_rxpush_drops_newest : (see (.rxpush .p0 0x45) four).map (fun x => (x.1.rx, x.1.errcnt)) =
    some (four.port0.rx, 1) := by decide
/-- V4: a faulted byte at a full ring counts once. -/
theorem test_rxerr_full_ring : (see (.rxerr .p0 0xFF) four).map (fun x => (x.1.rx, x.1.errcnt)) =
    some (four.port0.rx, 1) := by decide
/-- V4: the counter saturates. -/
theorem test_rxerr_saturates : satSucc 0xFFFFFFFF = 0xFFFFFFFF ∧ satSucc 0xFFFFFFFE = 0xFFFFFFFF := by decide
/-- R86's example, and V8, step 3: under `LAGGED` the push is not yet seen. -/
theorem test_rxavail : (see (.rxavail .p0) up).map (·.2) = some (.bit false) ∧
    (see (.rxavail .p0) three).map (·.2) = some (.bit true) := by decide
theorem test_rxavail_lagged :
    (see (.rxavail .p0) (after laggedC (bothUp ++ [.rxpush .p0 0x41]))).map (·.2) = some (.bit false) := by decide
/-- R84's example. -/
theorem test_getch : (see (.getch .p0) four).map (fun x => (x.2, x.1.rx.head, x.1.rx.count, x.1.rx.contents)) =
    some (.byte 0x41, 1, 3, [0x42, 0x43, 0x44]) := by decide
/-- V2, step 12: the fault of an empty pop. -/
theorem test_getch_empty : (next? (exec (.getch .p0) up)).map (fun t => (t.faulted, t.port0)) =
    some ([.emptyPop .p0], up.port0) := by decide
/-- V5: the flush moves the cursors and leaves the storage and the counter. -/
theorem test_rxflush : (see (.rxflush .p0) three).map (fun x => (x.1.rx.tail, x.1.rx.count, x.1.rx.storage)) =
    some (0, 0, [(0, 0x41), (1, 0x42), (2, 0x43)]) := by decide
/-- P2, lines 2 to 4: the third PUTCH holds. -/
theorem test_putch_queued : txFull.port0.tx.ie? = some true ∧ txFull.port0.txContents = [0x58, 0x59] ∧
    (next? (exec (.putch .p0 0x5A) txFull)).map (fun t => (t.held, t.port0)) =
      some (some (.putch .p0 0x5A), txFull.port0) := by decide
/-- P4, line 8, and V6: a direct PUTCH, then one that holds. -/
theorem test_putch_direct : busy.port1.wireOut = [0x90] ∧ busy.port1.hwTxReady = false ∧
    (next? (exec (.putch .p1 0x91) busy)).map (·.held) = some (some (.putch .p1 0x91)) := by decide
/-- P2, line 5. -/
theorem test_txdrain : (see (.txdrain .p0) txFull).map (fun x => (x.1.wireOut, x.1.hwTxReady, x.1.txContents)) =
    some ([0x58], false, [0x59]) := by decide
/-- P2, line 12: the empty firing switches the source off and does nothing else. -/
theorem test_txdrain_empty : txSpent.port0.txIe = true ∧
    (see (.txdrain .p0) txSpent).map (fun x => (x.1.txIe, x.1.wireOut, x.1.hwTxReady)) = some (false, [0x58], true) := by
  decide
/-- V6: TXDONE frees the register; a second one is not enabled. -/
theorem test_txdone : (next? (exec (.txdone .p1) busy)).map (fun t => t.port1.hwTxReady) = some true ∧
    (see (.txdone .p0) up).map (·.2) = some .notEnabled := by decide
/-- V10, step 8: the foreground's view lags after a drain. -/
theorem test_txrdy : (see (.txrdy .p0) txFull).map (·.2) = some (.bit false) ∧
    (see (.txrdy .p0) up).map (·.2) = some (.bit true) := by decide
/-- R69 and R108's example: "Hi". -/
theorem test_putstr : (expandPutstr .p0 [0x48, 0x69, 0, 0x21]).map encode = [0x6048, 0x6069] := by decide
/-- V8, steps 9 to 12: ERRQ before and after SYNC.ERR. -/
theorem test_errq_lagged :
    (see (.errq .p0) (after laggedC (bothUp ++ [.rxerr .p0 0]))).map (·.2) = some (.count 0) ∧
    (see (.errq .p0) (after laggedC (bothUp ++ [.rxerr .p0 0, .syncErr .p0]))).map (·.2) = some (.count 1) := by decide
/-- V9: ERRCLR leaves the undelivered event in the counter. -/
theorem test_errclr_lagged :
    (see (.errclr .p0) (after laggedC (bothUp ++ [.rxerr .p0 0, .rxerr .p0 0, .syncErr .p0]))).map
      (fun x => (x.2, x.1.errcnt, x.1.pendErr)) = some (.count 1, 1, 1) := by decide
/-- V8, step 4. -/
theorem test_syncRxpush :
    (see (.syncRxpush .p0) (after laggedC (bothUp ++ [.rxpush .p0 0x41]))).map (·.1.rx.pendPush) = some 0 := by decide
/-- V8, steps 8 to 13: a stale view of a pop, and its delivery. -/
theorem test_syncRxpop :
    (see (.syncRxpop .p0) (after laggedC (bothUp ++ [.rxpush .p0 0x41, .syncRxpush .p0, .getch .p0]))).map
      (·.1.rx.pendPop) = some 0 := by decide
/-- V10, steps 2 to 4: the token re-arms the interrupt. -/
theorem test_syncTxpush :
    (after laggedC (bothUp ++ [.putch .p0 0x58])).port0.txIe = false ∧
    (see (.syncTxpush .p0) (after laggedC (bothUp ++ [.putch .p0 0x58]))).map (·.1.txIe) = some true := by decide
/-- V10, steps 7 to 10: the drain is seen once its token is delivered. -/
theorem test_syncTxpop :
    (see (.syncTxpop .p0) (after laggedC
      (bothUp ++ [.putch .p0 0x58, .syncTxpush .p0, .putch .p0 0x59, .txdrain .p0]))).map (·.1.txReady) =
      some true := by decide
/-- R65 and R66 on a command port: an invalid word, and RXPUSH presented by the foreground. -/
theorem test_bad_word : (next? (takeTurn .fg { up with offers := [⟨.fg, 0xD000⟩] })).map (·.faulted) =
    some [.invalidCommand 0xD000] := by decide
theorem test_wrong_agent : (next? (takeTurn .fg { up with offers := [⟨.fg, 0x1041⟩] })).map (·.faulted) =
    some [.wrongAgent (.rxpush .p0 0x41)] := by decide
/-- R170: while `FG` is held its turn is spent on the held operation, and its next word stays unissued. -/
theorem test_held_turn :
    (next? (takeTurn .fg { txFull with held := some (.putch .p0 0x5A), offers := [⟨.fg, 0x3000⟩] })).map
      (fun t => (t.held, t.offers)) = some (some (.putch .p0 0x5A), [⟨.fg, 0x3000⟩]) := by decide
/-- The first step after reset runs a placed word. -/
theorem test_withFetchWord : (next? (step (State.reset.withFetchWord 16 0x0000))).map (fun t => t.port0.inited) =
    some true := by decide

/-! ### Witnesses: a state and operands that meet the hypotheses of each obligation, clause by clause -/

theorem wit_up : up.Inv ∧ up.cdc = .exact ∧ (up.port .p0).inited = true ∧ (up.port .p1).inited = true :=
  ⟨stateCheck_inv (by decide), by decide⟩
theorem wit_three : three.Inv ∧ three.cdc = .exact ∧ (three.port .p0).inited = true := ⟨stateCheck_inv (by decide), by decide⟩
theorem wit_txFull : txFull.Inv ∧ txFull.cdc = .exact ∧ (txFull.port .p0).inited = true :=
  ⟨stateCheck_inv (by decide), by decide⟩
theorem wit_busy : busy.Inv ∧ (busy.port .p1).inited = true := ⟨stateCheck_inv (by decide), by decide⟩

/-- EncodeInvertsDecode, DecoderAgreesWithMatchAndMask: a SYNC word of port 1; InvalidWords: each disjunct at its edge. -/
theorem wit_words : decode 0xB804 = .op (.syncErr .p1) ∧ (0xB804 &&& 0xF7FF : Word) = 0xB004 ∧
    decode 0xD000 = .invalid .reservedOp ∧ decode 0xC001 = .invalid .strayData ∧
    decode 0xB005 = .invalid .reservedChannel ∧ decode 0x0100 = .invalid .reservedBits := by decide

/-- StepRunsTheDecodedOperation, InvalidWordsAreTheseAndAreRecorded, WrongAgentIsRecorded: a turn of `FG`, not held. -/
def turn (w : Word) : State := { up with offers := [⟨.fg, w⟩], turns := [.fg] }
theorem wit_turn : (turn 0x4000).turns = [.fg] ∧ (turn 0x4000).held = none ∧
    (turn 0x4000).nextWord .fg = some 0x4000 ∧ decode 0x4000 = .op (.getch .p0) ∧ issuer (.getch .p0) = .fg ∧
    (turn 0xFFFF).nextWord .fg = some 0xFFFF ∧ decode 0xFFFF = .invalid .reservedBits ∧
    (turn 0x1041).nextWord .fg = some 0x1041 ∧ decode 0x1041 = .op (.rxpush .p0 0x41) ∧
    issuer (.rxpush .p0 0x41) ≠ .fg := by decide
/-- HeldForegroundStaysAtItsOperation. -/
theorem wit_held : ({ up with turns := [.fg], held := some (.getch .p0) } : State).held = some (.getch .p0) := by decide
/-- OnlyInitRunsOnAnUninitialisedPort. -/
theorem wit_uninit : ((State.powerOn exactC).port .p1).inited = false ∧ Instr.getch .p1 ≠ .init (Instr.getch .p1).port := by
  decide
/-- FaultsChangeNothingAndStay, AtomicModelNeverRacesNorTears, StepKeepsTheInvariant, ConfigurationNeverChanges: a step
that is answered with a fault, from a state that meets the invariant and has one recorded. -/
theorem wit_fault_step : (turn 0x4000).Inv ∧ (next? (step (turn 0x4000))).map (·.resp) = some (.faulted (.emptyPop .p0)) ∧
    (next? (exec (.getch .p0) up)).map (·.resp) = some (.faulted (.emptyPop .p0)) ∧
    (next? (step { turn 0x4000 with faulted := [.resetRace .p0, .tornCount .p0] })).map (·.faulted) =
      some [.resetRace .p0, .tornCount .p0, .emptyPop .p0] := ⟨stateCheck_inv (by decide), by decide⟩
/-- RxPush: a full view, and one slot free, the last. -/
theorem wit_rxpush : (four.port .p0).inited = true ∧ (four.port .p0).rx.viewp = (four.port .p0).rx.N ∧
    (three.port .p0).rx.viewp ≠ (three.port .p0).rx.N ∧ (three.port .p0).rx.tail = 3 := by decide
/-- AvailabilityLastsUntilForegroundActs: an accepted push by the receive interrupt, room to transmit; TxDone: a TXDONE
that completes. -/
theorem wit_availability : issuer (.rxpush .p0 0x44) ≠ .fg ∧ (next? (exec (.rxpush .p0 0x44) three)).isSome = true ∧
    (three.port .p0).txReady = true ∧ (next? (exec (.txdone .p1) busy)).map (·.resp) = some .done := by decide
/-- GetchPopsHoldsOrFaults, EmptyGetchHoldsUntilAByteArrives: a byte in view; empty under each mode, with capacity 1. -/
theorem wit_getch : 0 < (four.port .p0).rx.viewc ∧ (four.port .p0).rx.storage.read (four.port .p0).rx.head = some 0x41 ∧
    (up.port .p0).rx.viewc = 0 ∧ (up.port .p0).rxMode = .interrupt := by decide
theorem wit_getch_polled : (after polledC bothUp).Inv ∧ ((after polledC bothUp).port .p0).inited = true ∧
    ((after polledC bothUp).port .p0).rx.viewc = 0 ∧ ((after polledC bothUp).port .p0).rxMode = .polled ∧
    (after polledC bothUp).cdc = .exact := ⟨stateCheck_inv (by decide), by decide⟩
theorem wit_getch_lagged : (after laggedC (bothUp ++ [.rxpush .p0 0x41])).Inv ∧
    ((after laggedC (bothUp ++ [.rxpush .p0 0x41])).port .p0).rx.viewc = 0 ∧
    0 < ((after laggedC (bothUp ++ [.rxpush .p0 0x41])).port .p0).rx.pendPush := ⟨stateCheck_inv (by decide), by decide⟩
/-- RxFlush: a flush that completes. -/
theorem wit_rxflush : (three.port .p0).inited = true ∧ (next? (exec (.rxflush .p0) three)).isSome = true := by decide
/-- The run statements: two accepted bytes and a dropped one, a GETCH, an ERRCLR and a queued PUTCH, no INIT or RXFLUSH. -/
def runState : State :=
  { three with
    offers := [⟨.rxi .p0, 0x1044⟩, ⟨.rxi .p0, 0x1045⟩, ⟨.fg, 0x4000⟩, ⟨.fg, 0xA000⟩, ⟨.fg, 0x6058⟩]
    turns := [.rxi .p0, .rxi .p0, .fg, .fg, .fg] }
theorem wit_run : runState.Inv ∧ (next? (core.run 5 runState)).isSome = true ∧ never (resetsRx .p0) 5 runState = true ∧
    never (initialises .p0) 5 runState = true ∧ collect (rxAccepted .p0) 5 runState = [0x44] ∧
    collect (rxDelivered .p0) 5 runState = [0x41] ∧ collect (putCompleted .p0) 5 runState = [0x58] ∧
    total (discards .p0) 5 runState = 1 ∧ total (cleared .p0) 5 runState = 1 ∧
    (runState.port .p0).errcnt.toNat + total (discards .p0) 5 runState ≤ 2 ^ 32 - 1 :=
  ⟨stateCheck_inv (by decide), by decide⟩
/-- QueuedPutchStoresOrHolds: a full view, room for one, and the two ways a hold is lifted. -/
theorem wit_putch_queued :
    (∃ t, txFull.port0.tx = .queued t true ∧ t.viewp = t.N) ∧ txFull.port0.hwTxReady = true ∧
    (∃ t, up.port0.tx = .queued t false ∧ t.viewp ≠ t.N) := ⟨⟨_, rfl, rfl⟩, rfl, ⟨_, rfl, by decide⟩⟩
def popPending : State :=
  after laggedC (bothUp ++ [.putch .p0 0x58, .syncTxpush .p0, .putch .p0 0x59, .txdrain .p0])
theorem wit_putch_lagged : popPending.Inv ∧ ∃ t, popPending.port0.tx = .queued t true ∧ t.viewp = t.N ∧ 0 < t.pendPop :=
  ⟨stateCheck_inv (by decide), _, rfl, by decide⟩
/-- DirectPutchSendsOrHolds, TxDoneFreesTheHardwareRegister, DisabledOperationsChangeNothing: busy and free. -/
theorem wit_direct : (busy.port .p1).inited = true ∧ (busy.port .p1).tx = .direct ∧ (busy.port .p1).hwTxReady = false ∧
    (up.port .p1).tx = .direct ∧ (up.port .p1).hwTxReady = true := by decide
/-- TxDrain: bytes in view, and an empty view with the interrupt still armed. -/
theorem wit_txdrain :
    (∃ t, txFull.port0.tx = .queued t true ∧ 0 < t.viewc ∧ t.storage.read t.head = some 0x58) ∧
    (∃ t, txSpent.port0.tx = .queued t true ∧ t.viewc = 0) ∧ txSpent.port0.hwTxReady = true :=
  ⟨⟨_, rfl, by decide⟩, ⟨_, rfl, by decide⟩, by decide⟩
/-- DisabledOperations: a queued port whose interrupt is off, and one whose register is busy. -/
theorem wit_disabled : (∃ t, up.port0.tx = .queued t false) ∧
    (∃ t, (after exactC (bothUp ++ [.putch .p0 1, .txdrain .p0])).port0.tx = .queued t true) ∧
    (after exactC (bothUp ++ [.putch .p0 1, .txdrain .p0])).port0.hwTxReady = false := ⟨⟨_, rfl⟩, ⟨_, rfl⟩, by decide⟩
/-- PutstrExpandsToPutches, PutstrEnqueuesTheString: a string that just fits. -/
theorem wit_putstr : (0 : Byte) ∉ [(0x48 : Byte), 0x69] ∧
    ∃ t, up.port0.tx = .queued t false ∧ t.viewp + [(0x48 : Byte), 0x69].length ≤ t.N :=
  ⟨by decide, _, rfl, by decide⟩
/-- TransmitSideNeverCounts, PortsShareNoState, EveryFieldHasItsWriters, IdleAndActiveTransitions: completed operations
that turn a port Active and Idle. -/
theorem wit_active : up.port0.active = false ∧ (see (.putch .p0 0x58) up).map (·.1.active) = some true ∧
    (see (.rxflush .p0) three).map (·.1.active) = some false ∧ three.port0.active = true ∧
    up.cdc = three.cdc ∧ up.port .p1 = three.port .p1 := by decide
/-- EveryFieldHasItsWriters: a token made by its push and taken by its delivery, an event made and delivered, a bit set
and cleared (R165, R28). -/
theorem wit_writers :
    (see (.rxpush .p0 0x41) upLagged).map (·.1.rx.pendPush) = some (upLagged.port0.rx.pendPush + 1) ∧
    (see (.rxerr .p0 0) upLagged).map (·.1.pendErr) = some (upLagged.port0.pendErr + 1) ∧
    (see (.syncErr .p0) (after laggedC (bothUp ++ [.rxerr .p0 0]))).map (·.1.pendErr) = some 0 ∧
    (see (.txdrain .p0) txFull).map (·.1.hwTxReady) = some (!txFull.port0.hwTxReady) := by decide
/-- ErrclrReturnsAndClearsTheView: an event delivered and one under way. -/
theorem wit_errclr :
    ((after laggedC (bothUp ++ [.rxerr .p0 0, .rxerr .p0 0, .syncErr .p0])).port .p0).pendErr = 1 ∧
    ((after laggedC (bothUp ++ [.rxerr .p0 0, .rxerr .p0 0, .syncErr .p0])).port .p0).errcnt = 2 := by decide
/-- The synchronisers: a token pending on each channel of an initialised port. -/
theorem wit_tokens : (popPending.port .p0).inited = true ∧
    (∃ t, popPending.port0.tx = .queued t true ∧ 0 < t.pendPush ∧ 0 < t.pendPop) := ⟨by decide, _, rfl, by decide⟩
/-- ExactRunsAreLaggedRunsWithImmediateDelivery: a sequence that creates one token of each kind. -/
theorem wit_exact_run : (next? (runOps [.putch .p0 1, .txdrain .p0, .rxpush .p0 2, .getch .p0, .rxerr .p0 3] up)).isSome =
    true := by decide
/-- PowerOnMeetsTheInvariant, InitResetsThePort: a legal configuration with both capacities at their least. -/
theorem wit_config : polledC.wellFormed = true ∧ up.config.wellFormed = true := by decide
/-- ValuelessSlotStopsTheMachine: states no run reaches. -/
def hollow : State :=
  up.setPort .p0 { up.port0 with
    rx := { up.port0.rx with count := 1 }
    tx := .queued { N := 2, storage := [], head := 0, tail := 1, count := 1, pendPush := 0, pendPop := 0 } true }
theorem wit_hollow : (hollow.port .p0).inited = true ∧ 0 < (hollow.port .p0).rx.viewc ∧
    (hollow.port .p0).rx.storage.read (hollow.port .p0).rx.head = none ∧ (hollow.port .p0).hwTxReady = true ∧
    ∃ t, (hollow.port .p0).tx = .queued t true ∧ 0 < t.viewc ∧ t.storage.read t.head = none :=
  ⟨by decide, by decide, by decide, by decide, _, rfl, by decide⟩
/-- SimultaneousInterruptsCommute: the two interrupts of one port, both with something to do. -/
theorem wit_interrupts : sourceOf (.rxpush .p0 1) = some (.rx .p0) ∧ sourceOf (.txdrain .p0) = some (.tx .p0) ∧
    IrqSource.rx .p0 ≠ .tx .p0 ∧ txFull.port0.txIrqPending = true := by decide
/-- UnspecifiedValuesAreNeverUsed: two different states that agree on everything specified. -/
theorem wit_unspecified :
    let s' := (State.powerOn exactC).setPort .p0 { (State.powerOn exactC).port0 with errcnt := 7, hwTxReady := true }
    s' ≠ State.powerOn exactC ∧ s'.specified = (State.powerOn exactC).specified := by decide
/-- HoldsAreTheseThree: each of the three holds. -/
theorem wit_holds : (next? (exec (.getch .p0) (after polledC bothUp))).map (·.resp) = some .held ∧
    (next? (exec (.putch .p0 1) txFull)).map (·.resp) = some .held ∧
    (next? (exec (.putch .p1 1) busy)).map (·.resp) = some .held := by decide
/-- The micro-step refinements: bytes to pop, a ring with room, operations of other agents between. -/
theorem wit_micro : (three.port .p0).rx.count ≠ 0 ∧ (∃ r, three.port0.tx = .queued r false ∧ r.count ≠ r.N) ∧
    (∀ i ∈ [Instr.rxpush .p0 1, .txdrain .p0, .rxerr .p1 2, .txdone .p1], issuer i ≠ .fg) :=
  ⟨by decide, ⟨_, rfl, by decide⟩, by decide⟩
/-- MaskedResetIsAtomic: the writes of a flush, with handlers between them. -/
theorem wit_masked : (next? (exec (.rxflush .p0) three)).isSome = true ∧
    [[Instr.rxpush .p0 1], [.txdrain .p0], []].length = (resetWrites (.rxflush .p0) (three.port .p0)).length ∧
    ∀ l ∈ [[Instr.rxpush .p0 1], [.txdrain .p0], []], ∀ j ∈ l, sourceOf j = some (.rx .p0) ∨ sourceOf j = some (.tx .p0) := by
  decide
/-- UnmaskedResetRaceIsRecorded, TornUpdatesAreRecorded. -/
def inReset : Micro := { base := txFull, fg := .reset (.init .p0) 1, masked := [], wordAtomic := true }
def inWrite : Micro := { base := txFull, fg := .putchWrite .p0 1 2, masked := [], wordAtomic := false }
theorem wit_races : inReset.base.cdc = .exact ∧ (inReset.base.port .p0).inited = true ∧
    (inReset.base.port .p0).txIe = true ∧ (inReset.base.port .p0).hwTxReady = true ∧
    inWrite.fg = .putchWrite .p0 1 2 := by decide
theorem wit_races_others :
    (next? (exec (.init .p0) three)).isSome = true ∧ (resetWrites (.init .p0) (three.port .p0)).length = 10 ∧
    ({ base := three, fg := .reset (.rxflush .p0) 1, masked := [], wordAtomic := true } : Micro).base.cdc = .exact ∧
    ({ base := three, fg := .getchWrite .p0 0x41 3, masked := [], wordAtomic := false } : Micro).base.cdc = .exact ∧
    ({ base := four, fg := .errclrWrite .p0 0, masked := [], wordAtomic := false } : Micro).base.cdc = .exact ∧
    (three.port .p0).inited = true ∧ (four.port .p0).inited = true ∧
    (four.port .p0).rx.viewp = (four.port .p0).rx.N := by decide
/-- R191: GETCH as its five micro-steps, with a push between the test and the read (V2's order of results). -/
theorem test_micro_getch :
    (match microRun [.issue (.getch .p0), .fg, .other (.rxpush .p0 0x44), .fg, .fg, .fg, .fg]
        { base := three, fg := .idle, masked := [], wordAtomic := true } with
      | .next m => some (m.base.resp, m.base.port0.rx.contents)
      | .fault _ | .refused _ => none) = some (.byte 0x41, [0x42, 0x43, 0x44]) := by decide

/-! ### A fair execution -/

/-- The state of R138's example: `PUTCH 0, 'X'` under `LAGGED`, its token pending. -/
def tokenPending : State := after laggedC (bothUp ++ [.putch .p0 0x58])
/-- What the outside adds: the synchroniser's, the transmit interrupt's and the hardware's operations, and then nothing. -/
def schedule : List Offer :=
  [⟨.syn .p0, 0xB002⟩, ⟨.txi .p0, 0x7000⟩, ⟨.env .p0, 0xC000⟩, ⟨.txi .p0, 0x7000⟩, ⟨.syn .p0, 0xB003⟩]
def scheduled (n : Nat) : List Offer := (schedule[n]?).toList
def fairState : Nat → State
  | 0 => tokenPending
  | n + 1 =>
    (next? (step ((fairState n).load ((scheduled n).map (·.agent)) (scheduled n)))).getD (fairState n)
def fairRun : Execution := ⟨fairState, fun n => (scheduled n).map (·.agent), scheduled⟩

/-- From its sixth state on the execution stays in one state, with nothing owed and no turn left. -/
theorem fairState_rest (n : Nat) : fairState (n + 5) = fairState 5 := by
  induction n with
  | zero => rfl
  | succ n ih =>
    have e : scheduled (n + 5) = [] := by simp [scheduled, schedule]
    change (next? (step ((fairState (n + 5)).load ((scheduled (n + 5)).map (·.agent)) (scheduled (n + 5))))).getD
      (fairState (n + 5)) = _
    rw [e, ih]
    decide
theorem next_of_next? {r : Result} {s : State} (h : next? r = some s) : r = .next s := by
  cases r <;> simp_all [next?]
theorem fairRun_valid : fairRun.Valid := by
  intro n
  apply next_of_next?
  change next? (step ((fairState n).load ((scheduled n).map (·.agent)) (scheduled n))) = some (fairState (n + 1))
  match n with
  | 0 => decide
  | 1 => decide
  | 2 => decide
  | 3 => decide
  | 4 => decide
  | n + 5 =>
    have e : scheduled (n + 5) = [] := by simp [scheduled, schedule]
    rw [e, fairState_rest (n + 1), fairState_rest n]
    decide
theorem fairRun_fair : fairRun.Fair := by
  intro i n
  refine ⟨n + 5, by omega, .inl ?_⟩
  change owed i (fairState (n + 5)) = false
  rw [fairState_rest]
  cases i <;> first | exact Bool.and_false _ | (rename_i p; cases p <;> decide)
/-- DeliveryIsFairUnboundedAndUnordered, EveryBufferedByteIsSent: a fair execution with a token pending and a byte
buffered, which is on the wire in the end. -/
theorem wit_fair : fairRun.Valid ∧ fairRun.Fair ∧ (fairRun.states 0).Inv ∧ ((fairRun.states 0).port .p0).inited = true ∧
    tokens (.syncTxpush .p0) (fairRun.states 0) = 1 ∧ ((fairRun.states 0).port .p0).txContents = [0x58] ∧
    ((fairRun.states 5).port .p0).wireOut = [0x58] ∧ fairRun.times (.syncTxpush .p0) 0 5 = 1 :=
  ⟨fairRun_valid, fairRun_fair, stateCheck_inv (by decide), by decide⟩
theorem wit_fair_no_init (j : Nat) : fairRun.performed j ≠ some (.init .p0) := by
  match j with
  | 0 => decide
  | 1 => decide
  | 2 => decide
  | 3 => decide
  | 4 => decide
  | n + 5 =>
    have e : scheduled (n + 5) = [] := by simp [scheduled, schedule]
    change ((fairState (n + 5)).load ((scheduled (n + 5)).map (·.agent)) (scheduled (n + 5))).currentOp ≠ _
    rw [e, fairState_rest]
    decide
/-- The third clause of DeliveryIsFairUnboundedAndUnordered: two channels of one ring. -/
theorem wit_sync_pair : Instr.syncTxpush .p0 ∈ syncOps .p0 ∧ Instr.syncTxpop .p0 ∈ syncOps .p0 := by decide

end Sys2Proof.Tests
end

section
/-! What an operation can do to a port, said once: the moves a ring can make with the operations that make them
(`RingMove`), the moves of a whole port (`PortMove`), and that an operation's end depends on `CDC_MODE` and its own port
alone, not even on what that port has sent (`EndsAlike`, `exec_local`). -/

namespace Sys2Proof.Machine

/-! ### The moves of a ring -/

/-- What can become of a ring, each move with the statement of who makes it: a push, a pop, a reset, the delivery of a
push token and that of a pop token (R18, R19, R33). -/
inductive RingMove (c : CdcMode) (pusher popper resetter seesPush seesPop : Prop) (R : Ring) : Ring → Prop
  | keep : RingMove c pusher popper resetter seesPush seesPop R R
  | push (who : pusher) (d : Byte) : RingMove c pusher popper resetter seesPush seesPop R (R.push c d)
  | pop (who : popper) : RingMove c pusher popper resetter seesPush seesPop R (R.dropHead c)
  | reset (who : resetter) : RingMove c pusher popper resetter seesPush seesPop R R.clear
  | deliverPush (who : seesPush) : RingMove c pusher popper resetter seesPush seesPop R R.deliverPush
  | deliverPop (who : seesPop) : RingMove c pusher popper resetter seesPush seesPop R R.deliverPop

section
variable {c : CdcMode} {pusher popper resetter seesPush seesPop : Prop} {R R' : Ring}

theorem le_token (c : CdcMode) (n : Nat) : n ≤ token c n := by cases c <;> simp

namespace RingMove

variable (m : RingMove c pusher popper resetter seesPush seesPop R R')
include m

theorem N_eq : R'.N = R.N := by
  cases m <;> rfl

theorem head_writers (h : R'.head ≠ R.head) : popper ∨ resetter := by
  cases m with
  | pop who => exact .inl who
  | reset who => exact .inr who
  | _ => exact absurd rfl h

theorem tail_writers (h : R'.tail ≠ R.tail) : pusher ∨ resetter := by
  cases m with
  | push who => exact .inl who
  | reset who => exact .inr who
  | _ => exact absurd rfl h

theorem storage_writers (h : R'.storage ≠ R.storage) : pusher := by
  cases m with
  | push who => exact who
  | _ => exact absurd rfl h

theorem count_raised (h : R.count < R'.count) :
    pusher ∧ R'.count = R.count + 1 := by
  cases m with
  | push who => exact ⟨who, rfl⟩
  | pop => exact absurd h (Nat.not_lt.2 (Nat.sub_le _ _))
  | reset => exact absurd h (Nat.not_lt_zero _)
  | _ => exact absurd h (lt_irrefl _)

theorem count_lowered (h : R'.count < R.count) :
    (popper ∧ R'.count + 1 = R.count) ∨ (resetter ∧ R'.count = 0) := by
  cases m with
  | push => exact absurd h (Nat.not_lt.2 (Nat.le_succ _))
  | pop who => exact .inl ⟨who, Nat.sub_add_cancel (Nat.zero_lt_of_lt h)⟩
  | reset who => exact .inr ⟨who, rfl⟩
  | _ => exact absurd h (lt_irrefl _)

theorem pendPush_raised (h : R.pendPush < R'.pendPush) : pusher := by
  cases m with
  | push who => exact who
  | reset => exact absurd h (Nat.not_lt_zero _)
  | deliverPush => exact absurd h (Nat.not_lt.2 (Nat.sub_le _ _))
  | _ => exact absurd h (lt_irrefl _)

theorem pendPush_lowered (h : R'.pendPush < R.pendPush) : seesPush ∨ resetter := by
  cases m with
  | push => exact absurd h (Nat.not_lt.2 (le_token c _))
  | reset who => exact .inr who
  | deliverPush who => exact .inl who
  | _ => exact absurd h (lt_irrefl _)

theorem pendPop_raised (h : R.pendPop < R'.pendPop) : popper := by
  cases m with
  | pop who => exact who
  | reset => exact absurd h (Nat.not_lt_zero _)
  | deliverPop => exact absurd h (Nat.not_lt.2 (Nat.sub_le _ _))
  | _ => exact absurd h (lt_irrefl _)

theorem pendPop_lowered (h : R'.pendPop < R.pendPop) : seesPop ∨ resetter := by
  cases m with
  | pop => exact absurd h (Nat.not_lt.2 (le_token c _))
  | reset who => exact .inr who
  | deliverPop who => exact .inl who
  | _ => exact absurd h (lt_irrefl _)

end RingMove
end

/-! ### The moves of a port -/

/-- What operation `i` can make of the receive ring of port `p` (R18, the writers of R165). -/
abbrev RxMove (c : CdcMode) (i : Instr) (p : PortId) : Ring → Ring → Prop :=
  RingMove c (∃ d, i = .rxpush p d) (i = .getch p) (i = .rxflush p ∨ i = .init p) (i = .syncRxpush p)
    (i = .syncRxpop p)

/-- What operation `i` can make of the transmit ring of port `p` (R18, the writers of R165). -/
abbrev TxMove (c : CdcMode) (i : Instr) (p : PortId) : Ring → Ring → Prop :=
  RingMove c (∃ d, i = .putch p d) (i = .txdrain p) (i = .init p) (i = .syncTxpush p) (i = .syncTxpop p)

/-- What operation `i` can make of port `p`: one constructor per part of the port that is written at once. -/
inductive PortMove (c : CdcMode) (i : Instr) (p : PortId) (P : Port) : Port → Prop
  | keep : PortMove c i p P P
  | rx {R : Ring} (m : RxMove c i p P.rx R) : PortMove c i p P { P with rx := R }
  | countError (who : (∃ d, i = .rxpush p d) ∨ ∃ d, i = .rxerr p d) : PortMove c i p P (P.countError c)
  | clearErrors (who : i = .errclr p) : PortMove c i p P { P with errcnt := P.errcnt - P.errview }
  | deliverError (who : i = .syncErr p) : PortMove c i p P { P with pendErr := P.pendErr - 1 }
  | tx {t t' : Ring} {ie ie' : Bool} (htx : P.tx = .queued t ie) (m : TxMove c i p t t')
      (arm : ie = false → ie' = true → (∃ d, i = .putch p d) ∨ i = .syncTxpush p)
      (disarm : ie = true → ie' = false → i = .txdrain p ∨ i = .init p) :
      PortMove c i p P { P with tx := .queued t' ie' }
  | drain {t : Ring} {ie : Bool} (who : i = .txdrain p) (htx : P.tx = .queued t ie) (b : Byte) :
      PortMove c i p P (Port.sendByte b { P with tx := .queued (t.dropHead c) ie })
  | send (who : ∃ d, i = .putch p d) (htx : P.tx = .direct) (b : Byte) : PortMove c i p P (P.sendByte b)
  | free (who : i = .txdone p) : PortMove c i p P { P with hwTxReady := true }
  | init (who : i = .init p) : PortMove c i p P P.initialised

@[simp] theorem clear_mode (x : TxPath) : x.clear.mode = x.mode := by cases x <;> rfl

section
variable {c : CdcMode} {i : Instr} {p : PortId} {P P' : Port}

namespace PortMove

variable (m : PortMove c i p P P')
include m

theorem rx_move : RxMove c i p P.rx P'.rx := by
  cases m with
  | rx m => exact m
  | init who => exact .reset (.inr who)
  | _ => exact .keep

/-- On a queued port: the move of the transmit ring, who can set `tx_ie` and who can clear it (R24). -/
theorem tx_move {t t' : Ring} {ie ie' : Bool} (h : P.tx = .queued t ie)
    (h' : P'.tx = .queued t' ie') :
    TxMove c i p t t' ∧ (ie = false → ie' = true → (∃ d, i = .putch p d) ∨ i = .syncTxpush p) ∧
      (ie = true → ie' = false → i = .txdrain p ∨ i = .init p) := by
  cases m with
  | tx htx m arm disarm =>
    cases h.symm.trans htx
    cases h'
    exact ⟨m, arm, disarm⟩
  | drain who htx =>
    cases h.symm.trans htx
    cases h'
    exact ⟨.pop who, fun h h' => (nomatch h.symm.trans h'), fun _ _ => .inl who⟩
  | init who =>
    rw [Port.initialised, h] at h'
    cases h'
    exact ⟨.reset who, nofun, fun _ _ => .inr who⟩
  | _ =>
    cases h.symm.trans h'
    exact ⟨.keep, fun h h' => (nomatch h.symm.trans h'), fun h h' => nomatch h.symm.trans h'⟩

theorem errcnt_raised (h : P.errcnt.toNat < P'.errcnt.toNat) :
    ((∃ d, i = .rxpush p d) ∨ ∃ d, i = .rxerr p d) ∧ P'.errcnt.toNat = P.errcnt.toNat + 1 := by
  cases m with
  | countError who =>
    rw [Port.countError, satSucc_toNat] at h ⊢
    exact ⟨who, by omega⟩
  | clearErrors =>
    have hle : P.errview ≤ P.errcnt := by rw [BitVec.le_def, errview_toNat]; omega
    rw [BitVec.toNat_sub_of_le hle] at h
    omega
  | init => exact absurd h (Nat.not_lt_zero _)
  | _ => exact absurd h (lt_irrefl _)

theorem errcnt_lowered (h : P'.errcnt.toNat < P.errcnt.toNat) :
    i = .errclr p ∨ i = .init p := by
  cases m with
  | countError =>
    have := P.errcnt.isLt
    rw [Port.countError, satSucc_toNat] at h
    omega
  | clearErrors who => exact .inl who
  | init who => exact .inr who
  | _ => exact absurd h (lt_irrefl _)

theorem pendErr_raised (h : P.pendErr < P'.pendErr) :
    (∃ d, i = .rxpush p d) ∨ ∃ d, i = .rxerr p d := by
  cases m with
  | countError who => exact who
  | deliverError => exact absurd h (Nat.not_lt.2 (Nat.sub_le _ _))
  | init => exact absurd h (Nat.not_lt_zero _)
  | _ => exact absurd h (lt_irrefl _)

theorem pendErr_lowered (h : P'.pendErr < P.pendErr) :
    i = .syncErr p ∨ i = .init p := by
  cases m with
  | countError =>
    have := le_token c P.pendErr
    rw [Port.countError] at h
    dsimp only at h
    split at h <;> omega
  | deliverError who => exact .inl who
  | init who => exact .inr who
  | _ => exact absurd h (lt_irrefl _)

theorem wireOut_writers (h : P'.wireOut ≠ P.wireOut) :
    (((∃ d, i = .putch p d) ∧ P.tx = .direct) ∨ i = .txdrain p) ∧ ∃ b, P'.wireOut = P.wireOut ++ [b] := by
  cases m with
  | drain who htx b => exact ⟨.inr who, b, rfl⟩
  | send who htx b => exact ⟨.inl ⟨who, htx⟩, b, rfl⟩
  | _ => exact absurd rfl h

theorem hwTxReady_cleared (h : P.hwTxReady = true) (h' : P'.hwTxReady = false) :
    ((∃ d, i = .putch p d) ∧ P.tx = .direct) ∨ i = .txdrain p := by
  cases m with
  | drain who => exact .inr who
  | send who htx => exact .inl ⟨who, htx⟩
  | free | init => cases h'
  | _ => cases h.symm.trans h'

theorem hwTxReady_set (h : P.hwTxReady = false) (h' : P'.hwTxReady = true) :
    i = .txdone p ∨ i = .init p := by
  cases m with
  | drain | send => cases h'
  | free who => exact .inl who
  | init who => exact .inr who
  | _ => cases h.symm.trans h'

/-- `inited` stays, or INIT sets it (R31). -/
theorem inited_eq_or : P'.inited = P.inited ∨ (i = .init p ∧ P'.inited = true) := by
  cases m with
  | init who => exact .inr ⟨who, rfl⟩
  | _ => exact .inl rfl

/-- The configuration of a port has no writer (R27). -/
theorem config_eq : P'.config = P.config := by
  cases m with
  | rx m => simp [Port.config, m.N_eq]
  | tx htx m => simp [Port.config, htx, TxPath.mode, m.N_eq]
  | drain who htx => simp [Port.config, Port.sendByte, htx, TxPath.mode]
  | init => simp [Port.config, Port.initialised]
  | _ => rfl

end PortMove
end

/-! ### What an operation depends on -/

/-- The port with `w` put in front of what it has sent. -/
def Port.prependWire (w : List Byte) (P : Port) : Port := { P with wireOut := w ++ P.wireOut }

section
variable (w : List Byte) (P : Port) (d : Byte)

@[simp] theorem prependWire_nil : P.prependWire [] = P := rfl
@[simp] theorem prependWire_inited : (P.prependWire w).inited = P.inited := rfl
@[simp] theorem prependWire_tx : (P.prependWire w).tx = P.tx := rfl
@[simp] theorem prependWire_rxMode : (P.prependWire w).rxMode = P.rxMode := rfl
@[simp] theorem prependWire_sendByte : (P.prependWire w).sendByte d = (P.sendByte d).prependWire w := by
  simp [Port.sendByte, Port.prependWire]
theorem prependWire_setTx (x : TxPath) :
    ({ P with tx := x } : Port).prependWire w = { P.prependWire w with tx := x } := rfl

end

/-- The ways operation `i` on port `p` ends in a state `s`, with what it makes of that port, and how it then ends in a
state `s'` whose port `p` differs only in having sent `w` before: alike, and with `w` still in front. -/
inductive EndsAlike (i : Instr) (p : PortId) (w : List Byte) (s s' : State) : Result → Result → Prop
  | completes {P : Port} {r : Response} (m : PortMove s.cdc i p (s.port p) P) :
      EndsAlike i p w s s' (.next ((s.setPort p P).respond r)) (.next ((s'.setPort p (P.prependWire w)).respond r))
  | answers (r : Response) : EndsAlike i p w s s' (.next (s.respond r)) (.next (s'.respond r))
  | faults (f : ModelFault) : EndsAlike i p w s s' (.next (s.raiseFault f)) (.next (s'.raiseFault f))
  | holds :
      EndsAlike i p w s s' (.next { s with held := some i, resp := .held })
        (.next { s' with held := some i, resp := .held })
  | stops (f : Fault) : EndsAlike i p w s s' (.fault f) (.fault f)

variable {i : Instr} {w : List Byte} {s s' t : State} {p q : PortId}

theorem endsAlike_whenInited {k k' : Port → Result} (hp : s'.port p = (s.port p).prependWire w)
    (hk : EndsAlike i p w s s' (k (s.port p)) (k' ((s.port p).prependWire w))) :
    EndsAlike i p w s s' (whenInited p s k) (whenInited p s' k') := by
  unfold whenInited
  rw [hp, prependWire_inited]
  split
  · exact hk
  · exact .faults _

theorem endsAlike_ite {b : Prop} [Decidable b] {x x' y y' : Result} (hx : EndsAlike i p w s s' x x')
    (hy : EndsAlike i p w s s' y y') : EndsAlike i p w s s' (if b then x else y) (if b then x' else y') := by
  split
  · exact hx
  · exact hy

/-- A pop on both sides: the byte read and the ring left are the same. -/
theorem endsAlike_pop {c : CdcMode} {R : Ring} {f : Fault} {k k' : Byte → Ring → Result}
    (h : ∀ b, EndsAlike i p w s s' (k b (R.dropHead c)) (k' b (R.dropHead c))) :
    EndsAlike i p w s s' (match R.pop c with | some (b, r) => k b r | none => .fault f)
      (match R.pop c with | some (b, r) => k' b r | none => .fault f) := by
  cases hpop : R.pop c with
  | none => exact .stops f
  | some x =>
    obtain ⟨b, r⟩ := x
    obtain ⟨-, rfl⟩ := pop_eq_some.1 hpop
    exact h b

/-- An operation reads nothing but `CDC_MODE` and its own port, and of that port not what it has sent (R11, R28); what
it makes of the port is one of the moves. -/
theorem exec_local (i : Instr) (w : List Byte) (hc : s'.cdc = s.cdc)
    (hp : s'.port i.port = (s.port i.port).prependWire w) : EndsAlike i i.port w s s' (exec i s) (exec i s') := by
  cases i <;> simp only [Instr.port] at hp ⊢
  case init p =>
    simp only [exec, execInit, hp]
    exact .completes (.init rfl)
  case rxpush p d =>
    simp only [exec, execRxpush, hc]
    exact endsAlike_whenInited hp
      (endsAlike_ite (.completes (.countError (.inl ⟨d, rfl⟩))) (.completes (.rx (.push ⟨d, rfl⟩ d))))
  case rxerr p d =>
    simp only [exec, execRxerr, hc]
    exact endsAlike_whenInited hp (.completes (.countError (.inr ⟨d, rfl⟩)))
  case rxavail p =>
    simp only [exec, execRxavail]
    exact endsAlike_whenInited hp (.answers _)
  case getch p =>
    simp only [exec, execGetch, hc]
    refine endsAlike_whenInited hp (endsAlike_ite (endsAlike_pop fun b => .completes (.rx (.pop rfl))) ?_)
    rw [prependWire_rxMode]
    split
    · exact .holds
    · exact .faults _
  case rxflush p =>
    simp only [exec, execRxflush]
    exact endsAlike_whenInited hp (.completes (.rx (.reset (.inl rfl))))
  case putch p d =>
    simp only [exec, execPutch, hc]
    refine endsAlike_whenInited hp ?_
    rw [prependWire_tx]
    split <;> rename_i htx
    · refine endsAlike_ite .holds (.completes (.tx htx (.push ⟨d, rfl⟩ d) (fun _ _ => .inl ⟨d, rfl⟩) ?_))
      cases s.cdc with
      | exact => exact nofun
      | lagged => exact fun h h' => nomatch h.symm.trans h'
    · rw [prependWire_sendByte]
      exact endsAlike_ite (.completes (.send ⟨d, rfl⟩ htx d)) .holds
  case txdrain p =>
    simp only [exec, execTxdrain, hc]
    refine endsAlike_whenInited hp ?_
    rw [prependWire_tx]
    split <;> rename_i htx
    · exact .answers _
    · refine endsAlike_ite (endsAlike_ite (endsAlike_pop fun b => ?_) ?_) (.answers _)
      · rw [← prependWire_setTx, prependWire_sendByte]
        exact .completes (.drain rfl htx b)
      · exact .completes (.tx htx .keep nofun fun _ _ => .inl rfl)
  case txrdy p =>
    simp only [exec, execTxrdy]
    exact endsAlike_whenInited hp (.answers _)
  case errq p =>
    simp only [exec, execErrq]
    exact endsAlike_whenInited hp (.answers _)
  case errclr p =>
    simp only [exec, execErrclr]
    exact endsAlike_whenInited hp (.completes (.clearErrors rfl))
  case syncRxpush p =>
    simp only [exec, execSyncRxpush]
    exact endsAlike_whenInited hp (endsAlike_ite (.completes (.rx (.deliverPush rfl))) (.answers _))
  case syncRxpop p =>
    simp only [exec, execSyncRxpop]
    exact endsAlike_whenInited hp (endsAlike_ite (.completes (.rx (.deliverPop rfl))) (.answers _))
  case syncTxpush p =>
    simp only [exec, execSyncTxpush]
    refine endsAlike_whenInited hp ?_
    rw [prependWire_tx]
    split <;> rename_i htx
    · exact endsAlike_ite (.completes (.tx htx (.deliverPush rfl) (fun _ _ => .inr rfl) nofun)) (.answers _)
    · exact .answers _
  case syncTxpop p =>
    simp only [exec, execSyncTxpop]
    refine endsAlike_whenInited hp ?_
    rw [prependWire_tx]
    split <;> rename_i htx
    · exact endsAlike_ite (.completes (.tx htx (.deliverPop rfl) (fun h h' => nomatch h.symm.trans h')
        fun h h' => nomatch h.symm.trans h')) (.answers _)
    · exact .answers _
  case syncErr p =>
    simp only [exec, execSyncErr]
    exact endsAlike_whenInited hp (endsAlike_ite (.completes (.deliverError rfl)) (.answers _))
  case txdone p =>
    simp only [exec, execTxdone]
    exact endsAlike_whenInited hp (endsAlike_ite (.answers _) (.completes (.free rfl)))

/-! ### What an operation does to the state -/

@[simp] theorem held_port (h : Option Instr) (r : Response) :
    State.port { s with held := h, resp := r } p = s.port p := by cases p <;> rfl

/-- An operation leaves the other port as it was (R11). -/
theorem exec_port_other (h : exec i s = .next t) (hp : p ≠ i.port) : t.port p = s.port p := by
  obtain ⟨P, r, rfl⟩ | ⟨f, rfl⟩ | rfl := exec_next h
  · rw [respond_port, setPort_port_other _ _ _ _ hp]
  · exact raiseFault_port ..
  · exact held_port ..

theorem exec_cdc (h : exec i s = .next t) : t.cdc = s.cdc := by
  obtain ⟨P, r, rfl⟩ | ⟨f, rfl⟩ | rfl := exec_next h
  · simp
  · rfl
  · rfl

/-- What an operation makes of its own port is one of the moves. -/
theorem exec_own_move (h : exec i s = .next t) : PortMove s.cdc i i.port (s.port i.port) (t.port i.port) := by
  obtain ⟨x, e⟩ : ∃ x, EndsAlike i i.port [] s s (.next t) x := ⟨_, h ▸ exec_local i [] rfl rfl⟩
  cases e with
  | completes m => rwa [respond_port, setPort_port_same]
  | answers => rw [respond_port]; exact .keep
  | faults => rw [raiseFault_port]; exact .keep
  | holds => rw [held_port]; exact .keep

/-- What an operation makes of a port, its own or the other, is one of the moves. -/
theorem exec_portMove (h : exec i s = .next t) (p : PortId) : PortMove s.cdc i p (s.port p) (t.port p) := by
  rcases eq_or_ne p i.port with rfl | hp
  · exact exec_own_move h
  · rw [exec_port_other h hp]
    exact .keep

/-- What a port has sent is never read: with `w` in front of it the operation does the same, and `w` stays in front
(R28). On the other port the operation's own port has nothing put in front of it. -/
theorem exec_prependWire (h : exec i s = .next t) (p : PortId) (w : List Byte) :
    exec i (s.setPort p ((s.port p).prependWire w)) = .next (t.setPort p ((t.port p).prependWire w)) := by
  have e := exec_local (s := s) (s' := s.setPort p ((s.port p).prependWire w)) i (if p = i.port then w else [])
    (setPort_cdc ..) (by generalize i.port = q; cases p <;> cases q <;> rfl)
  rw [h] at e
  generalize i.port = q at e
  generalize exec i _ = x at e ⊢
  cases e <;> cases p <;> cases q <;> rfl

/-- INIT sets `inited` (R120). -/
theorem exec_init_inited (h : exec (.init p) s = .next t) : (t.port p).inited = true := by
  rw [complete_next.1 h, respond_port, setPort_port_same]
  rfl

/-- On a port not yet initialised every operation but INIT records `NotInitialised` and changes nothing (R121). -/
theorem exec_of_not_inited (hi : i ≠ .init i.port) (h : (s.port i.port).inited = false) :
    exec i s = .next (s.raiseFault (.notInitialised i.port)) := by
  cases i with
  | init => exact absurd rfl hi
  | _ =>
    simp only [exec, execRxpush, execRxerr, execRxavail, execGetch, execRxflush, execPutch, execTxdrain, execTxrdy,
      execErrq, execErrclr, execSyncRxpush, execSyncRxpop, execSyncTxpush, execSyncTxpop, execSyncErr, execTxdone]
    exact whenInited_of_not h

/-! ### What a step leaves of the configuration -/

theorem config_congr (hc : t.cdc = s.cdc) (hp : ∀ p, (t.port p).config = (s.port p).config) : t.config = s.config := by
  rw [State.config, State.config, hc, ← port_p0, ← port_p1, hp, hp, port_p0, port_p1]

theorem perform_cdc {what : Issue} (h : perform what s = .next t) : t.cdc = s.cdc := by
  cases what with
  | nothing => rw [answer_next.1 h, respond_cdc]
  | op i => exact exec_cdc h
  | badWord w => rw [faultWith_next.1 h, raiseFault_cdc]
  | badPort i =>
    cases h
    unfold rejectPort
    split
    · rfl
    · split <;> rfl

theorem step_cdc (h : step s = .next t) : t.cdc = s.cdc := by
  cases hs : s.turns with
  | nil =>
    rw [step_idle hs] at h
    cases h
    rfl
  | cons a rest =>
    rw [step_perform hs] at h
    rw [perform_cdc h, taken_cdc]

theorem step_port_config (h : step s = .next t) (p : PortId) : (t.port p).config = (s.port p).config := by
  cases hop : s.currentOp with
  | none => rw [step_noOp_port hop h]
  | some i =>
    obtain ⟨u, hu, hport, -⟩ := step_currentOp hop
    rw [(exec_portMove (hu ▸ h) p).config_eq, hport]

/-! ### The obligations about the state (10_state.md) -/

/-- Settles O49: every clause but the one about what was sent is read off the moves of the port. -/
theorem everyFieldHasItsWriters : Obligations.EveryFieldHasItsWriters := by
  intro i s t p h
  have m := exec_portMove h p
  have rx := m.rx_move
  refine ⟨rx.head_writers, rx.tail_writers, rx.storage_writers, rx.count_raised, rx.count_lowered, rx.pendPush_raised,
    rx.pendPush_lowered, rx.pendPop_raised, rx.pendPop_lowered, ?_, m.errcnt_raised, m.errcnt_lowered, m.pendErr_raised,
    m.pendErr_lowered, m.wireOut_writers, exec_prependWire h p, m.hwTxReady_cleared, m.hwTxReady_set, ?_, m.config_eq⟩
  · intro r ie r' ie' hr hr'
    obtain ⟨tx, arm, disarm⟩ := m.tx_move hr hr'
    exact ⟨tx.head_writers, tx.tail_writers, tx.storage_writers, tx.count_raised, tx.count_lowered, tx.pendPush_raised,
      tx.pendPush_lowered, tx.pendPop_raised, tx.pendPop_lowered, arm, disarm⟩
  · intro hne
    exact (m.inited_eq_or.resolve_left hne).1

/-- Settles O48: the second part is `exec_local` with nothing put in front. -/
theorem portsShareNoState : Obligations.PortsShareNoState := by
  refine ⟨fun i s t h => exec_port_other h (by cases i.port <;> nofun), fun i s s' hc hp => ?_⟩
  have e := exec_local i [] hc.symm hp.symm
  generalize exec i s = x, exec i s' = x' at e
  cases e <;> simp [portOutcome, hp]

/-- Settles O47. -/
theorem configurationNeverChanges : Obligations.ConfigurationNeverChanges :=
  fun _ _ h => config_congr (step_cdc h) (step_port_config h)

/-- Settles O9. -/
theorem onlyInitRunsOnAnUninitialisedPort : Obligations.OnlyInitRunsOnAnUninitialisedPort := by
  refine ⟨fun c p => by cases p <;> rfl, fun i s t p h => ⟨fun ht => ?_, ?_⟩, fun i s hi h => ?_⟩
  · rcases (exec_portMove h p).inited_eq_or with e | ⟨who, -⟩
    · exact .inl (e ▸ ht)
    · exact .inr who
  · rintro (hs | rfl)
    · rcases (exec_portMove h p).inited_eq_or with e | ⟨-, ht⟩
      · exact e.trans hs
      · exact ht
    · exact exec_init_inited h
  · exact ⟨_, fun g => mem_addFault _ g _, exec_of_not_inited hi h⟩

end Sys2Proof.Machine
end

section
/-! The words of the command format: their fields as numbers, the decoder and the rows of match and mask in terms of the
fields, the turn on which an agent that is not held presents a word, and the expansion of PUTSTR. -/

namespace Sys2Proof

variable {w : Word} {d : Byte} {p : PortId} {i j : Instr}

/-! ### The fields of a word as numbers (R60) -/

theorem Word.op_eq_div (w : Word) : w.op = w.toNat / 4096 := by
  simp only [Word.op, BitVec.extractLsb'_toNat]
  omega

theorem Word.z_toNat (w : Word) : w.z.toNat = w.toNat / 256 % 8 := by
  simp only [Word.z, BitVec.extractLsb'_toNat]
  omega

theorem Word.d_toNat (w : Word) : w.d.toNat = w.toNat % 256 := by
  simp only [Word.d, BitVec.extractLsb'_toNat]
  omega

theorem Word.z_eq_zero_iff : w.z = 0 ↔ w.toNat / 256 % 8 = 0 := by
  rw [← Word.z_toNat, BitVec.toNat_eq]
  rfl

theorem Word.d_eq_zero_iff : w.d = 0 ↔ w.toNat % 256 = 0 := by
  rw [← Word.d_toNat, BitVec.toNat_eq]
  rfl

theorem Word.op_lt (w : Word) : w.op < 16 := BitVec.isLt _

theorem Word.p_eq_p1_iff : w.p = .p1 ↔ w.toNat / 2048 % 2 = 1 := by
  rw [Word.p, ← BitVec.testBit_toNat, Nat.testBit_eq_decide_div_mod_eq]
  simp

/-- A word is its four fields (R60). -/
theorem Word.ext_fields {v w : Word} (hop : v.op = w.op) (hp : v.p = w.p) (hz : v.z = w.z) (hd : v.d = w.d) :
    v = w := by
  rw [Word.op_eq_div, Word.op_eq_div] at hop
  rw [BitVec.toNat_eq, Word.z_toNat, Word.z_toNat] at hz
  rw [BitVec.toNat_eq, Word.d_toNat, Word.d_toNat] at hd
  have hp : v.toNat / 2048 % 2 = 1 ↔ w.toNat / 2048 % 2 = 1 := by rw [← Word.p_eq_p1_iff, hp, Word.p_eq_p1_iff]
  apply BitVec.eq_of_toNat_eq
  omega

/-! ### The decoder in terms of the fields (R60, R64, R65) -/

theorem bareOp_op_iff : bareOp d j = .op i ↔ d = 0 ∧ j = i := by
  unfold bareOp
  split <;> simp_all

theorem bareOp_invalid_iff : (∃ why, bareOp d j = .invalid why) ↔ d ≠ 0 := by
  unfold bareOp
  split <;> simp_all

theorem syncOp_fields (h : syncOp p d = .op i) : i.opNumber = 11 ∧ i.port = p ∧ i.lowByte = d := by
  unfold syncOp at h
  split at h <;> cases h <;> exact ⟨rfl, rfl, BitVec.eq_of_toNat_eq (Eq.symm ‹_›)⟩

theorem syncOp_invalid_iff : (∃ why, syncOp p d = .invalid why) ↔ 5 ≤ d.toNat := by
  unfold syncOp
  split
  case h_6 =>
    simp only [Verdict.invalid.injEq, exists_eq', true_iff, imp_false] at *
    omega
  all_goals simp [*]

/-- A word decodes to an operation exactly when each of its fields is the operation's. -/
theorem decode_op_iff :
    decode w = .op i ↔ w.z = 0 ∧ w.op = i.opNumber.toNat ∧ w.p = i.port ∧ w.d = i.lowByte := by
  constructor
  · intro h
    unfold decode at h
    split at h
    case isTrue => cases h
    case isFalse hz =>
      refine ⟨not_not.1 hz, ?_⟩
      split at h
      -- RXPUSH, RXERR and PUTCH, which take any low byte; SYNC; the reserved `op`; the bare operations
      case h_2 | h_3 | h_7 =>
        cases h
        exact ⟨‹_›, rfl, rfl⟩
      case h_12 hop =>
        obtain ⟨hi, hp, hd⟩ := syncOp_fields h
        exact ⟨by rw [hop, hi]; rfl, hp.symm, hd.symm⟩
      case h_14 => cases h
      all_goals
        obtain ⟨hd, rfl⟩ := bareOp_op_iff.1 h
        exact ⟨‹_›, rfl, hd⟩
  · rintro ⟨hz, hop, hp, hd⟩
    cases i <;> simp [decode, hz, hop, hp, hd, bareOp, syncOp, Instr.opNumber, Instr.port, Instr.lowByte]

/-- The four causes of R65, over the decoder's fields. -/
theorem decode_invalid_iff :
    (∃ why, decode w = .invalid why) ↔
      13 ≤ w.op ∨ w.z ≠ 0 ∨ (w.op ∉ [1, 2, 6, 11] ∧ w.d ≠ 0) ∨ (w.op = 11 ∧ 5 ≤ w.d.toNat) := by
  unfold decode
  split
  case isTrue hz => exact iff_of_true ⟨_, rfl⟩ (.inr (.inl hz))
  case isFalse hz =>
    have hz : w.z = 0 := not_not.1 hz
    split
    case h_2 hop | h_3 hop | h_7 hop => simp [hz, hop]
    case h_12 hop => simp [hz, hop, syncOp_invalid_iff]
    case h_14 =>
      have : 13 ≤ w.op := by
        have := Word.op_lt w
        simp only [imp_false] at *
        omega
      simp [this]
    all_goals
      rename_i hop
      simp [hz, hop, bareOp_invalid_iff]

theorem decode_op_iff_not_invalid (w : Word) : (∃ i, decode w = .op i) ↔ ¬ ∃ why, decode w = .invalid why := by
  cases decode w <;> simp

/-- The four causes of R65, over the number of the word. -/
def Word.OutsideMap (w : Word) : Prop :=
  13 ≤ w.toNat / 4096 ∨ w.toNat / 256 % 8 ≠ 0 ∨ (w.toNat / 4096 ∉ [1, 2, 6, 11] ∧ w.toNat % 256 ≠ 0) ∨
    (w.toNat / 4096 = 11 ∧ 5 ≤ w.toNat % 256)

theorem decode_invalid_iff_outsideMap : (∃ why, decode w = .invalid why) ↔ w.OutsideMap := by
  simp only [Word.OutsideMap, decode_invalid_iff, ne_eq, Word.z_eq_zero_iff, Word.d_eq_zero_iff, Word.op_eq_div,
    Word.d_toNat]

theorem Word.wellFormed_iff : w.wellFormed = true ↔ ¬ w.OutsideMap := by
  simp only [Word.OutsideMap, Word.wellFormed, Word.opDefined, Word.zClear, Word.dataClear, Word.hasData,
    Word.channelDefined, Bool.and_eq_true, Bool.or_eq_true, decide_eq_true_eq, List.mem_cons, List.not_mem_nil,
    or_false]
  omega

/-! ### The rows of match and mask (R64) -/

/-- The bits of the low byte that a row fixes: none where the operation has a data operand (R62), all elsewhere. -/
def Instr.fixedLow : Instr → Byte
  | .rxpush _ _ | .rxerr _ _ | .putch _ _ => 0
  | _ => .allOnes 8

/-- The operation of the same row on port `p`, with the data operand `d` where it has one. -/
def Instr.withOperands (p : PortId) (d : Byte) : Instr → Instr
  | .init _ => .init p
  | .rxpush _ _ => .rxpush p d
  | .rxerr _ _ => .rxerr p d
  | .rxavail _ => .rxavail p
  | .getch _ => .getch p
  | .rxflush _ => .rxflush p
  | .putch _ _ => .putch p d
  | .txdrain _ => .txdrain p
  | .txrdy _ => .txrdy p
  | .errq _ => .errq p
  | .errclr _ => .errclr p
  | .syncRxpush _ => .syncRxpush p
  | .syncRxpop _ => .syncRxpop p
  | .syncTxpush _ => .syncTxpush p
  | .syncTxpop _ => .syncTxpop p
  | .syncErr _ => .syncErr p
  | .txdone _ => .txdone p

@[simp] theorem Instr.withOperands_row : (i.withOperands p d).row = i.row := by cases i <;> rfl
@[simp] theorem Instr.withOperands_opNumber : (i.withOperands p d).opNumber = i.opNumber := by cases i <;> rfl
@[simp] theorem Instr.withOperands_port : (i.withOperands p d).port = p := by cases i <;> rfl

theorem Instr.withOperands_lowByte (h : d &&& i.fixedLow = i.lowByte &&& i.fixedLow) :
    (i.withOperands p d).lowByte = d := by
  cases i
  case rxpush | rxerr | putch => rfl
  all_goals simpa only [Instr.withOperands, Instr.fixedLow, Instr.lowByte, BitVec.and_allOnes] using h.symm

theorem Word.and_op (v w : Word) : (v &&& w).op = v.op &&& w.op := by
  simp only [Word.op, BitVec.extractLsb'_and, BitVec.toNat_and]

theorem Word.and_p_of_p0 {v w : Word} (h : w.p = .p0) : (v &&& w).p = .p0 := by
  simp_all [Word.p]

theorem Word.and_z (v w : Word) : (v &&& w).z = v.z &&& w.z := BitVec.extractLsb'_and

theorem Word.and_d (v w : Word) : (v &&& w).d = v.d &&& w.d := BitVec.extractLsb'_and

theorem Instr.row_mask_fields (i : Instr) :
    i.row.mask.op = 15 ∧ i.row.mask.p = .p0 ∧ i.row.mask.z = .allOnes 3 ∧ i.row.mask.d = i.fixedLow := by
  cases i <;> simp [Instr.row, Word.op, Word.p, Word.z, Word.d, Instr.fixedLow]

theorem Instr.row_pattern_fields (i : Instr) :
    i.row.pattern.op = i.opNumber.toNat ∧ i.row.pattern.p = .p0 ∧ i.row.pattern.z = 0 ∧
      i.row.pattern.d = i.lowByte &&& i.fixedLow := by
  cases i <;> simp [Instr.row, Word.op, Word.p, Word.z, Word.d, Instr.fixedLow, Instr.opNumber, Instr.lowByte]

/-- A word belongs to a row exactly when the fields that the row fixes are the row's. -/
theorem and_mask_eq_pattern_iff :
    w &&& i.row.mask = i.row.pattern ↔
      w.z = 0 ∧ w.op = i.opNumber.toNat ∧ w.d &&& i.fixedLow = i.lowByte &&& i.fixedLow := by
  obtain ⟨mop, mp, mz, md⟩ := Instr.row_mask_fields i
  obtain ⟨pop, pp, pz, pd⟩ := Instr.row_pattern_fields i
  have hop : (w &&& i.row.mask).op = w.op := by
    rw [Word.and_op, mop, Nat.and_two_pow_sub_one_of_lt_two_pow (n := 4) (Word.op_lt w)]
  have hz : (w &&& i.row.mask).z = w.z := by rw [Word.and_z, mz, BitVec.and_allOnes]
  have hd : (w &&& i.row.mask).d = w.d &&& i.fixedLow := by rw [Word.and_d, md]
  constructor
  · intro h
    rw [h] at hop hz hd
    exact ⟨hz ▸ pz, hop ▸ pop, hd ▸ pd⟩
  · rintro ⟨ez, eop, ed⟩
    exact Word.ext_fields (by rw [hop, pop, eop]) (by rw [Word.and_p_of_p0 mp, pp]) (by rw [hz, pz, ez])
      (by rw [hd, pd, ed])

/-- A word belongs to the row of an operation exactly when it decodes to an operation of that row (R64). -/
theorem and_mask_eq_pattern_iff_decode :
    w &&& i.row.mask = i.row.pattern ↔ ∃ j, decode w = .op j ∧ j.row = i.row := by
  constructor
  · intro h
    obtain ⟨hz, hop, hd⟩ := and_mask_eq_pattern_iff.1 h
    have hj : decode w = .op (i.withOperands w.p w.d) :=
      decode_op_iff.2 ⟨hz, by simpa using hop, by simp, (Instr.withOperands_lowByte hd).symm⟩
    exact ⟨_, hj, Instr.withOperands_row⟩
  · rintro ⟨j, hj, hrow⟩
    obtain ⟨hz, hop, -, hd⟩ := decode_op_iff.1 hj
    rw [← hrow]
    exact and_mask_eq_pattern_iff.2 ⟨hz, hop, by rw [hd]⟩

theorem Instr.row_mem_opTable (i : Instr) : i.row ∈ opTable := by
  cases i <;> simp [opTable, Instr.row]

theorem exists_row_of_mem_opTable {r : OpRow} (h : r ∈ opTable) : ∃ i : Instr, i.row = r := by
  obtain ⟨i, -, hi⟩ := List.mem_map.1 h
  exact ⟨i, hi⟩

/-- Settles O4: the rows are disjoint because the decoder answers one operation. -/
theorem decoderAgreesWithMatchAndMask : Obligations.DecoderAgreesWithMatchAndMask := by
  refine ⟨Instr.row_mem_opTable, fun w => ⟨fun i hi => and_mask_eq_pattern_iff_decode.2 ⟨i, hi, rfl⟩, ?_, ?_⟩⟩
  · intro r hr h
    obtain ⟨i, rfl⟩ := exists_row_of_mem_opTable hr
    exact and_mask_eq_pattern_iff_decode.1 h
  · intro r hr r' hr' h h'
    obtain ⟨i, rfl⟩ := exists_row_of_mem_opTable hr
    obtain ⟨i', rfl⟩ := exists_row_of_mem_opTable hr'
    obtain ⟨j, hj, hrow⟩ := and_mask_eq_pattern_iff_decode.1 h
    obtain ⟨j', hj', hrow'⟩ := and_mask_eq_pattern_iff_decode.1 h'
    rw [hj, Verdict.op.injEq] at hj'
    rw [← hrow, ← hrow', hj']

end Sys2Proof

namespace Sys2Proof.Machine

/-! ### The turn of an agent that is not held (R6, R65, R170) -/

section
variable {s : State} {a : Agent} {w : Word}

/-- An agent that is not held presents its next word. -/
theorem issue_of_not_held (h : a = .fg → s.held = none) (hw : s.nextWord a = some w) : s.issue a = judge a w := by
  unfold State.issue
  split
  case h_1 hs => simp [hs] at h
  case h_2 => rw [hw]

/-- The word that it presents is taken off its list. -/
theorem taken_of_not_held (h : a = .fg → s.held = none) : s.taken a = s.dropOffer a := by
  unfold State.taken
  split
  case h_1 hs => simp [hs] at h
  case h_2 => rfl

theorem judge_of_invalid {why : Invalid} (h : decode w = .invalid why) : judge a w = .badWord w := by
  rw [judge, h]

end

/-- Settles O5: the causes are the decoder's, and a turn that presents such a word is `raiseFault` after it is taken. -/
theorem invalidWordsAreTheseAndAreRecorded : Obligations.InvalidWordsAreTheseAndAreRecorded := by
  refine ⟨fun w => ⟨decode_invalid_iff_outsideMap, ?_⟩, fun s a rest w why hs ha hw hbad => ?_⟩
  · rw [decode_op_iff_not_invalid, decode_invalid_iff_outsideMap, Word.wellFormed_iff]
  · refine ⟨addFault (.invalidCommand w) s.faulted, fun g => mem_addFault _ g _, ?_⟩
    rw [step_perform hs, issue_of_not_held ha hw, judge_of_invalid hbad,
      taken_of_not_held (s := { s with turns := rest }) ha]
    rfl

/-! ### PUTSTR (R69) -/

theorem stringBytes_append_zero {bytes : List Byte} (rest : List Byte) (h : 0 ∉ bytes) :
    stringBytes (bytes ++ 0 :: rest) = bytes := by
  have hne : ∀ b ∈ bytes, (b != 0) = true := fun b hb => bne_iff_ne.2 fun e => h (e ▸ hb)
  rw [stringBytes, List.takeWhile_append_of_pos hne]
  simp

/-- Settles O27. -/
theorem putstrExpandsToPutches : Obligations.PutstrExpandsToPutches := by
  intro p bytes rest h
  rw [expandPutstr, stringBytes_append_zero rest h]

end Sys2Proof.Machine
end

section
/-! The receive path (41_rx_path.md): what each of its operations does on an initialised port, one lemma per case, and
the receive ring around an empty GETCH. -/

namespace Sys2Proof.Machine

open Sys2Proof.Claims

section
variable {s t u : State} {p : PortId} {R : Ring} {c : CdcMode} {d b : Byte} {i j : Instr}

/-! ### The words of the claims -/

theorem toNat_append_eq_add {m n : Nat} (x : BitVec m) (y : BitVec n) :
    (x ++ y).toNat = x.toNat * 2 ^ n + y.toNat := by
  rw [BitVec.toNat_append, ← Nat.shiftLeft_add_eq_or_of_lt y.isLt, Nat.shiftLeft_eq]

/-- The fields of format `CMD` in their places (R60). -/
theorem encode_toNat (i : Instr) :
    (encode i).toNat = 4096 * i.opNumber.toNat + 2048 * i.port.bit.toNat + i.lowByte.toNat := by
  calc (encode i).toNat
    _ = (i.opNumber ++ i.port.bit ++ (0 : BitVec 3)).toNat * 2 ^ 8 + i.lowByte.toNat := toNat_append_eq_add ..
    _ = ((i.opNumber.toNat * 2 + i.port.bit.toNat) * 2 ^ 3 + 0) * 2 ^ 8 + i.lowByte.toNat := by
      rw [toNat_append_eq_add, toNat_append_eq_add]
      rfl
    _ = _ := by omega

theorem portBits_toNat (p : PortId) : (portBits p).toNat = 2048 * p.bit.toNat := by cases p <;> rfl

/-- A command word as the opcode map writes it: the row's word, the port's bit and the low byte, added (R64). -/
theorem encode_eq_add (i : Instr) :
    encode i = BitVec.ofNat 16 (4096 * i.opNumber.toNat) + portBits i.port + i.lowByte.setWidth 16 := by
  have hop := i.opNumber.isLt
  have hbit := i.port.bit.isLt
  have hlow := i.lowByte.isLt
  apply BitVec.eq_of_toNat_eq
  simp only [encode_toNat, portBits_toNat, BitVec.toNat_add, BitVec.toNat_ofNat, BitVec.toNat_setWidth]
  omega

/-- The word of an operation whose low byte is 0 is the row's word and the port's bit (R60, R64). -/
theorem encode_eq_add_of_lowByte (h : i.lowByte = 0) :
    encode i = BitVec.ofNat 16 (4096 * i.opNumber.toNat) + portBits i.port := by
  rw [encode_eq_add, h]
  exact BitVec.add_zero _

theorem token_eq_oneMoreToken (c : CdcMode) (n : Nat) : token c n = oneMoreToken c n := by cases c <;> rfl

/-- Only below its maximum does the counter change (R22). -/
theorem satSucc_eq_self_iff {e : Count} : satSucc e = e ↔ ¬ e.toNat < 2 ^ 32 - 1 := by
  have := e.isLt
  rw [BitVec.toNat_eq, satSucc_toNat]
  omega

theorem countError_eq_oneMoreError (c : CdcMode) (P : Port) : P.countError c = oneMoreError c P := by
  have hpend : (if satSucc P.errcnt = P.errcnt then P.pendErr else token c P.pendErr) =
      if c = .lagged ∧ P.errcnt.toNat < 2 ^ 32 - 1 then P.pendErr + 1 else P.pendErr := by
    simp only [satSucc_eq_self_iff, ite_not]
    cases c <;> simp
  rw [Port.countError, hpend]
  rfl

/-! ### One lemma per case of an operation, on an initialised port -/

theorem exec_rxpush_of_full (hi : (s.port p).inited = true) (hf : (s.port p).rx.full = true) :
    exec (.rxpush p d) s = .next ((s.setPort p ((s.port p).countError s.cdc)).respond .done) := by
  rw [exec, execRxpush, whenInited_of_inited hi, Port.rxFull, if_pos hf, complete]

theorem exec_rxpush_of_room (hi : (s.port p).inited = true) (hf : (s.port p).rx.full = false) :
    exec (.rxpush p d) s =
      .next ((s.setPort p { s.port p with rx := (s.port p).rx.push s.cdc d }).respond .done) := by
  rw [exec, execRxpush, whenInited_of_inited hi, Port.rxFull, hf, if_neg Bool.false_ne_true, complete]

theorem exec_rxerr (hi : (s.port p).inited = true) :
    exec (.rxerr p d) s = .next ((s.setPort p ((s.port p).countError s.cdc)).respond .done) := by
  rw [exec, execRxerr, whenInited_of_inited hi, complete]

theorem exec_rxavail (hi : (s.port p).inited = true) :
    exec (.rxavail p) s = .next (s.respond (.bit (s.port p).rx.avail)) := by
  rw [exec, execRxavail, whenInited_of_inited hi, answer, bitResult, Port.rxAvail]

theorem exec_getch_of_pop (hi : (s.port p).inited = true) (ha : (s.port p).rx.avail = true)
    (hb : (s.port p).rx.pop s.cdc = some (b, R)) :
    exec (.getch p) s = .next ((s.setPort p { s.port p with rx := R }).respond (.byte b)) := by
  rw [exec, execGetch, whenInited_of_inited hi, Port.rxAvail, if_pos ha, hb]
  rfl

theorem exec_getch_of_empty_polled (hi : (s.port p).inited = true) (ha : (s.port p).rx.avail = false)
    (hm : (s.port p).rxMode = .polled) :
    exec (.getch p) s = .next { s with held := some (.getch p), resp := .held } := by
  rw [exec, execGetch, whenInited_of_inited hi, Port.rxAvail, ha, if_neg Bool.false_ne_true, hm]
  rfl

theorem exec_getch_of_empty_interrupt (hi : (s.port p).inited = true) (ha : (s.port p).rx.avail = false)
    (hm : (s.port p).rxMode = .interrupt) : exec (.getch p) s = .next (s.raiseFault (.emptyPop p)) := by
  rw [exec, execGetch, whenInited_of_inited hi, Port.rxAvail, ha, if_neg Bool.false_ne_true, hm]
  rfl

theorem exec_rxflush (hi : (s.port p).inited = true) :
    exec (.rxflush p) s = .next ((s.setPort p { s.port p with rx := (s.port p).rx.clear }).respond .done) := by
  rw [exec, execRxflush, whenInited_of_inited hi, complete]

theorem exec_syncRxpush_of_pending (hi : (s.port p).inited = true) (hp : 0 < (s.port p).rx.pendPush) :
    exec (.syncRxpush p) s =
      .next ((s.setPort p { s.port p with rx := (s.port p).rx.deliverPush }).respond .done) := by
  rw [exec, execSyncRxpush, whenInited_of_inited hi, if_pos hp, complete]

/-! ### An empty GETCH, and what lifts its hold (R85) -/

/-- Under `INTERRUPT` the fault `EmptyPop` joins the recorded ones, and no value is returned. -/
theorem exec_getch_records_emptyPop (hi : (s.port p).inited = true) (hv : (s.port p).rx.viewc = 0)
    (hm : (s.port p).rxMode = .interrupt) :
    ∃ l, recorded (.emptyPop p) s.faulted l ∧
      exec (.getch p) s = .next { s with faulted := l, resp := .faulted (.emptyPop p) } :=
  ⟨_, fun g => mem_addFault _ g _, exec_getch_of_empty_interrupt hi (avail_false.2 hv) hm⟩

/-- A GETCH that sees a byte of a ring that meets the invariant returns the oldest one and takes it off the contents. -/
theorem exec_getch_of_avail (hi : (s.port p).inited = true) (hR : (s.port p).rx.Inv s.cdc)
    (ha : (s.port p).rx.avail = true) :
    ∃ t b, exec (.getch p) s = .next t ∧ t.resp = .byte b ∧
      (s.port p).rx.contents = b :: (t.port p).rx.contents := by
  obtain ⟨b, hb⟩ := hR.pop_some ha
  refine ⟨_, b, exec_getch_of_pop hi ha hb, respond_resp .., ?_⟩
  rw [respond_port, setPort_port_same]
  exact contents_pop hR ha hb

theorem runOps_pair (hi : exec i s = .next t) (hj : exec j t = .next u) : runOps [i, j] s = .next u := by
  simp only [runOps, hi, hj]

/-- GETCH after an operation that leaves the receive ring `R` with a byte in view takes the oldest byte of `R`. -/
theorem runOps_getch_of_rx {r : Response} (hi : (s.port p).inited = true)
    (h : exec i s = .next ((s.setPort p { s.port p with rx := R }).respond r)) (hR : R.Inv s.cdc)
    (ha : R.avail = true) :
    ∃ t b, runOps [i, .getch p] s = .next t ∧ t.resp = .byte b ∧ R.contents = b :: (t.port p).rx.contents := by
  obtain ⟨t, b, ht, hr, hc⟩ := exec_getch_of_avail (p := p)
    (s := (s.setPort p { s.port p with rx := R }).respond r) (by simpa) (by simpa) (by simpa)
  refine ⟨t, b, runOps_pair h ht, hr, ?_⟩
  simpa using hc

/-- Under `EXACT` a ring that shows no byte is empty: it takes a push and shows it at once (R135). -/
theorem Ring.Inv.push_of_empty (hR : R.Inv .exact) (hv : R.viewc = 0) (d : Byte) :
    R.full = false ∧ R.contents = [] ∧ (R.push .exact d).avail = true := by
  obtain ⟨hpush, hpop⟩ := hR.exact_tokens rfl
  have hcount : R.count = 0 := by rwa [Ring.viewc, hpush, Nat.sub_zero] at hv
  refine ⟨full_false.2 ?_, ?_, avail_true.2 ?_⟩
  · rw [Ring.viewp, hcount, hpop]
    exact hR.capacity.ne
  · rw [Ring.contents, hcount]
    rfl
  · simp [Ring.viewc, hpush]

/-- The consumer sees a byte once a push token is delivered, because at most the occupancy was pending (R19). -/
theorem Ring.Inv.avail_deliverPush (hR : R.Inv c) (hp : 0 < R.pendPush) : R.deliverPush.avail = true := by
  have hle := hR.pendPush_le
  rw [avail_true]
  simp only [Ring.viewc, Ring.deliverPush]
  omega

end

/-! ### The obligations about the receive path -/

/-- Settles O12: the storage after an accepted push is the written one. -/
theorem rxPushStoresOrDropsNewest : Obligations.RxPushStoresOrDropsNewest := by
  refine ⟨fun p d => ⟨rfl, encode_eq_add _⟩, fun s p d hi => ⟨fun hv => ?_, fun hv => ?_⟩⟩
  · rw [exec_rxpush_of_full hi (full_true.2 hv), countError_eq_oneMoreError]
  · refine ⟨_, fun k => read_write (s.port p).rx.storage (s.port p).rx.tail k d, ?_⟩
    rw [exec_rxpush_of_room hi (full_false.2 hv), ← token_eq_oneMoreToken]
    rfl

/-- Settles O13. -/
theorem rxErrCountsAndDiscards : Obligations.RxErrCountsAndDiscards :=
  ⟨fun _ _ => ⟨rfl, encode_eq_add _⟩, fun s p d hi => by rw [exec_rxerr hi, countError_eq_oneMoreError]⟩

/-- Settles O14. -/
theorem rxAvailReturnsTheConsumersView : Obligations.RxAvailReturnsTheConsumersView :=
  ⟨fun _ => ⟨rfl, encode_eq_add_of_lowByte rfl⟩, fun _ _ hi => exec_rxavail hi⟩

/-- Settles O16. -/
theorem getchPopsHoldsOrFaults : Obligations.GetchPopsHoldsOrFaults := by
  refine ⟨fun p => ⟨rfl, encode_eq_add_of_lowByte rfl⟩,
    fun s p hi => ⟨fun b hv hb => ?_, fun hv hm => ?_, fun hv hm => ?_⟩⟩
  · rw [exec_getch_of_pop hi (avail_true.2 hv) (pop_eq_some.2 ⟨hb, rfl⟩), ← token_eq_oneMoreToken]
    rfl
  · exact exec_getch_of_empty_polled hi (avail_false.2 hv) hm
  · exact exec_getch_records_emptyPop hi hv hm

/-- Settles O18: a flushed ring is its own flush. -/
theorem rxFlushEmptiesAndIsIdempotent : Obligations.RxFlushEmptiesAndIsIdempotent := by
  refine ⟨fun p => ⟨rfl, encode_eq_add_of_lowByte rfl⟩, fun s p hi => ⟨exec_rxflush hi, fun t ht => ?_⟩⟩
  rw [exec_rxflush hi, Host.Outcome.next.injEq] at ht
  subst ht
  rw [exec_rxflush (by simpa)]
  cases p <;> rfl

/-- Settles O17: under `EXACT` the pushed byte is the whole contents, and under `LAGGED` the delivered token shows the
oldest byte. -/
theorem emptyGetchHoldsUntilAByteArrives : Obligations.EmptyGetchHoldsUntilAByteArrives := by
  intro s p d hs hi hv
  have hR := (hs.ports p).rxRing hi
  refine ⟨fun hm => exec_getch_of_empty_polled hi (avail_false.2 hv) hm, fun hc => ?_, fun hp => ?_,
    fun hm => exec_getch_records_emptyPop hi hv hm⟩
  · obtain ⟨hroom, hempty, hseen⟩ := (hc ▸ hR).push_of_empty hv d
    obtain ⟨t, b, ht, hr, hb⟩ :=
      runOps_getch_of_rx hi (exec_rxpush_of_room hi hroom) (push_inv hR hroom) (hc ▸ hseen)
    rw [contents_push hR hroom, hempty, List.nil_append, List.cons.injEq] at hb
    exact ⟨t, ht, hb.1 ▸ hr⟩
  · exact runOps_getch_of_rx (R := (s.port p).rx.deliverPush) hi (exec_syncRxpush_of_pending hi hp)
      (deliverPush_inv hR) (hR.avail_deliverPush hp)

end Sys2Proof.Machine
end

section
/-! The transmit path (42_tx_path.md): what each of its operations does on an initialised port, one lemma per case, and
how a held PUTCH comes to complete. -/

namespace Sys2Proof.Machine

section
variable {s : State} {p : PortId} {P : Port} {R t : Ring} {c : CdcMode} {ie : Bool} {b d : Byte} {i : Instr}
  {r : Response}

/-! ### The transmit half of a port -/

theorem txContents_queued (h : P.tx = .queued t ie) : P.txContents = t.contents := by
  rw [Port.txContents, h]
  rfl

theorem txReady_queued (h : P.tx = .queued t ie) : P.txReady = decide (t.viewp < t.N) := by
  rw [Port.txReady, h]

theorem txReady_direct (h : P.tx = .direct) : P.txReady = P.hwTxReady := by
  rw [Port.txReady, h]

/-- An armed interrupt is pending while the hardware register is free (R105). -/
theorem txIrqPending_armed (h : P.tx = .queued t true) (hh : P.hwTxReady = true) : P.txIrqPending = true := by
  rw [Port.txIrqPending, Port.txIe, h, hh]
  rfl

/-- PUTCH re-arms the interrupt at once under `EXACT`, and not under `LAGGED` (R101). -/
theorem queuedAfterPut_eq (c : CdcMode) (d : Byte) (t : Ring) (ie : Bool) :
    queuedAfterPut c d t ie = .queued (t.push c d) (if c = .exact then true else ie) := by
  cases c <;> rfl

/-! ### One lemma per case of an operation, on an initialised port -/

theorem exec_putch_of_full (hi : (s.port p).inited = true) (htx : (s.port p).tx = .queued t ie)
    (hf : t.full = true) : exec (.putch p d) s = .next { s with held := some (.putch p d), resp := .held } := by
  rw [exec, execPutch, whenInited_of_inited hi, htx]
  exact if_pos hf

theorem exec_putch_of_room (hi : (s.port p).inited = true) (htx : (s.port p).tx = .queued t ie)
    (hf : t.full = false) :
    exec (.putch p d) s =
      .next ((s.setPort p { s.port p with tx := queuedAfterPut s.cdc d t ie }).respond .done) := by
  rw [exec, execPutch, whenInited_of_inited hi, htx]
  exact if_neg (ne_true_of_eq_false hf)

theorem exec_putch_of_busy (hi : (s.port p).inited = true) (htx : (s.port p).tx = .direct)
    (hh : (s.port p).hwTxReady = false) :
    exec (.putch p d) s = .next { s with held := some (.putch p d), resp := .held } := by
  rw [exec, execPutch, whenInited_of_inited hi, htx]
  exact if_neg (ne_true_of_eq_false hh)

theorem exec_putch_of_free (hi : (s.port p).inited = true) (htx : (s.port p).tx = .direct)
    (hh : (s.port p).hwTxReady = true) :
    exec (.putch p d) s = .next ((s.setPort p ((s.port p).sendByte d)).respond .done) := by
  rw [exec, execPutch, whenInited_of_inited hi, htx]
  exact if_pos hh

theorem exec_txdrain_of_pop (hi : (s.port p).inited = true) (htx : (s.port p).tx = .queued t true)
    (hh : (s.port p).hwTxReady = true) (ha : t.avail = true) (hb : t.pop s.cdc = some (b, R)) :
    exec (.txdrain p) s =
      .next ((s.setPort p ({ s.port p with tx := .queued R true }.sendByte b)).respond .done) := by
  simp only [exec, execTxdrain, whenInited_of_inited hi, htx, txIrqPending_armed htx hh, if_true, ha, hb, complete]

theorem exec_txdrain_of_empty (hi : (s.port p).inited = true) (htx : (s.port p).tx = .queued t true)
    (hh : (s.port p).hwTxReady = true) (ha : t.avail = false) :
    exec (.txdrain p) s = .next ((s.setPort p { s.port p with tx := .queued t false }).respond .done) := by
  simp only [exec, execTxdrain, whenInited_of_inited hi, htx, txIrqPending_armed htx hh, if_true, ha,
    Bool.false_eq_true, if_false, complete]

theorem exec_txdone_of_busy (hi : (s.port p).inited = true) (hh : (s.port p).hwTxReady = false) :
    exec (.txdone p) s = .next ((s.setPort p { s.port p with hwTxReady := true }).respond .done) := by
  rw [exec, execTxdone, whenInited_of_inited hi, hh, if_neg Bool.false_ne_true, complete]

theorem exec_txdone_of_free (hi : (s.port p).inited = true) (hh : (s.port p).hwTxReady = true) :
    exec (.txdone p) s = .next (s.respond .notEnabled) := by
  rw [exec, execTxdone, whenInited_of_inited hi, if_pos hh, answer]

theorem exec_txrdy (hi : (s.port p).inited = true) :
    exec (.txrdy p) s = .next (s.respond (.bit (s.port p).txReady)) := by
  rw [exec, execTxrdy, whenInited_of_inited hi, answer, bitResult]

theorem exec_syncTxpop_of_pending (hi : (s.port p).inited = true) (htx : (s.port p).tx = .queued t ie)
    (hp : 0 < t.pendPop) :
    exec (.syncTxpop p) s =
      .next ((s.setPort p { s.port p with tx := .queued t.deliverPop ie }).respond .done) := by
  rw [exec, execSyncTxpop, whenInited_of_inited hi, htx]
  exact if_pos hp

/-! ### What lifts the hold of a PUTCH (R101, R102) -/

/-- Under `EXACT` a full ring shows the drain side a byte (R135). -/
theorem Ring.Inv.avail_of_full (hR : R.Inv .exact) (hv : R.viewp = R.N) : R.avail = true := by
  obtain ⟨hpush, hpop⟩ := hR.exact_tokens rfl
  have hN := hR.capacity
  rw [Ring.viewp, hpop, Nat.add_zero] at hv
  rw [avail_true, Ring.viewc, hpush, Nat.sub_zero, hv]
  exact hN

/-- Under `EXACT` a pop leaves room (R135). -/
theorem Ring.Inv.room_dropHead (hR : R.Inv .exact) (ha : R.avail = true) : (R.dropHead .exact).full = false := by
  have hpos := count_pos ha
  have hle := hR.viewp_le
  rw [full_false]
  simp only [Ring.viewp, dropHead_count, dropHead_pendPop, dropHead_N, token_exact] at *
  omega

/-- The delivery of a pop token leaves room (R19). -/
theorem Ring.Inv.room_deliverPop (hR : R.Inv c) (hp : 0 < R.pendPop) : R.deliverPop.full = false := by
  have hle := hR.viewp_le
  rw [full_false]
  simp only [Ring.viewp, Ring.deliverPop] at *
  omega

/-- PUTCH after an operation that leaves the transmit ring `t` with room completes, and its byte is the newest. -/
theorem runOps_putch_of_room (h : exec i s = .next ((s.setPort p P).respond r)) (hi : P.inited = true)
    (htx : P.tx = .queued t ie) (ht : t.Inv s.cdc) (hf : t.full = false) (d : Byte) :
    ∃ u, runOps [i, .putch p d] s = .next u ∧ u.resp = .done ∧ (u.port p).txContents = t.contents ++ [d] ∧
      (u.port p).wireOut = P.wireOut := by
  have hput := exec_putch_of_room (s := (s.setPort p P).respond r) (p := p) (d := d) (by simpa) (by simpa) hf
  refine ⟨_, runOps_pair h hput, respond_resp .., ?_, ?_⟩
  · rw [respond_port, setPort_port_same, txContents_queued (queuedAfterPut_eq ..), respond_cdc, setPort_cdc]
    exact contents_push ht hf
  · simp

/-! ### What TXRDY says of a PUTCH (R107) -/

/-- On a port that meets the invariant PUTCH holds where TXRDY would answer false (R107). -/
theorem exec_putch_of_not_txReady (hP : (s.port p).Inv s.cdc) (hi : (s.port p).inited = true)
    (hr : (s.port p).txReady = false) :
    exec (.putch p d) s = .next { s with held := some (.putch p d), resp := .held } := by
  cases htx : (s.port p).tx with
  | queued t ie =>
    have hle := (hP.txRing hi t ie htx).viewp_le
    rw [txReady_queued htx, decide_eq_false_iff_not] at hr
    exact exec_putch_of_full hi htx (full_true.2 (by omega))
  | direct => exact exec_putch_of_busy hi htx (txReady_direct htx ▸ hr)

/-- On an initialised port PUTCH completes where TXRDY would answer true (R107). -/
theorem exec_putch_of_txReady (hi : (s.port p).inited = true) (hr : (s.port p).txReady = true) :
    ∃ P, exec (.putch p d) s = .next ((s.setPort p P).respond .done) := by
  cases htx : (s.port p).tx with
  | queued t ie =>
    rw [txReady_queued htx, decide_eq_true_eq] at hr
    exact ⟨_, exec_putch_of_room hi htx (full_false.2 hr.ne)⟩
  | direct => exact ⟨_, exec_putch_of_free hi htx (txReady_direct htx ▸ hr)⟩

theorem exec_txrdy_true_iff (hi : (s.port p).inited = true) :
    exec (.txrdy p) s = .next (s.respond (.bit true)) ↔ (s.port p).txReady = true := by
  rw [exec_txrdy hi]
  constructor
  · intro h
    injection h with h
    exact Response.bit.inj (congrArg State.resp h)
  · intro h
    rw [h]

end

/-! ### The obligations about the transmit path -/

/-- Settles O21: under `EXACT` a TXDRAIN pops the oldest byte of the full ring, whose interrupt is armed, and under
`LAGGED` the delivered token leaves the contents as they are; after either there is room. -/
theorem queuedPutchStoresOrHolds : Obligations.QueuedPutchStoresOrHolds := by
  refine ⟨fun p d => ⟨rfl, encode_eq_add _⟩, fun s p d t ie hi htx =>
    ⟨fun hv => exec_putch_of_full hi htx (full_true.2 hv), fun hv => ?_, fun hs hv hc hh => ?_, fun hs _ hp => ?_⟩⟩
  · refine ⟨_, fun k => read_write t.storage t.tail k d, ?_⟩
    rw [exec_putch_of_room hi htx (full_false.2 hv), queuedAfterPut_eq, ← token_eq_oneMoreToken]
    rfl
  · have ht := (hs.ports p).txRing hi t ie htx
    have ha := (hc ▸ ht).avail_of_full hv
    obtain rfl := (hs.ports p).armed hi t ie htx (avail_true.1 ha)
    obtain ⟨b, hb⟩ := ht.pop_some ha
    obtain ⟨u, hu, hr, hcont, hwire⟩ := runOps_putch_of_room (exec_txdrain_of_pop hi htx hh ha hb) hi rfl
      (dropHead_inv ht ha) (hc ▸ (hc ▸ ht).room_dropHead ha) d
    refine ⟨u, b, hu, hr, ?_, hwire⟩
    rw [hcont, contents_pop ht ha hb, List.cons_append]
  · have ht := (hs.ports p).txRing hi t ie htx
    obtain ⟨u, hu, hr, hcont, -⟩ := runOps_putch_of_room (exec_syncTxpop_of_pending hi htx hp) hi rfl
      (deliverPop_inv ht) (ht.room_deliverPop hp) d
    exact ⟨u, hu, hr, hcont⟩

/-- Settles O22. -/
theorem directPutchSendsOrHolds : Obligations.DirectPutchSendsOrHolds := by
  refine ⟨fun p d => ⟨rfl, encode_eq_add _⟩, fun s p d hi htx =>
    ⟨fun hh => ⟨exec_putch_of_busy hi htx hh, ?_⟩, fun hh => exec_putch_of_free hi htx hh⟩⟩
  have hput := exec_putch_of_free (s := (s.setPort p { s.port p with hwTxReady := true }).respond .done) (p := p)
    (d := d) (by simpa) (by simpa) (by simp)
  refine ⟨_, runOps_pair (exec_txdone_of_busy hi hh) hput, respond_resp .., ?_⟩
  simp [Port.sendByte]

/-- Settles O26: both sides of the equivalence are `txReady`. -/
theorem txReadyTellsWhetherPutchHolds : Obligations.TxReadyTellsWhetherPutchHolds := by
  refine ⟨fun p => ⟨rfl, encode_eq_add_of_lowByte rfl⟩, fun s p hi =>
    ⟨fun t ie htx => ?_, fun htx => ?_, fun hs d => ?_⟩⟩
  · rw [exec_txrdy hi, txReady_queued htx]
  · rw [exec_txrdy hi, txReady_direct htx]
  · rw [exec_txrdy_true_iff hi]
    constructor
    · intro hr
      obtain ⟨P, hput⟩ := exec_putch_of_txReady (d := d) hi hr
      exact ⟨_, hput, respond_resp .., by simp⟩
    · rintro ⟨t, hput, hdone, -⟩
      by_contra hr
      have hheld := exec_putch_of_not_txReady (d := d) (hs.ports p) hi (Bool.eq_false_of_not_eq_true hr)
      obtain rfl := Host.Outcome.next.inj (hput.symm.trans hheld)
      cases hdone

/-- Settles O23. -/
theorem txDrainSendsOneByteOrDisarms : Obligations.TxDrainSendsOneByteOrDisarms := by
  refine ⟨fun p => ⟨rfl, encode_eq_add_of_lowByte rfl⟩, fun s p t hi htx hh => ⟨fun b hv hb => ?_, fun hv => ?_⟩⟩
  · rw [exec_txdrain_of_pop hi htx hh (avail_true.2 hv) (pop_eq_some.2 ⟨hb, rfl⟩), ← token_eq_oneMoreToken]
    rfl
  · exact exec_txdrain_of_empty hi htx hh (avail_false.2 hv)

/-- Settles O25: on a port not yet initialised, and with the register free, TXDONE answers something else. -/
theorem txDoneFreesTheHardwareRegister : Obligations.TxDoneFreesTheHardwareRegister := by
  refine ⟨fun p => ⟨rfl, encode_eq_add_of_lowByte rfl⟩, fun s p hi hh => exec_txdone_of_busy hi hh,
    fun s t p ht hdone => ?_⟩
  by_contra hh
  rw [Bool.not_eq_false] at hh
  cases hi : (s.port p).inited with
  | false =>
    obtain rfl := Host.Outcome.next.inj (ht.symm.trans (exec_of_not_inited (by simp) hi))
    cases hdone
  | true =>
    obtain rfl := Host.Outcome.next.inj (ht.symm.trans (exec_txdone_of_free hi hh))
    cases hdone

end Sys2Proof.Machine
end

section
/-! Initialisation and status (43_status_config.md): what each of its operations does, the flags of a port right after
INIT, and the error counter after ERRCLR. -/

namespace Sys2Proof.Machine

section
variable {s : State} {p : PortId} {P : Port} {R : Ring} {x : TxPath}

/-! ### One lemma per operation, ERRQ and ERRCLR on an initialised port -/

theorem exec_init (s : State) (p : PortId) :
    exec (.init p) s = .next ((s.setPort p (s.port p).initialised).respond .done) := by
  rw [exec, execInit, complete]

theorem exec_errq (hi : (s.port p).inited = true) :
    exec (.errq p) s = .next (s.respond (.count (s.port p).errview)) := by
  rw [exec, execErrq, whenInited_of_inited hi, answer, countResult]

theorem exec_errclr (hi : (s.port p).inited = true) :
    exec (.errclr p) s =
      .next ((s.setPort p { s.port p with errcnt := (s.port p).errcnt - (s.port p).errview }).respond
        (.count (s.port p).errview)) := by
  rw [exec, execErrclr, whenInited_of_inited hi, complete, countResult]

/-! ### The flags of a port after INIT (R25, R26, R120) -/

@[simp] theorem clear_avail : R.clear.avail = false := avail_false.2 rfl

/-- An empty ring is full only at capacity 0, which no legal configuration has (R4). -/
theorem clear_full (hN : 0 < R.N) : R.clear.full = false := full_false.2 hN.ne

/-- What fails of the cleared transmit ring fails of the cleared transmit half, which has a ring or none (R10). -/
theorem clear_ring?_any {f : Ring → Bool} (h : ∀ t ∈ x.ring?, f t.clear = false) : x.clear.ring?.any f = false := by
  cases x with
  | queued t ie => exact h t rfl
  | direct => rfl

@[simp] theorem clear_ie?_getD : x.clear.ie?.getD false = false := by cases x <;> rfl

theorem ring_capacity_of_wellFormed (h : x.mode.wellFormed = true) : ∀ t ∈ x.ring?, 0 < t.N := by
  intro t ht
  cases x with
  | queued t' ie =>
    cases ht
    exact of_decide_eq_true h
  | direct => cases ht

/-- Both rings of a port with a legal configuration have a slot (R4). -/
theorem capacities_of_wellFormed (h : P.config.wellFormed = true) : 0 < P.rx.N ∧ ∀ t ∈ P.tx.ring?, 0 < t.N := by
  obtain ⟨hrx, htx⟩ := Bool.and_eq_true_iff.1 h
  exact ⟨of_decide_eq_true hrx, ring_capacity_of_wellFormed htx⟩

theorem port_config_wellFormed (h : s.config.wellFormed = true) (p : PortId) :
    (s.port p).config.wellFormed = true := by
  obtain ⟨h0, h1⟩ := Bool.and_eq_true_iff.1 h
  cases p with
  | p0 => exact h0
  | p1 => exact h1

@[simp] theorem initialised_rxAvail : P.initialised.rxAvail = false := clear_avail

@[simp] theorem initialised_txNonempty : P.initialised.txNonempty = false :=
  clear_ring?_any fun _ _ => clear_avail

@[simp] theorem initialised_txIe : P.initialised.txIe = false := clear_ie?_getD

@[simp] theorem initialised_active : P.initialised.active = false :=
  Bool.or_eq_false_iff.2 ⟨rfl, clear_ring?_any fun _ _ => rfl⟩

theorem initialised_rxFull (h : P.config.wellFormed = true) : P.initialised.rxFull = false :=
  clear_full (capacities_of_wellFormed h).1

theorem initialised_txFull (h : P.config.wellFormed = true) : P.initialised.txFull = false :=
  clear_ring?_any fun t ht => clear_full ((capacities_of_wellFormed h).2 t ht)

/-! ### The error counter after ERRCLR (R23, R122) -/

/-- The counter without its view is the events still under way. -/
theorem errcnt_sub_errview (h : P.pendErr ≤ P.errcnt.toNat) :
    P.errcnt - P.errview = BitVec.ofNat 32 P.pendErr := by
  have hle : P.errview ≤ P.errcnt := by
    rw [BitVec.le_def, errview_toNat]
    exact Nat.sub_le ..
  apply BitVec.eq_of_toNat_eq
  rw [BitVec.toNat_sub_of_le hle, errview_toNat, Nat.sub_sub_self h, BitVec.toNat_ofNat,
    Nat.mod_eq_of_lt (h.trans_lt P.errcnt.isLt)]

theorem exec_errclr_of_le (hi : (s.port p).inited = true) (hle : (s.port p).pendErr ≤ (s.port p).errcnt.toNat) :
    exec (.errclr p) s =
      .next ((s.setPort p { s.port p with errcnt := BitVec.ofNat 32 (s.port p).pendErr }).respond
        (.count (s.port p).errview)) := by
  rw [exec_errclr hi, errcnt_sub_errview hle]

end

/-! ### The obligations about initialisation and status -/

/-- Settles O33: the view of the counter is `errview`. -/
theorem errqReturnsTheView : Obligations.ErrqReturnsTheView :=
  ⟨fun _ => ⟨rfl, encode_eq_add_of_lowByte rfl⟩, fun _ _ hi => exec_errq hi⟩

/-- Settles O34: what is left in the counter is `pend_err`, which the invariant makes 0 under `EXACT`. -/
theorem errclrReturnsAndClearsTheView : Obligations.ErrclrReturnsAndClearsTheView := by
  refine ⟨fun p => ⟨rfl, encode_eq_add_of_lowByte rfl⟩, fun s p hi hle =>
    ⟨exec_errclr_of_le hi hle, fun hs hc t ht => ?_⟩⟩
  obtain rfl := Host.Outcome.next.inj ((exec_errclr_of_le hi hle).symm.trans ht)
  rw [respond_port, setPort_port_same]
  exact congrArg (BitVec.ofNat 32) ((hs.ports p).exact_errors hi hc)

/-- Settles O32: after INIT the flags are those of cleared rings, and only the two full flags need the legal
capacities. -/
theorem initResetsThePort : Obligations.InitResetsThePort := by
  refine ⟨fun p => ⟨rfl, encode_eq_add_of_lowByte rfl⟩, fun s p => ⟨exec_init s p, fun hwf t ht => ?_⟩⟩
  have hp := port_config_wellFormed hwf p
  obtain rfl := Host.Outcome.next.inj ((exec_init s p).symm.trans ht)
  rw [respond_port, setPort_port_same]
  exact ⟨initialised_rxAvail, initialised_rxFull hp, initialised_txFull hp, initialised_txNonempty, initialised_txIe,
    initialised_active⟩

end Sys2Proof.Machine
end

section
/-! The status synchronisers (44_cdc_sync.md), by channel: what a delivery does to a port, that two deliveries commute,
that only a delivery or a reset takes tokens off a channel (R145), and from these the delivery in a fair execution
(R141). -/

namespace Sys2Proof.Machine

/-! ### The channels (R60, R136 to R140) -/

/-- The five channels of SYNC, in the order of their numbers (R64). -/
inductive SyncChannel where
  | rxPush
  | rxPop
  | txPush
  | txPop
  | err

/-- The delivery operation of a channel on port `p`. -/
def SyncChannel.op (p : PortId) : SyncChannel → Instr
  | .rxPush => .syncRxpush p
  | .rxPop => .syncRxpop p
  | .txPush => .syncTxpush p
  | .txPop => .syncTxpop p
  | .err => .syncErr p

/-- The tokens pending on a channel of a port; none on a transmit channel of a direct port. -/
def SyncChannel.pending (P : Port) : SyncChannel → Nat
  | .rxPush => P.rx.pendPush
  | .rxPop => P.rx.pendPop
  | .txPush => P.tx.ring?.elim 0 fun t => t.pendPush
  | .txPop => P.tx.ring?.elim 0 fun t => t.pendPop
  | .err => P.pendErr

/-- The transmit half with a push token delivered, where one is pending: it re-arms the interrupt (R138). -/
def TxPath.deliverPush : TxPath → TxPath
  | .queued t ie => .queued t.deliverPush (if 0 < t.pendPush then true else ie)
  | .direct => .direct

/-- The transmit half with a pop token delivered, where one is pending (R139). -/
def TxPath.deliverPop : TxPath → TxPath
  | .queued t ie => .queued t.deliverPop ie
  | .direct => .direct

/-- The port with a token of the channel delivered, where one is pending. -/
def SyncChannel.deliver (P : Port) : SyncChannel → Port
  | .rxPush => { P with rx := P.rx.deliverPush }
  | .rxPop => { P with rx := P.rx.deliverPop }
  | .txPush => { P with tx := P.tx.deliverPush }
  | .txPop => { P with tx := P.tx.deliverPop }
  | .err => { P with pendErr := P.pendErr - 1 }

/-- The state with a token of the channel of port `p` delivered, where one is pending. -/
def State.deliver (ch : SyncChannel) (p : PortId) (s : State) : State := s.setPort p (ch.deliver (s.port p))

section
variable {ch ch' : SyncChannel} {p q : PortId} {P P' : Port} {s : State} {t : Ring} {ie : Bool} {i : Instr}
  {c : CdcMode}

theorem mem_syncOps_iff : i ∈ syncOps p ↔ ∃ ch : SyncChannel, ch.op p = i := by
  constructor
  · intro h
    simp only [syncOps, List.mem_cons, List.not_mem_nil, or_false] at h
    obtain rfl | rfl | rfl | rfl | rfl := h
    · exact ⟨.rxPush, rfl⟩
    · exact ⟨.rxPop, rfl⟩
    · exact ⟨.txPush, rfl⟩
    · exact ⟨.txPop, rfl⟩
    · exact ⟨.err, rfl⟩
  · rintro ⟨ch, rfl⟩
    cases ch <;> simp [syncOps, SyncChannel.op]

theorem tokens_op (ch : SyncChannel) (p : PortId) (s : State) : tokens (ch.op p) s = ch.pending (s.port p) := by
  cases ch <;> rfl

theorem owed_op (ch : SyncChannel) (p : PortId) (s : State) :
    owed (ch.op p) s = ((s.port p).inited && decide (0 < ch.pending (s.port p))) := by
  cases ch <;> rfl

theorem pending_txPush_queued (h : P.tx = .queued t ie) : SyncChannel.txPush.pending P = t.pendPush := by
  rw [SyncChannel.pending, h]
  rfl

theorem pending_txPop_queued (h : P.tx = .queued t ie) : SyncChannel.txPop.pending P = t.pendPop := by
  rw [SyncChannel.pending, h]
  rfl

theorem pending_txPush_direct (h : P.tx = .direct) : SyncChannel.txPush.pending P = 0 := by
  rw [SyncChannel.pending, h]
  rfl

theorem pending_txPop_direct (h : P.tx = .direct) : SyncChannel.txPop.pending P = 0 := by
  rw [SyncChannel.pending, h]
  rfl

/-! ### What a delivery does -/

@[simp] theorem deliver_inited : (ch.deliver P).inited = P.inited := by cases ch <;> rfl

theorem pending_deliver (ch : SyncChannel) (P : Port) : ch.pending (ch.deliver P) = ch.pending P - 1 := by
  obtain ⟨_, _, tx, _, _, _, _, _⟩ := P
  cases tx <;> cases ch <;> rfl

/-- Without a pending token a delivery has no effect. -/
theorem deliver_of_pending_zero (h : ch.pending P = 0) : ch.deliver P = P := by
  obtain ⟨_, ⟨⟩, tx, _, _, _, _, _⟩ := P
  cases ch with
  | rxPush | rxPop | err => cases (show _ = 0 from h); rfl
  | txPush | txPop =>
    cases tx with
    | queued t ie =>
      obtain ⟨⟩ := t
      cases (show _ = 0 from h)
      rfl
    | direct => rfl

/-- Deliveries to one port commute: different channels count in different fields. -/
theorem deliver_comm (ch ch' : SyncChannel) (P : Port) : ch.deliver (ch'.deliver P) = ch'.deliver (ch.deliver P) := by
  obtain ⟨_, _, tx, _, _, _, _, _⟩ := P
  cases tx <;> cases ch <;> cases ch' <;> rfl

/-- SYNC on an initialised port asks whether a token is pending and delivers it (R136 to R140). -/
theorem exec_op_of_inited (hi : (s.port p).inited = true) :
    exec (ch.op p) s =
      if 0 < ch.pending (s.port p) then complete p (ch.deliver (s.port p)) .done s else answer .done s := by
  cases ch with
  | rxPush =>
    rw [SyncChannel.op, exec, execSyncRxpush, whenInited_of_inited hi]
    rfl
  | rxPop =>
    rw [SyncChannel.op, exec, execSyncRxpop, whenInited_of_inited hi]
    rfl
  | err =>
    rw [SyncChannel.op, exec, execSyncErr, whenInited_of_inited hi]
    rfl
  | txPush =>
    rw [SyncChannel.op, exec, execSyncTxpush, whenInited_of_inited hi, SyncChannel.pending, SyncChannel.deliver]
    cases (s.port p).tx with
    | queued t ie =>
      refine if_ctx_congr Iff.rfl (fun h => ?_) fun _ => rfl
      rw [TxPath.deliverPush, if_pos (show 0 < t.pendPush from h)]
    | direct => rfl
  | txPop =>
    rw [SyncChannel.op, exec, execSyncTxpop, whenInited_of_inited hi, SyncChannel.pending, SyncChannel.deliver]
    cases (s.port p).tx <;> rfl

/-- Without a pending token SYNC has no effect, as always on the transmit channels of a direct port (R67). -/
theorem exec_op_of_pending_zero (hi : (s.port p).inited = true) (h : ch.pending (s.port p) = 0) :
    exec (ch.op p) s = .next (s.respond .done) := by
  rw [exec_op_of_inited hi, h, if_neg (lt_irrefl 0), answer]

/-- SYNC on an initialised port completes: the channel's delivery is all it does (R136 to R140). -/
theorem exec_op (ch : SyncChannel) (hi : (s.port p).inited = true) :
    exec (ch.op p) s = .next ((s.deliver ch p).respond .done) := by
  rw [exec_op_of_inited hi, State.deliver]
  split
  · rfl
  · rw [deliver_of_pending_zero (by omega), setPort_self, answer]

/-! ### Who takes tokens off a channel (R145, R165) -/

/-- A port stays queued (R27). -/
theorem PortMove.tx_queued (m : PortMove c i p P P') (h : P.tx = .queued t ie) :
    ∃ t' ie', P'.tx = .queued t' ie' := by
  have hmode : P'.tx.mode = P.tx.mode := congrArg PortConfig.txMode m.config_eq
  cases h' : P'.tx with
  | queued t' ie' => exact ⟨t', ie', rfl⟩
  | direct => rw [h, h'] at hmode; cases hmode

/-- Only its delivery and the resets of its port lower a channel's pending counter. -/
theorem PortMove.pending_lowered (m : PortMove c i p P P') (h : ch.pending P' < ch.pending P) :
    i = ch.op p ∨ i ∈ tokenResets (ch.op p) := by
  cases ch with
  | rxPush =>
    refine (m.rx_move.pendPush_lowered h).imp_right fun who => ?_
    simpa [SyncChannel.op, tokenResets] using who.symm
  | rxPop =>
    refine (m.rx_move.pendPop_lowered h).imp_right fun who => ?_
    simpa [SyncChannel.op, tokenResets] using who.symm
  | err => exact (m.pendErr_lowered h).imp_right List.mem_singleton.2
  | txPush =>
    cases htx : P.tx with
    | direct => rw [pending_txPush_direct htx] at h; exact absurd h (Nat.not_lt_zero _)
    | queued t ie =>
      obtain ⟨t', ie', htx'⟩ := m.tx_queued htx
      rw [pending_txPush_queued htx, pending_txPush_queued htx'] at h
      exact ((m.tx_move htx htx').1.pendPush_lowered h).imp_right List.mem_singleton.2
  | txPop =>
    cases htx : P.tx with
    | direct => rw [pending_txPop_direct htx] at h; exact absurd h (Nat.not_lt_zero _)
    | queued t ie =>
      obtain ⟨t', ie', htx'⟩ := m.tx_queued htx
      rw [pending_txPop_queued htx, pending_txPop_queued htx'] at h
      exact ((m.tx_move htx htx').1.pendPop_lowered h).imp_right List.mem_singleton.2

/-! ### Two deliveries in either order (R141) -/

theorem setPort_comm (h : p ≠ q) : (s.setPort p P).setPort q P' = (s.setPort q P').setPort p P := by
  cases p <;> cases q
  · exact absurd rfl h
  · rfl
  · rfl
  · exact absurd rfl h

theorem deliver_port_other (h : q ≠ p) : (s.deliver ch p).port q = s.port q := setPort_port_other _ _ _ _ h

@[simp] theorem state_deliver_inited : ((s.deliver ch p).port q).inited = (s.port q).inited := by
  rcases eq_or_ne q p with rfl | h
  · simp [State.deliver]
  · rw [deliver_port_other h]

@[simp] theorem respond_deliver (s : State) (r : Response) :
    (s.respond r).deliver ch p = (s.deliver ch p).respond r := by
  cases p <;> rfl

/-- Any two deliveries commute, on one port or on two. -/
theorem state_deliver_comm (ch ch' : SyncChannel) (p q : PortId) (s : State) :
    (s.deliver ch p).deliver ch' q = (s.deliver ch' q).deliver ch p := by
  rcases eq_or_ne p q with rfl | h
  · simp only [State.deliver, setPort_port_same, setPort_setPort, deliver_comm ch']
  · calc (s.deliver ch p).deliver ch' q
      _ = (s.deliver ch p).setPort q (ch'.deliver (s.port q)) := by rw [State.deliver, deliver_port_other h.symm]
      _ = (s.deliver ch' q).setPort p (ch.deliver (s.port p)) := setPort_comm h
      _ = (s.deliver ch' q).deliver ch p := by rw [← deliver_port_other h, ← State.deliver]

theorem runOps_op_op (hp : (s.port p).inited = true) (hq : (s.port q).inited = true) :
    runOps [ch.op p, ch'.op q] s = .next (((s.deliver ch p).deliver ch' q).respond .done) :=
  runOps_pair (exec_op ch hp) ((exec_op ch' (by simpa)).trans (by rw [respond_deliver]; rfl))

end

/-! ### Along an execution -/

section
variable {e : Execution} {ch : SyncChannel} {p : PortId} {i : Instr} {n : Nat}

theorem times_succ (e : Execution) (i : Instr) (n k : Nat) :
    e.times i n (k + 1) = e.times i n k + if e.performed (n + k) = some i then 1 else 0 := by
  simp [Execution.times, List.range_succ, List.countP_append, List.countP_singleton]

theorem times_mono (e : Execution) (i : Instr) (n : Nat) : Monotone (e.times i n) :=
  monotone_nat_of_le_succ fun k => by rw [times_succ]; exact Nat.le_add_right _ _

/-- The step that performs `i` is `i`, on a state with the same ports. -/
theorem Execution.Valid.exec_performed (hv : e.Valid) (h : e.performed n = some i) :
    ∃ u, exec i u = .next (e.states (n + 1)) ∧ ∀ q, u.port q = (e.states n).port q := by
  obtain ⟨u, hu, hport, -⟩ := step_currentOp h
  exact ⟨u, hu ▸ hv n, fun q => (hport q).trans (load_port ..)⟩

theorem Execution.Valid.port_of_performed_none (hv : e.Valid) (h : e.performed n = none) (q : PortId) :
    (e.states (n + 1)).port q = (e.states n).port q :=
  (step_noOp_port h (hv n) q).trans (load_port ..)

/-- An initialised port stays initialised (R31). -/
theorem Execution.Valid.inited_next (hv : e.Valid) (hi : ((e.states n).port p).inited = true) :
    ((e.states (n + 1)).port p).inited = true := by
  cases h : e.performed n with
  | none => rwa [hv.port_of_performed_none h]
  | some j =>
    obtain ⟨u, hu, hport⟩ := hv.exec_performed h
    rcases (exec_portMove hu p).inited_eq_or with hsame | ⟨-, hset⟩
    · rwa [hsame, hport]
    · exact hset

theorem Execution.Valid.inited_add (hv : e.Valid) (hi : ((e.states n).port p).inited = true) (k : Nat) :
    ((e.states (n + k)).port p).inited = true := by
  induction k with
  | zero => exact hi
  | succ k ih => exact hv.inited_next ih

/-- A step that resets nothing takes at most one token off a channel, and that by performing the delivery. -/
theorem Execution.Valid.pending_le_next (hv : e.Valid) (hi : ((e.states n).port p).inited = true)
    (hr : ∀ r ∈ tokenResets (ch.op p), e.performed n ≠ some r) :
    ch.pending ((e.states n).port p) ≤
      ch.pending ((e.states (n + 1)).port p) + if e.performed n = some (ch.op p) then 1 else 0 := by
  cases h : e.performed n with
  | none => rw [hv.port_of_performed_none h]; exact Nat.le_add_right _ _
  | some j =>
    obtain ⟨u, hu, hport⟩ := hv.exec_performed h
    by_cases hj : j = ch.op p
    · subst hj
      rw [exec_op ch (by rwa [hport])] at hu
      rw [← Host.Outcome.next.inj hu, respond_port, State.deliver, setPort_port_same, pending_deliver, hport, if_pos rfl]
      omega
    · have hle : ¬ ch.pending ((e.states (n + 1)).port p) < ch.pending (u.port p) := fun hlt =>
        ((exec_portMove hu p).pending_lowered hlt).elim hj fun hmem => hr j hmem h
      rw [hport] at hle
      omega

/-- While nothing is reset, every token that was pending is pending still or was delivered. -/
theorem Execution.Valid.pending_le_add_times (hv : e.Valid) (hi : ((e.states n).port p).inited = true)
    (hr : ∀ j, ∀ r ∈ tokenResets (ch.op p), e.performed (n + j) ≠ some r) (k : Nat) :
    ch.pending ((e.states n).port p) ≤ ch.pending ((e.states (n + k)).port p) + e.times (ch.op p) n k := by
  induction k with
  | zero => exact Nat.le_add_right _ _
  | succ k ih =>
    have := hv.pending_le_next (hv.inited_add hi k) (hr k)
    rw [times_succ, ← Nat.add_assoc n k 1]
    omega

/-- While nothing is reset, fairness brings about as many deliveries as tokens were pending (R141). -/
theorem Execution.Fair.le_times (hf : e.Fair) (hv : e.Valid) (hi : ((e.states n).port p).inited = true)
    (hr : ∀ j, ∀ r ∈ tokenResets (ch.op p), e.performed (n + j) ≠ some r) :
    ∀ a ≤ ch.pending ((e.states n).port p), ∃ k, a ≤ e.times (ch.op p) n k := by
  intro a
  induction a with
  | zero => exact fun _ => ⟨0, Nat.zero_le _⟩
  | succ a ih =>
    intro ha
    obtain ⟨k, hk⟩ := ih (by omega)
    obtain ⟨m, hm, hstop⟩ := hf (ch.op p) (n + k)
    obtain ⟨l, rfl⟩ := Nat.exists_eq_add_of_le (show n ≤ m by omega)
    rcases hstop with hnot | hdone
    · rw [owed_op, hv.inited_add hi, Bool.true_and, decide_eq_false_iff_not] at hnot
      have := hv.pending_le_add_times hi hr l
      exact ⟨l, by omega⟩
    · have := times_mono e (ch.op p) n (show k ≤ l by omega)
      exact ⟨l + 1, by rw [times_succ, if_pos hdone]; omega⟩

end

/-! ### An execution that delivers late (R141) -/

/-- Port 0 right after INIT and RXERR under `LAGGED`: one error event is under way. -/
def eventPending : State :=
  { State.powerOn { Config.reference with cdc := .lagged } with
    port0 := (Port.powerOn Config.reference.port0).initialised.countError .lagged }

/-- What the execution's outside adds after `bound` steps: SYNC.ERR, and a turn for its agent. -/
def syncErrOffer : Offer := { agent := .syn .p0, word := 0xB004 }

/-- The event is delivered: SYNC.ERR has completed. -/
def eventDelivered : State := (eventPending.deliver .err .p0).respond .done

/-- The execution that stays in `eventPending` for `bound` steps, in which nobody has a turn, and then delivers the
event. -/
def lateDelivery (bound : Nat) : Execution where
  states n := if n ≤ bound then eventPending else eventDelivered
  turns n := if n = bound then [syncErrOffer.agent] else []
  offers n := if n = bound then [syncErrOffer] else []

section
variable {bound n : Nat}

theorem lateDelivery_states_of_le (h : n ≤ bound) : (lateDelivery bound).states n = eventPending := if_pos h

theorem lateDelivery_states_of_lt (h : bound < n) : (lateDelivery bound).states n = eventDelivered :=
  if_neg (Nat.not_le.2 h)

theorem lateDelivery_before_of_ne (h : n ≠ bound) : (lateDelivery bound).before n = (lateDelivery bound).states n := by
  simp [Execution.before, State.load, lateDelivery, h]

theorem lateDelivery_before_bound (bound : Nat) :
    (lateDelivery bound).before bound = eventPending.load [syncErrOffer.agent] [syncErrOffer] := by
  simp [Execution.before, lateDelivery]

theorem step_syncErrOffer :
    step (eventPending.load [syncErrOffer.agent] [syncErrOffer]) = .next eventDelivered := rfl

theorem lateDelivery_valid (bound : Nat) : (lateDelivery bound).Valid := by
  intro n
  rcases lt_trichotomy n bound with h | rfl | h
  · rw [lateDelivery_before_of_ne h.ne, lateDelivery_states_of_le h.le, lateDelivery_states_of_le h]
    exact step_idle rfl
  · rw [lateDelivery_before_bound, lateDelivery_states_of_lt (Nat.lt_succ_self n)]
    exact step_syncErrOffer
  · rw [lateDelivery_before_of_ne h.ne', lateDelivery_states_of_lt h, lateDelivery_states_of_lt (by omega)]
    exact step_idle rfl

/-- After the delivery nothing is owed: port 0 has no token and a free register, and port 1 is not initialised. -/
theorem not_owed_eventDelivered (i : Instr) : owed i eventDelivered = false := by
  cases i with
  | txdrain p | txdone p | syncRxpush p | syncRxpop p | syncTxpush p | syncTxpop p | syncErr p => cases p <;> rfl
  | _ => exact Bool.and_false _

theorem lateDelivery_fair (bound : Nat) : (lateDelivery bound).Fair := by
  intro i n
  refine ⟨n + (bound + 1), by omega, .inl ?_⟩
  rw [lateDelivery_states_of_lt (by omega), not_owed_eventDelivered]

end

/-! ### The obligations about the synchronisers -/

/-- Settles O37: both are `exec_op` on a channel of the receive ring. -/
theorem receiveSynchronisersDeliverOneToken : Obligations.ReceiveSynchronisersDeliverOneToken :=
  ⟨fun p => by cases p <;> decide, fun _ _ hi => ⟨exec_op .rxPush hi, exec_op .rxPop hi⟩⟩

/-- Settles O38: on a direct port no token is pending. -/
theorem transmitSynchronisersDeliverOneToken : Obligations.TransmitSynchronisersDeliverOneToken := by
  refine ⟨fun p => by cases p <;> decide, fun s p hi => ⟨fun t ie htx => ?_, fun htx => ?_⟩⟩
  · have hpush := exec_op .txPush hi
    have hpop := exec_op .txPop hi
    simp only [State.deliver, SyncChannel.deliver, htx] at hpush hpop
    exact ⟨hpush, hpop⟩
  · exact ⟨exec_op_of_pending_zero (ch := .txPush) hi (pending_txPush_direct htx),
      exec_op_of_pending_zero (ch := .txPop) hi (pending_txPop_direct htx)⟩

/-- Settles O39. -/
theorem errorSynchroniserDeliversOneEvent : Obligations.ErrorSynchroniserDeliversOneEvent :=
  ⟨fun p => by cases p <;> decide, fun _ _ hi => exec_op .err hi⟩

/-- Settles O58: fairness brings about one delivery after another until no token is left, `lateDelivery` waits as long as
one likes, and deliveries commute. -/
theorem deliveryIsFairUnboundedAndUnordered : Obligations.DeliveryIsFairUnboundedAndUnordered := by
  refine ⟨fun e p i n hv hf hmem hi => ?_, fun bound => ?_, fun s p q i j hmem hmem' hp hq => ?_⟩
  · obtain ⟨ch, rfl⟩ := mem_syncOps_iff.1 hmem
    by_cases hr : ∃ j, ∃ r ∈ tokenResets (ch.op p), e.performed (n + j) = some r
    · obtain ⟨j, hj⟩ := hr
      exact ⟨j + 1, .inl ⟨j, Nat.lt_succ_self j, hj⟩⟩
    · obtain ⟨k, hk⟩ := hf.le_times hv hi (fun j r hreset h => hr ⟨j, r, hreset, h⟩) _ le_rfl
      exact ⟨k, .inr (tokens_op ch p _ ▸ hk)⟩
  · refine ⟨lateDelivery bound, .syncErr .p0, lateDelivery_valid bound, lateDelivery_fair bound, ?_, fun n hn => ?_,
      bound + 1, ?_⟩
    · rw [lateDelivery_states_of_le (Nat.zero_le _)]
      decide
    · rw [lateDelivery_states_of_le hn, lateDelivery_states_of_le (Nat.zero_le _)]
    · rw [lateDelivery_states_of_lt (Nat.lt_succ_self _)]
      rfl
  · obtain ⟨ch, rfl⟩ := mem_syncOps_iff.1 hmem
    obtain ⟨ch', rfl⟩ := mem_syncOps_iff.1 hmem'
    refine ⟨_, _, runOps_op_op hp hq, runOps_op_op hq hp, ?_⟩
    rw [state_deliver_comm]
    rfl

end Sys2Proof.Machine
end

section
/-! Model faults (60_exceptions.md): an operation that answers a fault has raised it and done nothing else, an agent's
turn that answers a fault raised it last, and a recorded fault stays. -/

namespace Sys2Proof.Machine

section
variable {s t : State} {i : Instr} {p : PortId} {r : Response} {f g : ModelFault} {what : Issue}

/-! ### An operation that answers a fault (R160) -/

/-- Where the outcome `x` of an operation in state `s` answers a model fault, it is `s` with that fault raised. -/
def FaultAnswerIsRaised (s : State) (x : Result) : Prop :=
  ∀ t f, x = .next t → t.resp = .faulted f → t = s.raiseFault f

namespace FaultAnswerIsRaised

theorem of_complete {P : Port} (hr : ∀ f, r ≠ .faulted f) : FaultAnswerIsRaised s (complete p P r s) := by
  intro t f h hf
  rw [complete_next.1 h, respond_resp] at hf
  exact absurd hf (hr f)

theorem of_answer (hr : ∀ f, r ≠ .faulted f) : FaultAnswerIsRaised s (answer r s) := by
  intro t f h hf
  rw [answer_next.1 h, respond_resp] at hf
  exact absurd hf (hr f)

theorem of_hold : FaultAnswerIsRaised s (hold i s) := by
  intro t f h hf
  rw [hold_next.1 h] at hf
  cases hf

theorem of_faultWith : FaultAnswerIsRaised s (faultWith f s) := by
  intro t g h hg
  rw [faultWith_next.1 h] at hg ⊢
  cases hg
  rfl

theorem of_stop {φ : Fault} : FaultAnswerIsRaised s (.fault φ) := by
  intro t f h
  cases h

theorem of_ite {c : Prop} [Decidable c] {x y : Result} (hx : FaultAnswerIsRaised s x) (hy : FaultAnswerIsRaised s y) :
    FaultAnswerIsRaised s (if c then x else y) := by
  split
  · exact hx
  · exact hy

theorem of_whenInited {k : Port → Result} (hk : FaultAnswerIsRaised s (k (s.port p))) :
    FaultAnswerIsRaised s (whenInited p s k) := by
  rw [whenInited]
  exact of_ite hk of_faultWith

end FaultAnswerIsRaised

open FaultAnswerIsRaised in
/-- Only `faultWith` answers a fault. -/
theorem exec_faultAnswerIsRaised (i : Instr) (s : State) : FaultAnswerIsRaised s (exec i s) := by
  cases i with
  | init => exact of_complete nofun
  | rxpush =>
    rw [exec, execRxpush]
    exact of_whenInited (of_ite (of_complete nofun) (of_complete nofun))
  | rxerr | rxflush | errclr =>
    simp only [exec, execRxerr, execRxflush, execErrclr]
    exact of_whenInited (of_complete nofun)
  | rxavail | txrdy | errq =>
    simp only [exec, execRxavail, execTxrdy, execErrq]
    exact of_whenInited (of_answer nofun)
  | getch =>
    rw [exec, execGetch]
    refine of_whenInited (of_ite ?_ ?_) <;> split
    · exact of_complete nofun
    · exact of_stop
    · exact of_hold
    · exact of_faultWith
  | putch =>
    rw [exec, execPutch]
    refine of_whenInited ?_
    split
    · exact of_ite of_hold (of_complete nofun)
    · exact of_ite (of_complete nofun) of_hold
  | txdrain =>
    rw [exec, execTxdrain]
    refine of_whenInited ?_
    split
    · exact of_answer nofun
    · refine of_ite (of_ite ?_ (of_complete nofun)) (of_answer nofun)
      split
      · exact of_complete nofun
      · exact of_stop
  | syncRxpush | syncRxpop | syncErr =>
    simp only [exec, execSyncRxpush, execSyncRxpop, execSyncErr]
    exact of_whenInited (of_ite (of_complete nofun) (of_answer nofun))
  | syncTxpush | syncTxpop =>
    simp only [exec, execSyncTxpush, execSyncTxpop]
    refine of_whenInited ?_
    split
    · exact of_ite (of_complete nofun) (of_answer nofun)
    · exact of_answer nofun
  | txdone =>
    rw [exec, execTxdone]
    exact of_whenInited (of_ite (of_answer nofun) (of_complete nofun))

/-! ### The ways a turn can end -/

theorem mem_raiseFault_faulted_self : f ∈ (s.raiseFault f).faulted := (mem_addFault f f _).2 (.inl rfl)

theorem mem_raiseFault_faulted_of_mem (h : g ∈ s.faulted) : g ∈ (s.raiseFault f).faulted :=
  (mem_addFault f g _).2 (.inr h)

/-- The fault `f` was raised in `t`, on top of what was recorded in `s` and with the ports of `s`; another fault may have
been raised beside it (R66 with R121). -/
def RaisedLast (f : ModelFault) (s t : State) : Prop :=
  ∃ u : State, t = u.raiseFault f ∧ (∀ p, u.port p = s.port p) ∧ ∀ g ∈ s.faulted, g ∈ u.faulted

theorem raisedLast_raiseFault (f : ModelFault) (s : State) : RaisedLast f s (s.raiseFault f) :=
  ⟨s, rfl, fun _ => rfl, fun _ hg => hg⟩

/-- A word on the wrong command port raises `WrongAgent` last, after no more than `NotInitialised` (R66, R121). -/
theorem raisedLast_rejectPort (i : Instr) (s : State) : RaisedLast (.wrongAgent i) s (rejectPort i s) := by
  unfold rejectPort
  split
  · exact raisedLast_raiseFault ..
  · split
    · exact raisedLast_raiseFault ..
    · exact ⟨s.raiseFault _, rfl, fun p => raiseFault_port .., fun _ hg => mem_raiseFault_faulted_of_mem hg⟩

/-- An agent's turn is an operation, or a fault that is raised, or nothing. -/
theorem perform_next (h : perform what s = .next t) :
    (∃ i, exec i s = .next t) ∨ (∃ f, RaisedLast f s t) ∨ t = s.respond .none := by
  cases what with
  | nothing => exact .inr (.inr (answer_next.1 h))
  | op i => exact .inl ⟨i, h⟩
  | badWord w => exact .inr (.inl ⟨_, faultWith_next.1 h ▸ raisedLast_raiseFault _ s⟩)
  | badPort i =>
    cases h
    exact .inr (.inl ⟨_, raisedLast_rejectPort i s⟩)

/-- A turn that answers a fault is one that raised it (R160). -/
theorem perform_raisedLast (h : perform what s = .next t) (hf : t.resp = .faulted f) : RaisedLast f s t := by
  obtain ⟨i, hi⟩ | ⟨g, hg⟩ | rfl := perform_next h
  · exact exec_faultAnswerIsRaised i s t f hi hf ▸ raisedLast_raiseFault f s
  · obtain ⟨u, rfl, -⟩ := id hg
    cases hf
    exact hg
  · cases hf

/-! ### A recorded fault stays (R32) -/

theorem exec_faulted_stays (h : exec i s = .next t) (hg : g ∈ s.faulted) : g ∈ t.faulted := by
  obtain ⟨P, r, rfl⟩ | ⟨f, rfl⟩ | rfl := exec_next h
  · rwa [respond_faulted, setPort_faulted]
  · exact mem_raiseFault_faulted_of_mem hg
  · exact hg

theorem perform_faulted_stays (h : perform what s = .next t) (hg : g ∈ s.faulted) : g ∈ t.faulted := by
  obtain ⟨i, hi⟩ | ⟨f, u, rfl, -, hsub⟩ | rfl := perform_next h
  · exact exec_faulted_stays hi hg
  · exact mem_raiseFault_faulted_of_mem (hsub g hg)
  · exact hg

@[simp] theorem taken_faulted (a : Agent) : (s.taken a).faulted = s.faulted := by
  unfold State.taken
  split <;> rfl

@[simp] theorem turns_port (l : List Agent) : State.port { s with turns := l } p = s.port p := by cases p <;> rfl

theorem step_faulted_stays (h : step s = .next t) (hg : g ∈ s.faulted) : g ∈ t.faulted := by
  cases hs : s.turns with
  | nil =>
    rw [step_idle hs] at h
    cases h
    exact hg
  | cons a rest =>
    rw [step_perform hs] at h
    exact perform_faulted_stays h (by rwa [taken_faulted])

theorem not_acceptable_of_mem_faulted (h : g ∈ s.faulted) : ¬ s.acceptable :=
  fun ⟨hnil, _⟩ => List.ne_nil_of_mem h hnil

end

/-- Settles O10: a fault that is answered was raised, by the operation or by the turn's checks of word and port, and
raising leaves the ports and only adds to the recorded faults. -/
theorem faultsChangeNothingAndStay : Obligations.FaultsChangeNothingAndStay := by
  refine ⟨fun s t a rest f hs h hf => ?_, fun i s t f h hf => ?_, fun s t f h hmem => ?_⟩
  · have hcdc := step_cdc h
    rw [step_perform hs] at h
    obtain ⟨u, rfl, hport, -⟩ := perform_raisedLast h hf
    exact ⟨fun p => by rw [raiseFault_port, hport, taken_port, turns_port], hcdc, mem_raiseFault_faulted_self⟩
  · rw [exec_faultAnswerIsRaised i s t f h hf]
    exact ⟨fun p => raiseFault_port s p f, rfl, rfl, fun g => mem_addFault f g _⟩
  · have hstay := step_faulted_stays h hmem
    exact ⟨hstay, not_acceptable_of_mem_faulted hstay⟩

end Sys2Proof.Machine
end

section
/-! The encoding round trip, and the turns of an agent whose word decodes: an operation its command port accepts, the
operation the foreground is held in, and one the port rejects. -/

namespace Sys2Proof

/-! ### The encoding (R60, R64, R65) -/

/-- The four fields of an encoded word are the operation's (R60). -/
theorem encode_fields (i : Instr) :
    (encode i).z = 0 ∧ (encode i).op = i.opNumber.toNat ∧ (encode i).p = i.port ∧ (encode i).d = i.lowByte := by
  have hw := Machine.encode_toNat i
  have hlow := i.lowByte.isLt
  have hbit : i.port = .p1 ↔ i.port.bit.toNat = 1 := by cases i.port <;> decide
  have hlt := i.port.bit.isLt
  refine ⟨Word.z_eq_zero_iff.2 (by omega), by rw [Word.op_eq_div]; omega, ?_,
    BitVec.eq_of_toNat_eq (by rw [Word.d_toNat]; omega)⟩
  have hp : (encode i).p = .p1 ↔ i.port = .p1 := by
    rw [Word.p_eq_p1_iff, hbit]
    omega
  cases h : i.port <;> cases h' : (encode i).p <;> simp_all

/-- Settles O2: the fields of the encoded word are the operation's, and those are what the decoder reads. -/
theorem decodeInvertsEncode : Obligations.DecodeInvertsEncode := fun i => decode_op_iff.2 (encode_fields i)

/-- Settles O3: two words with the same four fields are the same. -/
theorem encodeInvertsDecode : Obligations.EncodeInvertsDecode := by
  intro w i h
  obtain ⟨hz, hop, hp, hd⟩ := decode_op_iff.1 h
  obtain ⟨hz', hop', hp', hd'⟩ := encode_fields i
  exact Word.ext_fields (hop'.trans hop.symm) (hp'.trans hp.symm) (hz'.trans hz.symm) (hd'.trans hd.symm)

/-- Settles O1. -/
theorem sampleWordsDecode : Obligations.SampleWordsDecode := by
  unfold Obligations.SampleWordsDecode
  decide

end Sys2Proof

namespace Sys2Proof.Machine

/-! ### The turn of an agent whose word decodes (R6, R66, R170) -/

section
variable {s : State} {a : Agent} {w : Word} {i : Instr}

theorem judge_of_accepted (h : decode w = .op i) (hi : issuer i = a) : judge a w = .op i := by
  simp [judge, h, accepts, hi]

theorem judge_of_rejected (h : decode w = .op i) (hi : issuer i ≠ a) : judge a w = .badPort i := by
  simp [judge, h, accepts, hi]

theorem presenter_of_op (h : decode w = .op i) : presenter w = issuer i := by
  rw [presenter, h]

/-- A 16-bit word is a command word (R60). -/
theorem tableWord_toNat (w : Word) : tableWord 16 w.toNat = some w := by
  have hw := w.isLt
  rw [tableWord, Nat.mod_eq_of_lt hw, if_pos hw, BitVec.ofNat_toNat, BitVec.setWidth_eq]

theorem withFetchWord_of_op (s : State) (h : decode w = .op i) : s.withFetchWord 16 w.toNat = s.place (issuer i) w := by
  rw [State.withFetchWord, tableWord_toNat]
  exact congrArg (State.place · w s) (presenter_of_op h)

@[simp] theorem place_nextWord (s : State) (a : Agent) (w : Word) : (s.place a w).nextWord a = some w := by
  simp [State.nextWord, State.place]

/-- With the turn and the word of a placed operation taken, the state is what it was, but for a hold of `FG` that was
lifted for `FG`'s own word. -/
theorem place_dropOffer (s : State) (a : Agent) (w : Word) :
    State.dropOffer a { s.place a w with turns := s.turns } = { s with held := if a = .fg then none else s.held } := by
  simp [State.dropOffer, State.place]

end

/-- Settles O6. -/
theorem stepRunsTheDecodedOperation : Obligations.StepRunsTheDecodedOperation := by
  refine ⟨fun s a rest w i hs ha hw hd hi => ?_, fun s w i hd => ?_⟩
  · rw [step_perform hs, issue_of_not_held ha hw, judge_of_accepted hd hi,
      taken_of_not_held (s := { s with turns := rest }) ha]
    rfl
  · have hheld : issuer i = .fg → (s.place (issuer i) w).held = none := fun h => if_pos h
    rw [withFetchWord_of_op s hd, step_perform (rest := s.turns) rfl, issue_of_not_held hheld (place_nextWord s _ w),
      judge_of_accepted hd rfl, taken_of_not_held (s := { s.place (issuer i) w with turns := s.turns }) hheld, place_dropOffer]
    rfl

/-- Settles O7. -/
theorem heldForegroundStaysAtItsOperation : Obligations.HeldForegroundStaysAtItsOperation := by
  intro s rest i hs hi
  have hissue : s.issue .fg = .op i := by simp only [State.issue, hi]
  have htaken : State.taken .fg { s with turns := rest } = { s with turns := rest, held := none } := by
    simp only [State.taken, hi]
  rw [step_perform hs, hissue, htaken]
  rfl

/-- What is recorded when a command port rejects an operation (R66, R121). -/
theorem rejectPort_records (i : Instr) (s : State) :
    ∃ l, (∀ g, g ∈ l ↔ g = .wrongAgent i ∨ g ∈ s.faulted ∨
        (g = .notInitialised i.port ∧ (s.port i.port).inited = false ∧ i ≠ .init i.port)) ∧
      rejectPort i s = { s with faulted := l, resp := .faulted (.wrongAgent i) } := by
  refine ⟨(rejectPort i s).faulted, fun g => ?_, ?_⟩
  all_goals
    unfold rejectPort
    split
  · simp [mem_addFault, Instr.port]
  · rename_i hne
    have hinit : i ≠ .init i.port := fun h => hne _ h
    cases hi : (s.port i.port).inited
    · simp [mem_addFault, hinit, or_comm]
    · simp [mem_addFault]
  · rfl
  · split <;> rfl

/-- Settles O8. -/
theorem wrongAgentIsRecorded : Obligations.WrongAgentIsRecorded := by
  intro s a rest w i hs ha hw hd hi
  obtain ⟨l, hl, hreject⟩ := rejectPort_records i (State.dropOffer a { s with turns := rest })
  refine ⟨l, fun g => (hl g).trans (by simp), ?_⟩
  rw [step_perform hs, issue_of_not_held ha hw, judge_of_rejected hd hi,
    taken_of_not_held (s := { s with turns := rest }) ha, perform, hreject]
  rfl

end Sys2Proof.Machine
end

section
/-! How an operation ends, with the condition under which it ends so: what it makes of its own port and answers
(`Effect`), where it waits (`Waits`), and the whole of `exec` in these terms (`exec_ending`, `exec_of_effect`). -/

namespace Sys2Proof.Machine

/-- What an operation makes of its own port and what it answers, with the tests that it passed on the port. -/
inductive Effect (c : CdcMode) (P : Port) : Instr → Port → Response → Prop
  | init (p : PortId) : Effect c P (.init p) P.initialised .done
  | rxpushDrop (p : PortId) (d : Byte) (full : P.rx.full = true) : Effect c P (.rxpush p d) (P.countError c) .done
  | rxpushStore (p : PortId) (d : Byte) (room : P.rx.full = false) :
      Effect c P (.rxpush p d) { P with rx := P.rx.push c d } .done
  | rxerr (p : PortId) (d : Byte) : Effect c P (.rxerr p d) (P.countError c) .done
  | rxavail (p : PortId) : Effect c P (.rxavail p) P (.bit P.rx.avail)
  | getch (p : PortId) {b : Byte} (seen : P.rx.avail = true) (front : P.rx.storage.read P.rx.head = some b) :
      Effect c P (.getch p) { P with rx := P.rx.dropHead c } (.byte b)
  | rxflush (p : PortId) : Effect c P (.rxflush p) { P with rx := P.rx.clear } .done
  | putchStore (p : PortId) (d : Byte) {t : Ring} {ie : Bool} (htx : P.tx = .queued t ie) (room : t.full = false) :
      Effect c P (.putch p d) { P with tx := queuedAfterPut c d t ie } .done
  | putchSend (p : PortId) (d : Byte) (htx : P.tx = .direct) (free : P.hwTxReady = true) :
      Effect c P (.putch p d) (P.sendByte d) .done
  | txdrainSend (p : PortId) {t : Ring} {b : Byte} (htx : P.tx = .queued t true) (free : P.hwTxReady = true)
      (seen : t.avail = true) (front : t.storage.read t.head = some b) :
      Effect c P (.txdrain p) ({ P with tx := .queued (t.dropHead c) true }.sendByte b) .done
  | txdrainDisarm (p : PortId) {t : Ring} (htx : P.tx = .queued t true) (free : P.hwTxReady = true)
      (empty : t.avail = false) : Effect c P (.txdrain p) { P with tx := .queued t false } .done
  | txdrainIdle (p : PortId) (idle : P.txIrqPending = false) : Effect c P (.txdrain p) P .notEnabled
  | txrdy (p : PortId) : Effect c P (.txrdy p) P (.bit P.txReady)
  | errq (p : PortId) : Effect c P (.errq p) P (.count P.errview)
  | errclr (p : PortId) :
      Effect c P (.errclr p) { P with errcnt := P.errcnt - P.errview } (.count P.errview)
  | syncRxpush (p : PortId) : Effect c P (.syncRxpush p) { P with rx := P.rx.deliverPush } .done
  | syncRxpop (p : PortId) : Effect c P (.syncRxpop p) { P with rx := P.rx.deliverPop } .done
  | syncTxpush (p : PortId) : Effect c P (.syncTxpush p) { P with tx := P.tx.deliverPush } .done
  | syncTxpop (p : PortId) : Effect c P (.syncTxpop p) { P with tx := P.tx.deliverPop } .done
  | syncErr (p : PortId) : Effect c P (.syncErr p) { P with pendErr := P.pendErr - 1 } .done
  | txdoneFree (p : PortId) (busy : P.hwTxReady = false) : Effect c P (.txdone p) { P with hwTxReady := true } .done
  | txdoneIdle (p : PortId) (free : P.hwTxReady = true) : Effect c P (.txdone p) P .notEnabled

/-- Where an operation holds on its port (R161). -/
inductive Waits (P : Port) : Instr → Prop
  | getch (p : PortId) (mode : P.rxMode = .polled) (empty : P.rx.avail = false) : Waits P (.getch p)
  | putchFull (p : PortId) (d : Byte) {t : Ring} {ie : Bool} (htx : P.tx = .queued t ie) (full : t.full = true) :
      Waits P (.putch p d)
  | putchBusy (p : PortId) (d : Byte) (htx : P.tx = .direct) (busy : P.hwTxReady = false) : Waits P (.putch p d)

/-- A ring of the port that shows a byte whose slot holds no value: where GETCH and TXDRAIN stop (log entry 2). -/
def Port.Hollow (P : Port) : Prop :=
  (P.rx.avail = true ∧ P.rx.storage.read P.rx.head = none) ∨
    ∃ t ie, P.tx = .queued t ie ∧ t.avail = true ∧ t.storage.read t.head = none

/-- The ways operation `i` ends in state `s`. -/
inductive Ending (i : Instr) (s : State) : Result → Prop
  | completes {P : Port} {r : Response} (up : (s.port i.port).inited = true ∨ i = .init i.port)
      (e : Effect s.cdc (s.port i.port) i P r) : Ending i s (.next ((s.setPort i.port P).respond r))
  | waits (up : (s.port i.port).inited = true) (w : Waits (s.port i.port) i) :
      Ending i s (.next { s with held := some i, resp := .held })
  | emptyPop (up : (s.port i.port).inited = true) (who : i = .getch i.port)
      (mode : (s.port i.port).rxMode = .interrupt) (empty : (s.port i.port).rx.avail = false) :
      Ending i s (.next (s.raiseFault (.emptyPop i.port)))
  | notInitialised (down : (s.port i.port).inited = false) (other : i ≠ .init i.port) :
      Ending i s (.next (s.raiseFault (.notInitialised i.port)))
  | stops (f : Fault) (up : (s.port i.port).inited = true) (hollow : (s.port i.port).Hollow) : Ending i s (.fault f)

section
variable {c : CdcMode} {P P' : Port} {i : Instr} {s t : State} {r : Response} {p : PortId} {R : Ring} {ie : Bool}

theorem txIrqPending_queued (h : P.tx = .queued R ie) : P.txIrqPending = (ie && P.hwTxReady) := by
  rw [Port.txIrqPending, Port.txIe, h]
  rfl

theorem exec_txdrain_of_idle (hi : (s.port p).inited = true) (h : (s.port p).txIrqPending = false) :
    exec (.txdrain p) s = .next (s.respond .notEnabled) := by
  rw [exec, execTxdrain, whenInited_of_inited hi]
  split
  · rfl
  · rw [if_neg (ne_true_of_eq_false h)]
    rfl

/-- GETCH stops where it sees a byte in a slot without a value (log entry 2). -/
theorem exec_getch_of_hollow (hi : (s.port p).inited = true) (ha : (s.port p).rx.avail = true)
    (hb : (s.port p).rx.storage.read (s.port p).rx.head = none) :
    exec (.getch p) s = .fault (.slotWithoutValue p (s.port p).rx.head) := by
  rw [exec, execGetch, whenInited_of_inited hi, Port.rxAvail, if_pos ha, pop_eq_none.2 hb]

/-- So does TXDRAIN where it is enabled. -/
theorem exec_txdrain_of_hollow (hi : (s.port p).inited = true) (htx : (s.port p).tx = .queued R true)
    (hh : (s.port p).hwTxReady = true) (ha : R.avail = true) (hb : R.storage.read R.head = none) :
    exec (.txdrain p) s = .fault (.slotWithoutValue p R.head) := by
  simp only [exec, execTxdrain, whenInited_of_inited hi, htx, txIrqPending_armed htx hh, if_true, ha,
    pop_eq_none.2 hb]

/-- An operation has its effect on an initialised port, and INIT on any. -/
theorem exec_of_effect (hi : (s.port i.port).inited = true ∨ i = .init i.port)
    (e : Effect s.cdc (s.port i.port) i P r) : exec i s = .next ((s.setPort i.port P).respond r) := by
  rcases hi with hi | hinit
  · cases e with
    | init p => exact exec_init s p
    | rxpushDrop p d full => exact exec_rxpush_of_full hi full
    | rxpushStore p d room => exact exec_rxpush_of_room hi room
    | rxerr p d => exact exec_rxerr hi
    | rxavail p => rw [setPort_self]; exact exec_rxavail hi
    | getch p seen front => exact exec_getch_of_pop hi seen (pop_eq_some.2 ⟨front, rfl⟩)
    | rxflush p => exact exec_rxflush hi
    | putchStore p d htx room => exact exec_putch_of_room hi htx room
    | putchSend p d htx free => exact exec_putch_of_free hi htx free
    | txdrainSend p htx free seen front => exact exec_txdrain_of_pop hi htx free seen (pop_eq_some.2 ⟨front, rfl⟩)
    | txdrainDisarm p htx free empty => exact exec_txdrain_of_empty hi htx free empty
    | txdrainIdle p idle => rw [setPort_self]; exact exec_txdrain_of_idle hi idle
    | txrdy p => rw [setPort_self]; exact exec_txrdy hi
    | errq p => rw [setPort_self]; exact exec_errq hi
    | errclr p => exact exec_errclr hi
    | syncRxpush p => exact exec_op .rxPush hi
    | syncRxpop p => exact exec_op .rxPop hi
    | syncTxpush p => exact exec_op .txPush hi
    | syncTxpop p => exact exec_op .txPop hi
    | syncErr p => exact exec_op .err hi
    | txdoneFree p busy => exact exec_txdone_of_busy hi busy
    | txdoneIdle p free => rw [setPort_self]; exact exec_txdone_of_free hi free
  · generalize i.port = p at e hinit ⊢
    subst hinit
    cases e
    exact exec_init s p

theorem Ending.of_effect (hi : (s.port i.port).inited = true) (e : Effect s.cdc (s.port i.port) i P r) :
    Ending i s (exec i s) :=
  exec_of_effect (.inl hi) e ▸ .completes (.inl hi) e

/-- GETCH on an initialised port. -/
theorem getch_ending (hi : (s.port p).inited = true) : Ending (.getch p) s (exec (.getch p) s) := by
  cases ha : (s.port p).rx.avail with
  | true =>
    cases hb : (s.port p).rx.storage.read (s.port p).rx.head with
    | some b => exact .of_effect hi (.getch p ha hb)
    | none => exact exec_getch_of_hollow hi ha hb ▸ .stops _ hi (.inl ⟨ha, hb⟩)
  | false =>
    cases hm : (s.port p).rxMode with
    | polled => exact exec_getch_of_empty_polled hi ha hm ▸ .waits hi (.getch p hm ha)
    | interrupt => exact exec_getch_of_empty_interrupt hi ha hm ▸ .emptyPop hi rfl hm ha

/-- PUTCH on an initialised port. -/
theorem putch_ending (hi : (s.port p).inited = true) (d : Byte) : Ending (.putch p d) s (exec (.putch p d) s) := by
  cases htx : (s.port p).tx with
  | queued t ie =>
    cases hf : t.full with
    | true => exact exec_putch_of_full hi htx hf ▸ .waits hi (.putchFull p d htx hf)
    | false => exact .of_effect hi (.putchStore p d htx hf)
  | direct =>
    cases hh : (s.port p).hwTxReady with
    | true => exact .of_effect hi (.putchSend p d htx hh)
    | false => exact exec_putch_of_busy hi htx hh ▸ .waits hi (.putchBusy p d htx hh)

theorem txIrqPending_true (h : P.txIrqPending = true) : ∃ t, P.tx = .queued t true ∧ P.hwTxReady = true := by
  cases htx : P.tx with
  | queued t ie =>
    obtain ⟨rfl, hh⟩ := Bool.and_eq_true_iff.1 (txIrqPending_queued htx ▸ h)
    exact ⟨t, rfl, hh⟩
  | direct =>
    rw [Port.txIrqPending, Port.txIe, htx] at h
    cases h

/-- TXDRAIN on an initialised port. -/
theorem txdrain_ending (hi : (s.port p).inited = true) : Ending (.txdrain p) s (exec (.txdrain p) s) := by
  cases hp : (s.port p).txIrqPending with
  | false => exact .of_effect hi (.txdrainIdle p hp)
  | true =>
    obtain ⟨t, htx, hh⟩ := txIrqPending_true hp
    cases ha : t.avail with
    | false => exact .of_effect hi (.txdrainDisarm p htx hh ha)
    | true =>
      cases hb : t.storage.read t.head with
      | some b => exact .of_effect hi (.txdrainSend p htx hh ha hb)
      | none => exact exec_txdrain_of_hollow hi htx hh ha hb ▸ .stops _ hi (.inr ⟨t, true, htx, ha, hb⟩)

/-- Every operation, in any state, ends in one of the ways. -/
theorem exec_ending (i : Instr) (s : State) : Ending i s (exec i s) := by
  by_cases hinit : i = .init i.port
  · have e : Effect s.cdc (s.port i.port) i (s.port i.port).initialised .done := by
      generalize s.port i.port = P
      rw [hinit]
      exact .init _
    exact exec_of_effect (.inr hinit) e ▸ .completes (.inr hinit) e
  cases hi : (s.port i.port).inited with
  | false => exact exec_of_not_inited hinit hi ▸ .notInitialised hi hinit
  | true =>
    cases i with
    | init p => exact absurd rfl hinit
    | rxpush p d =>
      cases hf : (s.port p).rx.full with
      | true => exact .of_effect hi (.rxpushDrop p d hf)
      | false => exact .of_effect hi (.rxpushStore p d hf)
    | rxerr p d => exact .of_effect hi (.rxerr p d)
    | rxavail p => exact .of_effect hi (.rxavail p)
    | getch p => exact getch_ending hi
    | rxflush p => exact .of_effect hi (.rxflush p)
    | putch p d => exact putch_ending hi d
    | txdrain p => exact txdrain_ending hi
    | txrdy p => exact .of_effect hi (.txrdy p)
    | errq p => exact .of_effect hi (.errq p)
    | errclr p => exact .of_effect hi (.errclr p)
    | syncRxpush p => exact .of_effect hi (.syncRxpush p)
    | syncRxpop p => exact .of_effect hi (.syncRxpop p)
    | syncTxpush p => exact .of_effect hi (.syncTxpush p)
    | syncTxpop p => exact .of_effect hi (.syncTxpop p)
    | syncErr p => exact .of_effect hi (.syncErr p)
    | txdone p =>
      cases hh : (s.port p).hwTxReady with
      | true => exact .of_effect hi (.txdoneIdle p hh)
      | false => exact .of_effect hi (.txdoneFree p hh)

/-- An operation that answers a next state had its effect, or holds, or raised one of the two faults of the atomic
operations. -/
theorem exec_next_cases (h : exec i s = .next t) :
    (∃ P r, ((s.port i.port).inited = true ∨ i = .init i.port) ∧ Effect s.cdc (s.port i.port) i P r ∧
        t = (s.setPort i.port P).respond r) ∨
      ((s.port i.port).inited = true ∧ Waits (s.port i.port) i ∧ t = { s with held := some i, resp := .held }) ∨
      t = s.raiseFault (.emptyPop i.port) ∨ t = s.raiseFault (.notInitialised i.port) := by
  have e := h ▸ exec_ending i s
  cases e with
  | completes up e => exact .inl ⟨_, _, up, e, rfl⟩
  | waits up w => exact .inr (.inl ⟨up, w, rfl⟩)
  | emptyPop => exact .inr (.inr (.inl rfl))
  | notInitialised => exact .inr (.inr (.inr rfl))

/-- No effect answers a hold or a fault. -/
theorem Effect.resp_ne (e : Effect c P i P' r) : r ≠ .held ∧ ∀ f, r ≠ .faulted f := by
  cases e <;> exact ⟨nofun, nofun⟩

end

/-! ### The holds, and the operations that are not enabled -/

/-- Settles O52: no effect and no fault answers `held`, and the waits are the three holds. -/
theorem holdsAreTheseThree : Obligations.HoldsAreTheseThree := by
  intro i s hi
  constructor
  · rintro ⟨t, ht, hheld⟩
    obtain ⟨P, r, -, e, rfl⟩ | ⟨-, w, -⟩ | rfl | rfl := exec_next_cases ht
    · exact absurd hheld e.resp_ne.1
    · generalize hP : s.port i.port = P at w ⊢
      cases w with
      | getch p mode empty => exact .inl ⟨rfl, mode, avail_false.1 empty⟩
      | putchFull p d htx full => exact .inr (.inl ⟨d, _, _, rfl, htx, full_true.1 full⟩)
      | putchBusy p d htx busy => exact .inr (.inr ⟨d, rfl, htx, busy⟩)
    · cases hheld
    · cases hheld
  · generalize hp : i.port = p at hi
    rintro (⟨rfl, mode, empty⟩ | ⟨d, t, ie, rfl, htx, full⟩ | ⟨d, rfl, htx, busy⟩)
    · exact ⟨_, exec_getch_of_empty_polled hi (avail_false.2 empty) mode, rfl⟩
    · exact ⟨_, exec_putch_of_full hi htx (full_true.2 full), rfl⟩
    · exact ⟨_, exec_putch_of_busy hi htx busy, rfl⟩

/-- Settles O24. -/
theorem disabledOperationsChangeNothing : Obligations.DisabledOperationsChangeNothing := by
  refine fun s p hi => ⟨fun htx => exec_txdrain_of_idle hi ?_, fun t ie htx hoff => exec_txdrain_of_idle hi ?_,
    exec_txdone_of_free hi⟩
  · rw [Port.txIrqPending, Port.txIe, htx]
    rfl
  · rw [txIrqPending_queued htx, Bool.and_eq_false_iff]
    exact hoff

/-- Settles O46. -/
theorem valuelessSlotStopsTheMachine : Obligations.ValuelessSlotStopsTheMachine :=
  fun _ _ hi => ⟨fun hv hb => exec_getch_of_hollow hi (avail_true.2 hv) hb,
    fun _ htx hh hv hb => exec_txdrain_of_hollow hi htx hh (avail_true.2 hv) hb⟩

end Sys2Proof.Machine
end

section
/-! The machine's invariant: what of a port keeps it (`Effect.keeps_inv`), that power-on meets it, that every operation,
every turn and every step keeps it, and that a state which meets it always answers a next state. -/

namespace Sys2Proof.Machine

section
variable {c : CdcMode} {P P' : Port} {R t : Ring} {ie : Bool} {i : Instr} {r : Response} {d : Byte}

/-! ### The invariant of a port, part by part -/

theorem Port.Inv.setRx (hP : P.Inv c) (hR : R.Inv c) : ({ P with rx := R } : Port).Inv c :=
  { hP with
    rxBase := hR.toBase
    rxRing := fun _ => hR }

theorem Port.Inv.setTx (hP : P.Inv c) (ht : t.Inv c) (harm : 0 < t.viewc → ie = true) :
    ({ P with tx := .queued t ie } : Port).Inv c :=
  { hP with
    txBase := by rintro _ _ ⟨⟩; exact ht.toBase
    txRing := by rintro - _ _ ⟨⟩; exact ht
    armed := by rintro - _ _ ⟨⟩; exact harm }

theorem Port.Inv.setErrors (hP : P.Inv c) {e : Count} {n : Nat} (hle : n ≤ e.toNat) (hx : c = .exact → n = 0) :
    ({ P with errcnt := e, pendErr := n } : Port).Inv c :=
  { hP with
    errors := fun _ => hle
    exact_errors := fun _ => hx }

theorem Port.Inv.sendByte (hP : P.Inv c) (d : Byte) : (P.sendByte d).Inv c := { hP with }

/-- INIT brings a port into the invariant, whatever it held before (R33, R120). -/
theorem Port.Inv.initialised (hP : P.Inv c) : P.initialised.Inv c := by
  have htx : ∀ t ie, P.initialised.tx = .queued t ie → ∃ R : Ring, t = R.clear ∧ R.Base := by
    intro t ie h
    cases hx : P.tx with
    | queued R ie' =>
      rw [Port.initialised, hx] at h
      cases h
      exact ⟨R, rfl, hP.txBase R ie' hx⟩
    | direct => rw [Port.initialised, hx] at h; cases h
  refine ⟨(clear_inv (c := c) hP.rxBase).toBase, fun t ie h => ?_, fun _ => clear_inv hP.rxBase, fun _ t ie h => ?_,
    fun _ t ie h hv => ?_, fun _ => Nat.zero_le _, fun _ _ => rfl⟩ <;> obtain ⟨R, rfl, hR⟩ := htx t ie h
  · exact (clear_inv (c := c) hR).toBase
  · exact clear_inv hR
  · exact absurd hv (lt_irrefl 0)

/-- A counted event keeps the bound of the events under way: the counter and its token rise together (R23, R90). -/
theorem Port.Inv.countError (hP : P.Inv c) (hi : P.inited = true) : (P.countError c).Inv c := by
  have hle := hP.errors hi
  refine hP.setErrors ?_ fun hc => ?_
  · have hsat := satSucc_toNat P.errcnt
    split
    · next h => rwa [h]
    · next h =>
      have hlt := not_not.1 (fun h' => h (satSucc_eq_self_iff.2 h'))
      cases c <;> simp only [token_exact, token_lagged] <;> omega
  · have hzero := hP.exact_errors hi hc
    rw [hc, token_exact, hzero, ite_self]

/-- ERRCLR leaves exactly the events under way (R122). -/
theorem Port.Inv.clearErrors (hP : P.Inv c) (hi : P.inited = true) :
    ({ P with errcnt := P.errcnt - P.errview } : Port).Inv c := by
  have hle := hP.errors hi
  refine hP.setErrors (n := P.pendErr) ?_ (hP.exact_errors hi)
  rw [errcnt_sub_errview hle, BitVec.toNat_ofNat, Nat.mod_eq_of_lt (hle.trans_lt P.errcnt.isLt)]

theorem Port.Inv.deliverError (hP : P.Inv c) (hi : P.inited = true) :
    ({ P with pendErr := P.pendErr - 1 } : Port).Inv c :=
  hP.setErrors ((Nat.sub_le ..).trans (hP.errors hi)) fun hc => by rw [hP.exact_errors hi hc]

/-- Under `LAGGED` a push is not seen by the consumer before its token is delivered (R19). -/
theorem viewc_push_lagged : (R.push .lagged d).viewc = R.viewc := by
  simp only [Ring.viewc, push_count, push_pendPush, token_lagged]
  omega

/-- An accepted PUTCH keeps the port: its byte is seen only where it sets `tx_ie` (R24, R101). -/
theorem Port.Inv.putch (hP : P.Inv c) (hi : P.inited = true) (htx : P.tx = .queued t ie) (room : t.full = false)
    (d : Byte) : ({ P with tx := queuedAfterPut c d t ie } : Port).Inv c := by
  have ht := push_inv (d := d) (hP.txRing hi t ie htx) room
  cases c with
  | exact => exact hP.setTx ht fun _ => rfl
  | lagged => exact hP.setTx ht fun hv => hP.armed hi t ie htx (viewc_push_lagged ▸ hv)

/-- Delivery on the transmit ring keeps the port: a push token, once delivered, has armed the interrupt (R138). -/
theorem Port.Inv.deliverTxPush (hP : P.Inv c) (hi : P.inited = true) :
    ({ P with tx := P.tx.deliverPush } : Port).Inv c := by
  cases htx : P.tx with
  | direct => rw [TxPath.deliverPush, ← htx]; exact hP
  | queued t ie =>
    refine hP.setTx (deliverPush_inv (hP.txRing hi t ie htx)) fun hv => ?_
    split
    · rfl
    · refine hP.armed hi t ie htx ?_
      simp only [Ring.viewc, Ring.deliverPush] at hv ⊢
      omega

theorem Port.Inv.deliverTxPop (hP : P.Inv c) (hi : P.inited = true) :
    ({ P with tx := P.tx.deliverPop } : Port).Inv c := by
  cases htx : P.tx with
  | direct => rw [TxPath.deliverPop, ← htx]; exact hP
  | queued t ie => exact hP.setTx (deliverPop_inv (hP.txRing hi t ie htx)) (hP.armed hi t ie htx)

/-- No effect breaks the invariant of the port. -/
theorem Effect.keeps_inv (e : Effect c P i P' r) (hP : P.Inv c) (up : P.inited = true ∨ i = .init i.port) :
    P'.Inv c := by
  by_cases hi : P.inited = true
  · cases e with
    | init => exact hP.initialised
    | rxpushDrop p d full => exact hP.countError hi
    | rxpushStore p d room => exact hP.setRx (push_inv (hP.rxRing hi) room)
    | rxerr => exact hP.countError hi
    | getch p seen front => exact hP.setRx (dropHead_inv (hP.rxRing hi) seen)
    | rxflush => exact hP.setRx (clear_inv hP.rxBase)
    | putchStore p d htx room => exact hP.putch hi htx room d
    | putchSend p d htx free => exact hP.sendByte d
    | txdrainSend p htx free seen front =>
      exact (hP.setTx (dropHead_inv (hP.txRing hi _ _ htx) seen) fun _ => rfl).sendByte _
    | txdrainDisarm p htx free empty =>
      exact hP.setTx (hP.txRing hi _ _ htx) fun hv => absurd (avail_false.1 empty) hv.ne'
    | errclr => exact hP.clearErrors hi
    | syncRxpush => exact hP.setRx (deliverPush_inv (hP.rxRing hi))
    | syncRxpop => exact hP.setRx (deliverPop_inv (hP.rxRing hi))
    | syncTxpush => exact hP.deliverTxPush hi
    | syncTxpop => exact hP.deliverTxPop hi
    | syncErr => exact hP.deliverError hi
    | txdoneFree => exact { hP with }
    | rxavail | txdrainIdle | txrdy | errq | txdoneIdle => exact hP
  · generalize up.resolve_left hi = hinit at *
    rw [hinit] at e
    cases e
    exact hP.initialised

/-- An effect leaves an initialised port initialised, and so does INIT any port (R31). -/
theorem Effect.inited (e : Effect c P i P' r) (up : P.inited = true ∨ i = .init i.port) : P'.inited = true := by
  cases e with
  | init => rfl
  | _ => exact up.resolve_right nofun

/-- An initialised port that meets the invariant has a value in every slot it shows (R13, R41). -/
theorem Port.Inv.not_hollow (hP : P.Inv c) (hi : P.inited = true) : ¬ P.Hollow := by
  have filled : ∀ {R : Ring}, R.Inv c → R.avail = true → R.storage.read R.head ≠ none := by
    intro R hR ha hb
    obtain ⟨b, hpop⟩ := hR.pop_some ha
    rw [pop_eq_none.2 hb] at hpop
    cases hpop
  rintro (⟨ha, hb⟩ | ⟨t, ie, htx, ha, hb⟩)
  · exact filled (hP.rxRing hi) ha hb
  · exact filled (hP.txRing hi t ie htx) ha hb

/-- What waits is a GETCH or a PUTCH (R161). -/
theorem Waits.getch_or_putch (w : Waits P i) : i = .getch i.port ∨ ∃ d, i = .putch i.port d := by
  cases w with
  | getch => exact .inl rfl
  | putchFull p d | putchBusy p d => exact .inr ⟨d, rfl⟩

end

/-! ### The invariant of the machine -/

section
variable {s t : State} {p : PortId} {P : Port} {i : Instr} {f : ModelFault} {what : Issue}

/-- The invariant looks at the ports, `CDC_MODE`, the recorded faults and the hold only. -/
theorem State.Inv.congr (hs : s.Inv) (hp : ∀ p, t.port p = s.port p) (hc : t.cdc = s.cdc) (hf : t.faulted.Nodup)
    (hh : ∀ i, t.held = some i → s.held = some i) : t.Inv :=
  ⟨fun p => by rw [hp, hc]; exact hs.ports p, hf, fun i hi => by rw [hp]; exact hs.holds i (hh i hi)⟩

theorem State.Inv.respond (hs : s.Inv) (r : Response) : (s.respond r).Inv :=
  hs.congr (respond_port s · r) rfl hs.faults fun _ h => h

theorem State.Inv.raiseFault (hs : s.Inv) (f : ModelFault) : (s.raiseFault f).Inv :=
  hs.congr (raiseFault_port s · f) rfl (addFault_nodup f _ hs.faults) fun _ h => h

theorem State.Inv.rejectPort (hs : s.Inv) (i : Instr) : (rejectPort i s).Inv := by
  unfold Machine.rejectPort
  split
  · exact hs.raiseFault _
  · split
    · exact hs.raiseFault _
    · exact (hs.raiseFault _).raiseFault _

theorem State.Inv.turns (hs : s.Inv) (l : List Agent) : ({ s with turns := l } : State).Inv :=
  hs.congr (fun _ => turns_port l) rfl hs.faults fun _ h => h

theorem State.Inv.taken (hs : s.Inv) (a : Agent) : (s.taken a).Inv := by
  refine hs.congr (taken_port a) (taken_cdc a) (by rw [taken_faulted]; exact hs.faults) fun i h => ?_
  unfold State.taken at h
  split at h
  · cases h
  · exact h

theorem State.Inv.load (hs : s.Inv) (ts : List Agent) (os : List Offer) : (s.load ts os).Inv :=
  hs.congr (load_port s · ts os) rfl hs.faults fun _ h => h

theorem State.Inv.setPort (hs : s.Inv) (hP : P.Inv s.cdc) (hi : (s.port p).inited = true → P.inited = true) :
    (s.setPort p P).Inv := by
  refine ⟨fun q => ?_, by rw [setPort_faulted]; exact hs.faults, fun i h => ?_⟩
  · rw [setPort_cdc]
    rcases eq_or_ne q p with rfl | hq
    · rwa [setPort_port_same]
    · rw [setPort_port_other _ _ _ _ hq]
      exact hs.ports q
  · rw [setPort_held] at h
    obtain ⟨hin, hwho⟩ := hs.holds i h
    refine ⟨?_, hwho⟩
    rcases eq_or_ne i.port p with rfl | hq
    · rw [setPort_port_same]
      exact hi hin
    · rwa [setPort_port_other _ _ _ _ hq]

/-- Every operation keeps the invariant. -/
theorem exec_keeps_inv (hs : s.Inv) (h : exec i s = .next t) : t.Inv := by
  obtain ⟨P, r, up, e, rfl⟩ | ⟨hi, w, rfl⟩ | rfl | rfl := exec_next_cases h
  · exact (hs.setPort (e.keeps_inv (hs.ports _) up) fun _ => e.inited up).respond r
  · refine ⟨fun p => by rw [held_port]; exact hs.ports p, hs.faults, fun j hj => ?_⟩
    cases hj
    exact ⟨by rwa [held_port], w.getch_or_putch⟩
  · exact hs.raiseFault _
  · exact hs.raiseFault _

/-- From a state that meets the invariant every operation answers a next state (R124). -/
theorem exec_answers (hs : s.Inv) (i : Instr) : ∃ t, exec i s = .next t := by
  have e := exec_ending i s
  generalize exec i s = x at e ⊢
  cases e with
  | stops f hi hollow => exact absurd hollow ((hs.ports _).not_hollow hi)
  | completes | waits | emptyPop | notInitialised => exact ⟨_, rfl⟩

theorem perform_keeps_inv (hs : s.Inv) (h : perform what s = .next t) : t.Inv := by
  cases what with
  | nothing => exact answer_next.1 h ▸ hs.respond _
  | op i => exact exec_keeps_inv hs h
  | badWord w => exact faultWith_next.1 h ▸ hs.raiseFault _
  | badPort i =>
    cases h
    exact hs.rejectPort i

theorem perform_answers (hs : s.Inv) (what : Issue) : ∃ t, perform what s = .next t := by
  cases what with
  | op i => exact exec_answers hs i
  | nothing | badWord | badPort => exact ⟨_, rfl⟩

theorem step_keeps_inv (hs : s.Inv) (h : step s = .next t) : t.Inv := by
  cases hturns : s.turns with
  | nil =>
    rw [step_idle hturns] at h
    cases h
    exact hs
  | cons a rest =>
    rw [step_perform hturns] at h
    exact perform_keeps_inv ((hs.turns rest).taken a) h

end

/-- Settles O44: a turn is an operation, which keeps the invariant by its effect, or changes no port. -/
theorem stepKeepsTheInvariant : Obligations.StepKeepsTheInvariant := fun _ _ => step_keeps_inv

/-- Settles O45: only a slot without a value stops an operation, and no ring that meets the invariant shows one. -/
theorem theMachineNeverStops : Obligations.TheMachineNeverStops := by
  intro s hs
  cases hturns : s.turns with
  | nil => exact ⟨s, step_idle hturns⟩
  | cons a rest =>
    rw [step_perform hturns]
    exact perform_answers ((hs.turns rest).taken a) _

/-! ### Power-on (R33, R34) -/

theorem powerOn_base {n : Nat} (hn : 0 < n) : (Ring.powerOn n).Base := ⟨hn, powerOn_wf n, nofun⟩

/-- A port right after power-on holds the base of its rings, and nothing else is asked before INIT. -/
theorem powerOn_port_inv {cfg : PortConfig} (h : cfg.wellFormed = true) (c : CdcMode) : (Port.powerOn cfg).Inv c := by
  obtain ⟨hrx, htx⟩ := Bool.and_eq_true_iff.1 h
  refine ⟨powerOn_base (of_decide_eq_true hrx), fun t ie ht => ?_, nofun, nofun, nofun, nofun, nofun⟩
  cases hm : cfg.txMode with
  | queued n =>
    rw [Port.powerOn, hm] at ht
    rw [hm] at htx
    cases ht
    exact powerOn_base (of_decide_eq_true htx)
  | direct =>
    rw [Port.powerOn, hm] at ht
    cases ht

/-- Settles O43. -/
theorem powerOnMeetsTheInvariant : Obligations.PowerOnMeetsTheInvariant := by
  have hpower : ∀ c : Config, c.wellFormed = true → (State.powerOn c).Inv := by
    intro c h
    obtain ⟨h0, h1⟩ := Bool.and_eq_true_iff.1 h
    refine ⟨fun p => ?_, List.nodup_nil, nofun⟩
    cases p with
    | p0 => exact powerOn_port_inv h0 c.cdc
    | p1 => exact powerOn_port_inv h1 c.cdc
  exact ⟨hpower, hpower Config.reference (by decide)⟩

theorem powerOn_config (cfg : PortConfig) : (Port.powerOn cfg).config = cfg := by
  obtain ⟨m, n, _ | _⟩ := cfg <;> rfl

/-- Settles O42. -/
theorem powerOnState : Obligations.PowerOnState := by
  refine ⟨fun c p => ⟨?_, rfl, rfl, ?_⟩, rfl⟩
  · rw [State.config, State.powerOn, powerOn_config, powerOn_config]
  · obtain ⟨cfg, hcfg⟩ : ∃ cfg, (State.powerOn c).port p = Port.powerOn cfg := by
      cases p <;> exact ⟨_, rfl⟩
    rw [hcfg]
    refine ⟨rfl, rfl, fun _ => rfl, fun t ie ht k => ?_⟩
    cases hm : cfg.txMode <;> rw [Port.powerOn, hm] at ht <;> cases ht
    rfl

/-! ### The views under `EXACT` (R135) -/

section
variable {P : Port} {R : Ring} {s : State} {p : PortId}

theorem Ring.Inv.exact_views (hR : R.Inv .exact) : R.viewp = R.count ∧ R.viewc = R.count := by
  obtain ⟨hpush, hpop⟩ := hR.exact_tokens rfl
  rw [Ring.viewp, Ring.viewc, hpush, hpop]
  exact ⟨rfl, rfl⟩

theorem Port.Inv.exact_errview (hP : P.Inv .exact) (hi : P.inited = true) : P.errview = P.errcnt := by
  apply BitVec.eq_of_toNat_eq
  rw [errview_toNat, hP.exact_errors hi rfl, Nat.sub_zero]

/-- Under `EXACT` no token is ever pending. -/
theorem Port.Inv.exact_pending (hP : P.Inv .exact) (hi : P.inited = true) (ch : SyncChannel) : ch.pending P = 0 := by
  cases ch with
  | rxPush => exact ((hP.rxRing hi).exact_tokens rfl).1
  | rxPop => exact ((hP.rxRing hi).exact_tokens rfl).2
  | err => exact hP.exact_errors hi rfl
  | txPush =>
    cases htx : P.tx with
    | queued t ie => exact (pending_txPush_queued htx).trans ((hP.txRing hi t ie htx).exact_tokens rfl).1
    | direct => exact pending_txPush_direct htx
  | txPop =>
    cases htx : P.tx with
    | queued t ie => exact (pending_txPop_queued htx).trans ((hP.txRing hi t ie htx).exact_tokens rfl).2
    | direct => exact pending_txPop_direct htx

/-- Settles O40. -/
theorem exactViewsAreTheCounts : Obligations.ExactViewsAreTheCounts := by
  intro s p hs hc hi
  have hP := hc ▸ hs.ports p
  obtain ⟨hviewp, hviewc⟩ := (hP.rxRing hi).exact_views
  refine ⟨hviewp, hviewc, fun t ie htx => (hP.txRing hi t ie htx).exact_views, hP.exact_errview hi, fun i hmem => ?_⟩
  obtain ⟨ch, rfl⟩ := mem_syncOps_iff.1 (show i ∈ syncOps p from hmem)
  exact exec_op_of_pending_zero hi (hP.exact_pending hi ch)

end

end Sys2Proof.Machine
end

section
/-! What the operations leave alone: the faults of the micro-step model, the foreground's views, the receive side under
transmit operations, and who makes a port Active or Idle. -/

namespace Sys2Proof.Machine

section
variable {c : CdcMode} {P P' : Port} {t : Ring} {ie : Bool} {i : Instr} {r : Response} {s u : State} {p : PortId}
  {g : ModelFault} {what : Issue}

/-! ### The faults of the atomic model (R163) -/

theorem mem_raiseFault_of_code {f : ModelFault} (hf : f.code ≤ 4) (hg : g ∈ (s.raiseFault f).faulted) :
    g ∈ s.faulted ∨ g.code ≤ 4 := by
  rcases (mem_addFault f g _).1 hg with rfl | h
  · exact .inr hf
  · exact .inl h

/-- An operation records no fault beyond codes 1 and 2. -/
theorem exec_faulted_code (h : exec i s = .next u) (hg : g ∈ u.faulted) : g ∈ s.faulted ∨ g.code ≤ 4 := by
  obtain ⟨P, r, -, -, rfl⟩ | ⟨-, -, rfl⟩ | rfl | rfl := exec_next_cases h
  · rw [respond_faulted, setPort_faulted] at hg
    exact .inl hg
  · exact .inl hg
  · exact mem_raiseFault_of_code (by simp [ModelFault.code]) hg
  · exact mem_raiseFault_of_code (by simp [ModelFault.code]) hg

theorem rejectPort_faulted_code (hg : g ∈ (rejectPort i s).faulted) : g ∈ s.faulted ∨ g.code ≤ 4 := by
  obtain ⟨l, hl, h⟩ := rejectPort_records i s
  rw [h] at hg
  rcases (hl g).1 hg with rfl | hmem | ⟨rfl, -⟩
  · exact .inr le_rfl
  · exact .inl hmem
  · exact .inr (by simp [ModelFault.code])

theorem step_faulted_code (h : step s = .next u) (hg : g ∈ u.faulted) : g ∈ s.faulted ∨ g.code ≤ 4 := by
  cases hs : s.turns with
  | nil =>
    rw [step_idle hs] at h
    cases h
    exact .inl hg
  | cons a rest =>
    rw [step_perform hs] at h
    rw [show s.faulted = (State.taken a { s with turns := rest }).faulted from
      (taken_faulted (s := { s with turns := rest }) a).symm]
    cases hw : s.issue a with
    | nothing => exact .inl (by simpa [answer_next.1 (hw ▸ h)] using hg)
    | op i => exact exec_faulted_code (hw ▸ h) hg
    | badWord w =>
      rw [hw] at h
      rw [faultWith_next.1 h] at hg
      exact mem_raiseFault_of_code (by simp [ModelFault.code]) hg
    | badPort i =>
      rw [hw] at h
      cases h
      exact rejectPort_faulted_code hg

/-- Settles O11: a step records faults of codes 1 to 4 only, and these two have codes 5 and 6. -/
theorem atomicModelNeverRacesNorTears : Obligations.AtomicModelNeverRacesNorTears :=
  fun _ _ _ h => ⟨fun hg => (step_faulted_code h hg).resolve_right (by simp [ModelFault.code]),
    fun hg => (step_faulted_code h hg).resolve_right (by simp [ModelFault.code])⟩

/-! ### What an operation makes of a port -/

/-- An operation leaves a port as it is, or has its effect on it. -/
theorem exec_port_cases (h : exec i s = .next u) (p : PortId) :
    u.port p = s.port p ∨
      (i.port = p ∧ ((s.port p).inited = true ∨ i = .init p) ∧ Effect s.cdc (s.port p) i (u.port p) u.resp) := by
  rcases eq_or_ne p i.port with rfl | hp
  · obtain ⟨P, r, up, e, rfl⟩ | ⟨-, -, rfl⟩ | rfl | rfl := exec_next_cases h
    · exact .inr ⟨rfl, up, by rwa [respond_port, setPort_port_same]⟩
    · exact .inl (held_port ..)
    · exact .inl (raiseFault_port ..)
    · exact .inl (raiseFault_port ..)
  · exact .inl (exec_port_other h hp)

/-! ### The foreground's views (R86, R107) -/

/-- A push never lowers what the consumer sees. -/
theorem viewc_le_push (c : CdcMode) (d : Byte) (R : Ring) : R.viewc ≤ (R.push c d).viewc := by
  simp only [Ring.viewc, push_count, push_pendPush]
  cases c <;> simp only [token_exact, token_lagged] <;> omega

theorem viewc_le_deliverPush (R : Ring) : R.viewc ≤ R.deliverPush.viewc := by
  simp only [Ring.viewc, Ring.deliverPush]
  omega

/-- A pop of a byte that is there never raises what the producer sees. -/
theorem viewp_dropHead_le (c : CdcMode) (h : t.avail = true) : (t.dropHead c).viewp ≤ t.viewp := by
  have hpos := count_pos h
  simp only [Ring.viewp, dropHead_count, dropHead_pendPop]
  cases c <;> simp only [token_exact, token_lagged] <;> omega

theorem viewp_deliverPop_le (R : Ring) : R.deliverPop.viewp ≤ R.viewp := by
  simp only [Ring.viewp, Ring.deliverPop]
  omega

/-- On a queued port TXRDY's answer stays true where the producer's view does not rise. -/
theorem txReady_of_viewp_le {t' : Ring} {ie' : Bool} (htx : P.tx = .queued t ie) (htx' : P'.tx = .queued t' ie')
    (hN : t'.N = t.N) (hle : t'.viewp ≤ t.viewp) (h : P.txReady = true) : P'.txReady = true := by
  rw [txReady_queued htx, decide_eq_true_eq] at h
  rw [txReady_queued htx', decide_eq_true_eq]
  omega

/-- An effect of another agent than the foreground lowers neither of the foreground's views and pops no byte. -/
theorem Effect.keeps_availability (e : Effect c P i P' r) (hfg : issuer i ≠ .fg) :
    P.rx.viewc ≤ P'.rx.viewc ∧ P'.rx.head = P.rx.head ∧ (P.txReady = true → P'.txReady = true) := by
  cases e with
  | init | rxavail | getch | rxflush | putchStore | putchSend | txrdy | errq | errclr => exact absurd rfl hfg
  | rxpushStore p d => exact ⟨viewc_le_push c d P.rx, rfl, id⟩
  | rxpushDrop | rxerr | syncErr | txdrainIdle | txdoneIdle => exact ⟨le_rfl, rfl, id⟩
  | txdrainSend p htx free seen =>
    exact ⟨le_rfl, rfl, txReady_of_viewp_le htx rfl rfl (viewp_dropHead_le c seen)⟩
  | txdrainDisarm p htx => exact ⟨le_rfl, rfl, txReady_of_viewp_le htx rfl rfl le_rfl⟩
  | syncRxpush => exact ⟨viewc_le_deliverPush P.rx, rfl, id⟩
  | syncRxpop => exact ⟨le_rfl, rfl, id⟩
  | syncTxpush =>
    refine ⟨le_rfl, rfl, ?_⟩
    cases htx : P.tx with
    | queued t ie => exact txReady_of_viewp_le (t' := t.deliverPush) htx rfl rfl le_rfl
    | direct => rw [TxPath.deliverPush, ← htx]; exact id
  | syncTxpop =>
    refine ⟨le_rfl, rfl, ?_⟩
    cases htx : P.tx with
    | queued t ie => exact txReady_of_viewp_le (t' := t.deliverPop) htx rfl rfl (viewp_deliverPop_le t)
    | direct => rw [TxPath.deliverPop, ← htx]; exact id
  | txdoneFree p busy =>
    refine ⟨le_rfl, rfl, ?_⟩
    cases htx : P.tx with
    | queued t ie => exact txReady_of_viewp_le htx rfl rfl le_rfl
    | direct => rw [txReady_direct htx, busy]; exact nofun

/-- Settles O15. -/
theorem availabilityLastsUntilForegroundActs : Obligations.AvailabilityLastsUntilForegroundActs := by
  intro i s t p hfg h
  rcases exec_port_cases h p with hsame | ⟨-, -, e⟩
  · rw [hsame]
    exact ⟨le_rfl, rfl, id⟩
  · exact e.keeps_availability hfg

/-! ### The receive side (R103, R150) -/

/-- What touches the receive ring or the error counter is an operation of the receive side, a delivery to it, ERRCLR or
INIT. -/
theorem PortMove.rxSide (m : PortMove c i p P P') :
    (P'.errcnt = P.errcnt ∧ P'.pendErr = P.pendErr ∧ P'.rx = P.rx) ∨ (∃ d, i = .rxpush p d) ∨ (∃ d, i = .rxerr p d) ∨
      i ∈ [.getch p, .rxflush p, .init p, .syncRxpush p, .syncRxpop p, .syncErr p, .errclr p] := by
  cases m with
  | rx m =>
    cases m with
    | keep => exact .inl ⟨rfl, rfl, rfl⟩
    | push who => exact .inr (.inl who)
    | pop who | deliverPush who | deliverPop who => simp [who]
    | reset who => rcases who with rfl | rfl <;> simp
  | countError who => exact .inr (who.imp_right .inl)
  | clearErrors who | deliverError who | init who => simp [who]
  | keep | tx | drain | send | free => exact .inl ⟨rfl, rfl, rfl⟩

/-- Settles O30: none of the six is among the operations that touch the receive side. -/
theorem transmitSideNeverCounts : Obligations.TransmitSideNeverCounts := by
  intro i s t q hi h
  refine (exec_portMove h q).rxSide.resolve_right ?_
  generalize i.port = p at hi
  rcases hi with ⟨d, rfl⟩ | rfl | rfl | rfl | rfl | rfl <;> simp

/-! ### Idle and Active (R26, R125) -/

theorem active_true_iff :
    P.active = true ↔ 0 < P.rx.count ∨ ∃ t ie, P.tx = .queued t ie ∧ 0 < t.count := by
  rw [Port.active, Bool.or_eq_true, decide_eq_true_eq]
  refine or_congr_right ?_
  cases P.tx <;> simp [TxPath.ring?]

theorem active_false_iff :
    P.active = false ↔ P.rx.count = 0 ∧ ∀ t ie, P.tx = .queued t ie → t.count = 0 := by
  rw [← Bool.not_eq_true, active_true_iff]
  push Not
  simp

/-- A port that is queued after a move was queued before (R27). -/
theorem PortMove.tx_was_queued (m : PortMove c i p P P') (h : P'.tx = .queued t ie) :
    ∃ t' ie', P.tx = .queued t' ie' := by
  have hmode : P'.tx.mode = P.tx.mode := congrArg PortConfig.txMode m.config_eq
  cases h' : P.tx with
  | queued t' ie' => exact ⟨t', ie', rfl⟩
  | direct => rw [h, h'] at hmode; cases hmode

/-- Only a push makes an Idle port Active. -/
theorem PortMove.active_set (m : PortMove c i p P P') (h : P.active = false) (h' : P'.active = true) :
    (∃ d, i = .rxpush p d) ∨ ∃ d, i = .putch p d := by
  obtain ⟨hrx, htx⟩ := active_false_iff.1 h
  rcases active_true_iff.1 h' with hpos | ⟨t', ie', ht', hpos⟩
  · exact .inl (m.rx_move.count_raised (hrx ▸ hpos)).1
  · obtain ⟨t, ie, ht⟩ := m.tx_was_queued ht'
    exact .inr ((m.tx_move ht ht').1.count_raised (htx t ie ht ▸ hpos)).1

/-- Only a pop or a reset makes an Active port Idle. -/
theorem PortMove.active_cleared (m : PortMove c i p P P') (h : P.active = true) (h' : P'.active = false) :
    i = .getch p ∨ i = .txdrain p ∨ i = .rxflush p ∨ i = .init p := by
  obtain ⟨hrx, htx⟩ := active_false_iff.1 h'
  rcases active_true_iff.1 h with hpos | ⟨t, ie, ht, hpos⟩
  · rcases m.rx_move.count_lowered (hrx ▸ hpos) with ⟨who, -⟩ | ⟨who, -⟩
    · exact .inl who
    · exact .inr (.inr who)
  · obtain ⟨t', ie', ht'⟩ := m.tx_queued ht
    rcases (m.tx_move ht ht').1.count_lowered (htx t' ie' ht' ▸ hpos) with ⟨who, -⟩ | ⟨who, -⟩
    · exact .inr (.inl who)
    · exact .inr (.inr (.inr who))

/-- Settles O36. -/
theorem idleAndActiveTransitions : Obligations.IdleAndActiveTransitions :=
  fun _ _ _ p h => ⟨(exec_portMove h p).active_set, (exec_portMove h p).active_cleared⟩

end

end Sys2Proof.Machine
end

section
/-! The laws over runs: what one step puts into and takes out of a port, by its effect, and the induction over the run
that adds the steps up. -/

namespace Sys2Proof.Machine

section
variable {c : CdcMode} {P P' : Port} {i : Instr} {r : Response} {s t u : State} {p : PortId} {k n : Nat} {b d : Byte}
  {v : Count}

/-! ### The logs of one step, each with the operation that fills it and all the others -/

theorem rxAccepted_of_rxpush (hop : s.currentOp = some (.rxpush p d)) (hi : (s.port p).inited = true)
    (room : (s.port p).rxFull = false) : rxAccepted p s = [d] := by
  simp [rxAccepted, hop, hi, room]

theorem rxAccepted_eq_nil
    (h : ∀ d, s.currentOp = some (.rxpush p d) → (s.port p).inited = true → (s.port p).rxFull = true) :
    rxAccepted p s = [] := by
  unfold rxAccepted
  split
  · next q d hop =>
    refine if_neg ?_
    rintro ⟨rfl, hi, room⟩
    exact Bool.false_ne_true (room.symm.trans (h d hop hi))
  · rfl

theorem rxDelivered_of_getch (hs : step s = .next t) (hop : s.currentOp = some (.getch p)) (hr : t.resp = .byte b) :
    rxDelivered p s = [b] := by
  simp [rxDelivered, hs, hop, hr]

theorem rxDelivered_eq_nil (hs : step s = .next t)
    (h : s.currentOp = some (.getch p) → ∀ b, t.resp ≠ .byte b) : rxDelivered p s = [] := by
  unfold rxDelivered
  rw [hs]
  split
  · next q t' hop ht =>
    cases ht
    split
    · next b hr =>
      refine if_neg ?_
      rintro rfl
      exact h hop b hr
    · rfl
  · rfl

theorem putCompleted_of_putch (hs : step s = .next t) (hop : s.currentOp = some (.putch p d)) (hr : t.resp = .done) :
    putCompleted p s = [d] := by
  simp [putCompleted, hs, hop, hr]

theorem putCompleted_eq_nil (hs : step s = .next t)
    (h : ∀ d, s.currentOp = some (.putch p d) → t.resp ≠ .done) : putCompleted p s = [] := by
  unfold putCompleted
  rw [hs]
  split
  · next q d t' hop ht =>
    cases ht
    refine if_neg ?_
    rintro ⟨rfl, hr⟩
    exact h d hop hr
  · rfl

theorem discards_of_rxerr (hop : s.currentOp = some (.rxerr p d)) (hi : (s.port p).inited = true) :
    discards p s = 1 := by
  simp [discards, hop, hi]

theorem discards_of_rxpush (hop : s.currentOp = some (.rxpush p d)) (hi : (s.port p).inited = true)
    (full : (s.port p).rxFull = true) : discards p s = 1 := by
  simp [discards, hop, hi, full]

theorem discards_eq_zero (herr : ∀ d, s.currentOp = some (.rxerr p d) → (s.port p).inited = false)
    (hpush : ∀ d, s.currentOp = some (.rxpush p d) → (s.port p).inited = true → (s.port p).rxFull = false) :
    discards p s = 0 := by
  unfold discards
  split
  · next q d hop =>
    refine if_neg ?_
    rintro ⟨rfl, hi⟩
    exact Bool.false_ne_true ((herr d hop).symm.trans hi)
  · next q d hop =>
    refine if_neg ?_
    rintro ⟨rfl, hi, full⟩
    exact Bool.false_ne_true ((hpush d hop hi).symm.trans full)
  · rfl

theorem cleared_of_errclr (hs : step s = .next t) (hop : s.currentOp = some (.errclr p)) (hr : t.resp = .count v) :
    cleared p s = v.toNat := by
  simp [cleared, hs, hop, hr]

theorem cleared_eq_zero (hs : step s = .next t)
    (h : s.currentOp = some (.errclr p) → ∀ v, t.resp ≠ .count v) : cleared p s = 0 := by
  unfold cleared
  rw [hs]
  split
  · next q t' hop ht =>
    cases ht
    split
    · next v hr =>
      refine if_neg ?_
      rintro rfl
      exact h hop v hr
    · rfl
  · rfl

/-! ### What a step makes of a port -/

/-- A step leaves port `p` alone, and then no operation completes on it; or its operation has its effect on `p`. -/
inductive PortStep (p : PortId) (s t : State) : Prop
  | still (same : t.port p = s.port p)
      (resp : ∀ i, s.currentOp = some i → i.port = p →
        t.resp ≠ .done ∧ (∀ b, t.resp ≠ .byte b) ∧ ∀ v, t.resp ≠ .count v)
      (waits : ∀ i, s.currentOp = some i → i.port = p → (s.port p).inited = true →
        i = .getch p ∨ ∃ d, i = .putch p d)
  | effect {i : Instr} (hop : s.currentOp = some i) (own : i.port = p) (up : (s.port p).inited = true ∨ i = .init p)
      (e : Effect s.cdc (s.port p) i (t.port p) t.resp)

theorem step_portStep (h : step s = .next t) (p : PortId) : PortStep p s t := by
  cases hop : s.currentOp with
  | none =>
    exact .still (step_noOp_port hop h p) (fun i hi => nomatch hop.symm.trans hi) fun i hi => nomatch hop.symm.trans hi
  | some i =>
    obtain ⟨u, hu, hport, hc⟩ := step_currentOp hop
    rw [hu] at h
    by_cases own : i.port = p
    · subst own
      have e := h ▸ exec_ending i u
      cases e with
      | completes up e =>
        rw [hport, hc] at e
        rw [hport] at up
        exact .effect hop rfl up (by rwa [respond_port, setPort_port_same])
      | waits up w =>
        refine .still ((held_port ..).trans (hport _)) (fun _ _ _ => ⟨nofun, nofun, nofun⟩) fun j hj _ _ => ?_
        cases hop.symm.trans hj
        exact w.getch_or_putch
      | emptyPop up who =>
        refine .still ((raiseFault_port ..).trans (hport _)) (fun _ _ _ => ⟨nofun, nofun, nofun⟩) fun j hj _ _ => ?_
        cases hop.symm.trans hj
        exact .inl who
      | notInitialised down =>
        rw [hport] at down
        exact .still ((raiseFault_port ..).trans (hport _)) (fun _ _ _ => ⟨nofun, nofun, nofun⟩)
          fun _ _ _ hi => absurd (down.symm.trans hi) Bool.false_ne_true
    · have other : ∀ j, s.currentOp = some j → j.port ≠ p := fun j hj hp => by
        cases hop.symm.trans hj
        exact own hp
      exact .still ((exec_port_other h (Ne.symm own)).trans (hport p)) (fun j hj hp => absurd hp (other j hj))
        fun j hj hp => absurd hp (other j hj)

/-! ### One step, law by law -/

/-- What a step without a reset does to the receive ring of `p`: nothing that counts, an accepted push, or a pop. -/
inductive RxStep (p : PortId) (s t : State) : Prop
  | keep (contents : (t.port p).rx.contents = (s.port p).rx.contents) (count : (t.port p).rx.count = (s.port p).rx.count)
      (accepted : rxAccepted p s = []) (delivered : rxDelivered p s = [])
  | push (d : Byte) (up : (s.port p).inited = true) (room : (s.port p).rx.full = false)
      (rx : (t.port p).rx = (s.port p).rx.push s.cdc d) (accepted : rxAccepted p s = [d])
      (delivered : rxDelivered p s = [])
  | pop (b : Byte) (up : (s.port p).inited = true) (seen : (s.port p).rx.avail = true)
      (front : (s.port p).rx.storage.read (s.port p).rx.head = some b)
      (rx : (t.port p).rx = (s.port p).rx.dropHead s.cdc) (accepted : rxAccepted p s = [])
      (delivered : rxDelivered p s = [b])

theorem resetsRx_false (h : resetsRx p s = false) :
    s.currentOp ≠ some (.init p) ∧ s.currentOp ≠ some (.rxflush p) := by
  simpa [resetsRx, initialises] using h

theorem step_rxStep (h : step s = .next t) (hn : resetsRx p s = false) : RxStep p s t := by
  obtain ⟨hinit, hflush⟩ := resetsRx_false hn
  cases step_portStep h p with
  | still same resp waits =>
    exact .keep (by rw [same]) (by rw [same])
      (rxAccepted_eq_nil fun d hop hi => absurd (waits _ hop rfl hi) (by simp))
      (rxDelivered_eq_nil h fun hop => (resp _ hop rfl).2.1)
  | effect hop own up e =>
    have hi := up.resolve_right fun hwho => hinit (hwho ▸ hop)
    generalize hP' : t.port p = P' at e
    generalize hr : t.resp = r at e
    have hacc : (∀ d, s.currentOp = some (.rxpush p d) → (s.port p).rxFull = true) → rxAccepted p s = [] :=
      fun hfull => rxAccepted_eq_nil fun d hd _ => hfull d hd
    have hdel : s.currentOp ≠ some (.getch p) → rxDelivered p s = [] :=
      fun hne => rxDelivered_eq_nil h fun hget => absurd hget hne
    have keep : ∀ Q, t.port p = Q → Q.rx.contents = (s.port p).rx.contents → Q.rx.count = (s.port p).rx.count →
        rxAccepted p s = [] → rxDelivered p s = [] → RxStep p s t := by
      rintro _ rfl hcont hcount
      exact .keep hcont hcount
    cases e with
    | init q => obtain rfl : q = p := own; exact absurd hop hinit
    | rxflush q => obtain rfl : q = p := own; exact absurd hop hflush
    | rxpushStore q d room =>
      obtain rfl : q = p := own
      exact .push d hi room (by rw [hP']) (rxAccepted_of_rxpush hop hi room) (hdel (by simp [hop]))
    | rxpushDrop q d full =>
      exact keep _ hP' rfl rfl (hacc fun _ _ => full) (hdel (by simp [hop]))
    | getch q seen front =>
      obtain rfl : q = p := own
      exact .pop _ hi seen front (by rw [hP']) (hacc (by simp [hop])) (rxDelivered_of_getch h hop hr)
    | _ => exact keep _ hP' rfl rfl (hacc (by simp [hop])) (hdel (by simp [hop]))

/-- Bytes are kept in order by a step: what was buffered, then what is accepted, is what is delivered and then what is
buffered. -/
theorem step_rx_contents (hs : s.Inv) (h : step s = .next t) (hn : resetsRx p s = false) :
    (s.port p).rx.contents ++ rxAccepted p s = rxDelivered p s ++ (t.port p).rx.contents := by
  cases step_rxStep h hn with
  | keep contents _ accepted delivered => rw [contents, accepted, delivered, List.append_nil, List.nil_append]
  | push d up room rx accepted delivered =>
    rw [accepted, delivered, rx, contents_push ((hs.ports p).rxRing up) room, List.nil_append]
  | pop b up seen front rx accepted delivered =>
    rw [accepted, delivered, rx, contents_pop ((hs.ports p).rxRing up) seen (pop_eq_some.2 ⟨front, rfl⟩),
      List.append_nil, List.singleton_append]

theorem step_rx_count (h : step s = .next t) (hn : resetsRx p s = false) :
    (t.port p).rx.count + (rxDelivered p s).length = (s.port p).rx.count + (rxAccepted p s).length := by
  cases step_rxStep h hn with
  | keep _ count accepted delivered => rw [count, accepted, delivered]
  | push d up room rx accepted delivered => rw [accepted, delivered, rx]; rfl
  | pop b up seen front rx accepted delivered =>
    have hpos := count_pos seen
    rw [accepted, delivered, rx, dropHead_count, List.length_singleton, List.length_nil]
    omega

theorem txContents_deliverPush : ({ P with tx := P.tx.deliverPush } : Port).txContents = P.txContents := by
  unfold Port.txContents
  cases P.tx <;> rfl

theorem txContents_deliverPop : ({ P with tx := P.tx.deliverPop } : Port).txContents = P.txContents := by
  unfold Port.txContents
  cases P.tx <;> rfl

/-- A step appends the byte of a completed PUTCH to what is on the wire and then in the ring, and TXDRAIN moves a byte
from one to the other. -/
theorem step_tx_bytes (hs : s.Inv) (h : step s = .next t) (hn : initialises p s = false) :
    (t.port p).wireOut ++ (t.port p).txContents =
      (s.port p).wireOut ++ (s.port p).txContents ++ putCompleted p s := by
  have hinit : s.currentOp ≠ some (.init p) := of_decide_eq_false hn
  cases step_portStep h p with
  | still same resp waits => rw [same, putCompleted_eq_nil h fun d hop => (resp _ hop rfl).1, List.append_nil]
  | effect hop own up e =>
    have hi := up.resolve_right fun hwho => hinit (hwho ▸ hop)
    have hP := hs.ports p
    generalize hr : t.resp = r at e
    have hput : (∀ d, s.currentOp ≠ some (.putch p d)) → putCompleted p s = [] :=
      fun hne => putCompleted_eq_nil h fun d hd => absurd hd (hne d)
    generalize t.port p = P' at e ⊢
    cases e with
    | init q => obtain rfl : q = p := own; exact absurd hop hinit
    | putchStore q d htx room =>
      obtain rfl : q = p := own
      rw [putCompleted_of_putch h hop hr, txContents_queued htx, txContents_queued (queuedAfterPut_eq ..),
        contents_push (hP.txRing hi _ _ htx) room, List.append_assoc]
    | putchSend q d htx free =>
      obtain rfl : q = p := own
      have hnone : ∀ Q : Port, Q.tx = .direct → Q.txContents = [] := fun Q hQ => by rw [Port.txContents, hQ]; rfl
      rw [putCompleted_of_putch h hop hr, hnone _ htx, hnone _ (show (Port.sendByte d _).tx = _ from htx)]
      simp [Port.sendByte]
    | txdrainSend q htx free seen front =>
      rw [hput (by simp [hop]), txContents_queued htx,
        contents_pop (hP.txRing hi _ _ htx) seen (pop_eq_some.2 ⟨front, rfl⟩)]
      simp [Port.sendByte, Port.txContents, TxPath.ring?]
    | txdrainDisarm q htx =>
      rw [hput (by simp [hop]), List.append_nil, txContents_queued htx]
      rfl
    | syncTxpush => rw [hput (by simp [hop]), List.append_nil, txContents_deliverPush]
    | syncTxpop => rw [hput (by simp [hop]), List.append_nil, txContents_deliverPop]
    | _ => exact (hput (by simp [hop])).symm ▸ (List.append_nil _).symm

/-- Below saturation a step counts what it discards, and ERRCLR takes off the counter what it returns. -/
theorem step_errors (h : step s = .next t) (hn : initialises p s = false)
    (hsat : (s.port p).errcnt.toNat + discards p s ≤ 2 ^ 32 - 1) :
    (t.port p).errcnt.toNat + cleared p s = (s.port p).errcnt.toNat + discards p s := by
  have hinit : s.currentOp ≠ some (.init p) := of_decide_eq_false hn
  cases step_portStep h p with
  | still same resp waits =>
    rw [same, cleared_eq_zero h fun hop => (resp _ hop rfl).2.2, discards_eq_zero]
    · exact fun d hop => Bool.eq_false_of_not_eq_true fun hi => absurd (waits _ hop rfl hi) (by simp)
    · exact fun d hop hi => absurd (waits _ hop rfl hi) (by simp)
  | effect hop own up e =>
    have hi := up.resolve_right fun hwho => hinit (hwho ▸ hop)
    generalize hr : t.resp = r at e
    have hclr : s.currentOp ≠ some (.errclr p) → cleared p s = 0 :=
      fun hne => cleared_eq_zero h fun hop => absurd hop hne
    generalize t.port p = P' at e ⊢
    cases e with
    | init q => obtain rfl : q = p := own; exact absurd hop hinit
    | rxpushDrop q d full =>
      obtain rfl : q = p := own
      rw [discards_of_rxpush hop hi full] at hsat ⊢
      rw [hclr (by simp [hop]), Port.countError, satSucc_of_lt (by omega)]
    | rxerr q d =>
      obtain rfl : q = p := own
      rw [discards_of_rxerr hop hi] at hsat ⊢
      rw [hclr (by simp [hop]), Port.countError, satSucc_of_lt (by omega)]
    | errclr q =>
      obtain rfl : q = p := own
      have hle : (s.port q).errview ≤ (s.port q).errcnt := by rw [BitVec.le_def, errview_toNat]; omega
      rw [discards_eq_zero (by simp [hop]) (by simp [hop]), cleared_of_errclr h hop hr, BitVec.toNat_sub_of_le hle]
      exact Nat.sub_add_cancel (BitVec.le_def.1 hle)
    | rxpushStore q d room =>
      rw [discards_eq_zero (by simp [hop]) fun _ _ _ => room, hclr (by simp [hop])]
    | _ =>
      exact congrArg₂ (· + ·) rfl
        ((hclr (by simp [hop])).trans (discards_eq_zero (by simp [hop]) (by simp [hop])).symm)

/-! ### The induction over a run -/

theorem run_succ (h : core.run (k + 1) s = .next t) : ∃ u, step s = .next u ∧ core.run k u = .next t := by
  simp only [Host.Core.run] at h
  split at h
  · next u hu => exact ⟨u, hu, h⟩
  · cases h
  · cases h

theorem collect_succ {α : Type} (f : State → List α) (h : step s = .next u) :
    collect f (k + 1) s = f s ++ collect f k u := by
  rw [collect, h]

theorem total_succ (f : State → Nat) (h : step s = .next u) : total f (k + 1) s = f s + total f k u := by
  rw [total, h]

theorem never_succ {b : State → Bool} (h : step s = .next u) (hn : never b (k + 1) s = true) :
    b s = false ∧ never b k u = true := by
  rw [never, h] at hn
  simpa using hn

/-- A law that holds over no steps and is carried over one step from a state that meets the invariant, at which `b` is
false, holds over every run along which `b` is never true. -/
theorem run_induction {b : State → Bool} {law : Nat → State → State → Prop} (zero : ∀ s, law 0 s s)
    (succ : ∀ k s u t, s.Inv → step s = .next u → b s = false → law k u t → law (k + 1) s t) :
    ∀ k s t, s.Inv → core.run k s = .next t → never b k s = true → law k s t := by
  intro k
  induction k with
  | zero =>
    intro s t _ h _
    cases h
    exact zero s
  | succ k ih =>
    intro s t hs h hn
    obtain ⟨u, hu, hrun⟩ := run_succ h
    obtain ⟨hb, hn⟩ := never_succ hu hn
    exact succ k s u t hs hu hb (ih u t (step_keeps_inv hs hu) hrun hn)

theorem run_keeps_inv (hs : s.Inv) (h : core.run k s = .next t) : t.Inv := by
  induction k generalizing s with
  | zero => cases h; exact hs
  | succ k ih =>
    obtain ⟨u, hu, hrun⟩ := run_succ h
    exact ih (step_keeps_inv hs hu) hrun

end

/-! ### The obligations about runs -/

/-- Settles O19. -/
theorem receivedBytesAreDeliveredInOrder : Obligations.ReceivedBytesAreDeliveredInOrder := by
  intro k s t p
  refine run_induction
    (law := fun k s t => (s.port p).rx.contents ++ collect (rxAccepted p) k s =
      collect (rxDelivered p) k s ++ (t.port p).rx.contents)
    (fun s => List.append_nil _) (fun k s u t hs hu hn ih => ?_) k s t
  rw [collect_succ _ hu, collect_succ _ hu, ← List.append_assoc, step_rx_contents hs hu hn, List.append_assoc, ih,
    List.append_assoc]

/-- Settles O20. -/
theorem occupancyIsPushesLessPops : Obligations.OccupancyIsPushesLessPops := by
  intro k s t p hs h hn
  refine ⟨run_induction
    (law := fun k s t => (t.port p).rx.count + (collect (rxDelivered p) k s).length =
      (s.port p).rx.count + (collect (rxAccepted p) k s).length)
    (fun s => rfl) (fun k s u t hs hu hn ih => ?_) k s t hs h hn,
    fun hi => (((run_keeps_inv hs h).ports p).rxRing hi).count_le⟩
  have hstep := step_rx_count hu hn
  rw [collect_succ _ hu, collect_succ _ hu, List.length_append, List.length_append]
  omega

/-- Settles O29. -/
theorem transmittedBytesKeepTheirOrder : Obligations.TransmittedBytesKeepTheirOrder := by
  intro k s t p
  refine run_induction
    (law := fun k s t => (t.port p).wireOut ++ (t.port p).txContents =
      (s.port p).wireOut ++ (s.port p).txContents ++ collect (putCompleted p) k s)
    (fun s => (List.append_nil _).symm) (fun k s u t hs hu hn ih => ?_) k s t
  rw [collect_succ _ hu, ih, step_tx_bytes hs hu hn, List.append_assoc]

/-- Settles O35. -/
theorem errorEventsAreConserved : Obligations.ErrorEventsAreConserved := by
  intro k s t p hs h hn
  refine run_induction
    (law := fun k s t => (s.port p).errcnt.toNat + total (discards p) k s ≤ 2 ^ 32 - 1 →
      (t.port p).errcnt.toNat + total (cleared p) k s = (s.port p).errcnt.toNat + total (discards p) k s)
    (fun s _ => rfl) (fun k s u t hs hu hn ih => ?_) k s t hs h hn
  rw [total_succ _ hu, total_succ _ hu]
  intro hsat
  have hstep := step_errors hu hn (by omega)
  have := ih (by omega)
  omega

end Sys2Proof.Machine
end

section
/-! Sequences of operations: that the last answer is never read, how effects chain, and from these a string enqueued
whole, a ring drained without the foreground, interrupts that commute, and `EXACT` inside `LAGGED`. -/

namespace Sys2Proof.Machine

section
variable {c : CdcMode} {P P' P₁ P₂ : Port} {i j : Instr} {l l' : List Instr} {r r₁ r₂ : Response} {s t u v : State}
  {p q : PortId} {R : Ring} {ie : Bool} {d : Byte}

/-! ### Sequences -/

theorem runOps_cons (h : exec i s = .next t) : runOps (i :: l) s = runOps l t := by
  rw [runOps, h]

theorem runOps_cons_next (h : runOps (i :: l) s = .next t) : ∃ u, exec i s = .next u ∧ runOps l u = .next t := by
  rw [runOps] at h
  split at h
  · exact ⟨_, ‹_›, h⟩
  · cases h
  · cases h

theorem runOps_append (h : runOps l s = .next t) : runOps (l ++ l') s = runOps l' t := by
  induction l generalizing s with
  | nil => cases h; rfl
  | cons i l ih =>
    obtain ⟨u, hu, hrun⟩ := runOps_cons_next h
    rw [List.cons_append, runOps_cons hu, ih hrun]

theorem runOps_keeps_inv (hs : s.Inv) (h : runOps l s = .next t) : t.Inv := by
  induction l generalizing s with
  | nil => cases h; exact hs
  | cons i l ih =>
    obtain ⟨u, hu, hrun⟩ := runOps_cons_next h
    exact ih (exec_keeps_inv hs hu) hrun

theorem runOps_answers (hs : s.Inv) (l : List Instr) : ∃ t, runOps l s = .next t := by
  induction l generalizing s with
  | nil => exact ⟨s, rfl⟩
  | cons i l ih =>
    obtain ⟨u, hu⟩ := exec_answers hs i
    rw [runOps_cons hu]
    exact ih (exec_keeps_inv hs hu)

/-! ### The last answer is never read (R63, log entry 3) -/

/-- No operation depends on the last answer, which each of them replaces. -/
theorem exec_respond (i : Instr) (s : State) (r : Response) : exec i (s.respond r) = exec i s := by
  have e := exec_local (s := s) (s' := s.respond r) i [] rfl (respond_port ..)
  generalize i.port = p at e
  generalize exec i s = x, exec i (s.respond r) = x' at e ⊢
  cases e with
  | completes => cases p <;> rfl
  | answers | faults | holds | stops => rfl

theorem sameButAnswer_respond (s : State) (r : Response) : (s.respond r).sameButAnswer s := rfl

theorem sameButAnswer_iff : s.sameButAnswer t ↔ ∃ r, s = t.respond r := by
  constructor
  · intro h
    refine ⟨s.resp, ?_⟩
    calc s
      _ = (s.respond .none).respond s.resp := rfl
      _ = (t.respond .none).respond s.resp := by rw [show s.respond .none = t.respond .none from h]
  · rintro ⟨r, rfl⟩
    exact sameButAnswer_respond t r

theorem exec_congr_answer (h : s.sameButAnswer t) : exec i s = exec i t := by
  obtain ⟨r, rfl⟩ := sameButAnswer_iff.1 h
  exact exec_respond i t r

theorem runOps_congr_answer (h : s.sameButAnswer t) (hrun : runOps l t = .next v) :
    ∃ u, runOps l s = .next u ∧ u.sameButAnswer v := by
  cases l with
  | nil => cases hrun; exact ⟨s, rfl, h⟩
  | cons i l =>
    obtain ⟨w, hw, hrun⟩ := runOps_cons_next hrun
    exact ⟨v, by rw [runOps_cons ((exec_congr_answer h).trans hw), hrun], rfl⟩

/-! ### Effects one after the other -/

@[simp] theorem respond_respond : (s.respond r₁).respond r₂ = s.respond r₂ := rfl

@[simp] theorem respond_setPort : (s.respond r).setPort p P = (s.setPort p P).respond r := by cases p <;> rfl

/-- An effect on a port of which the state is known. -/
theorem exec_setPort_of_effect (hp : i.port = p) (e : Effect s.cdc P i P' r₂) (up : P.inited = true) :
    exec i ((s.setPort p P).respond r₁) = .next ((s.setPort p P').respond r₂) := by
  subst hp
  rw [exec_of_effect (P := P') (r := r₂) (by simp [up]) (by simpa using e)]
  simp

/-- An initialised port on which no operation can stop has an effect of every operation that is not the foreground's. -/
theorem nonFg_effect (hs : s.Inv) (hi : (s.port i.port).inited = true) (hfg : issuer i ≠ .fg) :
    ∃ P r, Effect s.cdc (s.port i.port) i P r := by
  have e := exec_ending i s
  generalize exec i s = x at e
  cases e with
  | completes up e => exact ⟨_, _, e⟩
  | waits up w =>
    rcases w.getch_or_putch with who | ⟨d, who⟩ <;> exact absurd (congrArg issuer who) hfg
  | emptyPop up who => exact absurd (congrArg issuer who) hfg
  | notInitialised down => exact absurd (down.symm.trans hi) Bool.false_ne_true
  | stops f up hollow => exact absurd hollow ((hs.ports _).not_hollow up)

/-! ### A string that fits (R69, R108) -/

/-- PUTCHes of a string no longer than the free slots the foreground sees. -/
theorem runOps_putches (bytes : List Byte) (hs : s.Inv) (hi : (s.port p).inited = true)
    (htx : (s.port p).tx = .queued R ie) (hfit : R.viewp + bytes.length ≤ R.N) :
    ∃ u, runOps (bytes.map (.putch p)) s = .next u ∧ u.held = s.held ∧ u.faulted = s.faulted ∧
      (u.port p).txContents = R.contents ++ bytes ∧ (u.port p).wireOut = (s.port p).wireOut ∧
      (u.port p).rx = (s.port p).rx ∧ (u.port p).errcnt = (s.port p).errcnt := by
  induction bytes generalizing s R ie with
  | nil => exact ⟨s, rfl, rfl, rfl, by rw [txContents_queued htx, List.append_nil], rfl, rfl, rfl⟩
  | cons b bytes ih =>
    rw [List.length_cons] at hfit
    have room : R.full = false := full_false.2 (by omega)
    have hput := exec_putch_of_room (d := b) hi htx room
    obtain ⟨u, hu, hheld, hfault, hcont, hwire, hrx, herr⟩ := ih (R := R.push s.cdc b)
      (ie := if s.cdc = .exact then true else ie) (exec_keeps_inv hs hput) (by simpa using hi)
      (by simp [queuedAfterPut_eq]) (by simp only [Ring.viewp, push_count, push_pendPop, push_N] at hfit ⊢; omega)
    refine ⟨u, (runOps_cons hput).trans hu, by simpa using hheld, by simpa using hfault, ?_, by simpa using hwire,
      by simpa using hrx, by simpa using herr⟩
    rw [hcont, contents_push ((hs.ports p).txRing hi R ie htx) room, List.append_assoc]
    rfl

/-! ### Draining a ring without the foreground (R24, R104, R106, R138) -/

/-- What sends one byte, from whatever state: deliver a token so that the byte is seen and the interrupt armed, free the
hardware register, drain. -/
def drainRound (p : PortId) : List Instr := [.syncTxpush p, .txdone p, .txdrain p]

/-- TXDONE leaves the register free, whether or not it was. -/
theorem txdone_effect (c : CdcMode) (P : Port) (p : PortId) :
    ∃ r, Effect c P (.txdone p) { P with hwTxReady := true } r := by
  cases h : P.hwTxReady with
  | false => exact ⟨_, .txdoneFree p h⟩
  | true =>
    have same : { P with hwTxReady := true } = P := by rw [← h]
    exact ⟨.notEnabled, by rw [same]; exact .txdoneIdle p h⟩

/-- At most the occupancy is undelivered (R19), so that one delivery shows a byte that is there. -/
theorem Ring.Inv.avail_deliverPush_of_count (hR : R.Inv c) (hpos : 0 < R.count) : R.deliverPush.avail = true := by
  have hle := hR.pendPush_le
  rw [avail_true]
  simp only [Ring.viewc, Ring.deliverPush]
  omega

/-- A round on a port whose transmit ring is not empty sends its oldest byte. -/
theorem exec_drainRound (hs : s.Inv) (hi : (s.port p).inited = true) (htx : (s.port p).tx = .queued R ie)
    (hpos : 0 < R.count) :
    ∃ P b R', runOps (drainRound p) s = .next ((s.setPort p P).respond .done) ∧ P.inited = true ∧
      P.tx = .queued R' true ∧ R'.count + 1 = R.count ∧ P.wireOut ++ P.txContents =
        (s.port p).wireOut ++ (s.port p).txContents ∧ P.wireOut = (s.port p).wireOut ++ [b] := by
  have hP := (hs.ports p).deliverTxPush hi
  have ha := ((hs.ports p).txRing hi R ie htx).avail_deliverPush_of_count hpos
  obtain ⟨ie', htx', harmed⟩ : ∃ ie', (s.port p).tx.deliverPush = .queued R.deliverPush ie' ∧ ie' = true := by
    rw [htx]
    exact ⟨_, rfl, hP.armed hi _ _ (by rw [htx]; rfl) (avail_true.1 ha)⟩
  subst harmed
  obtain ⟨b, hb⟩ := (hP.txRing hi _ _ htx').pop_some ha
  obtain ⟨hfront, -⟩ := pop_eq_some.1 hb
  obtain ⟨r, hdone⟩ := txdone_effect s.cdc { s.port p with tx := (s.port p).tx.deliverPush } p
  have hdrain := Effect.txdrainSend (c := s.cdc) (P := { s.port p with
    tx := (s.port p).tx.deliverPush, hwTxReady := true }) p htx' rfl ha hfront
  refine ⟨Port.sendByte b { s.port p with tx := .queued (R.deliverPush.dropHead s.cdc) true, hwTxReady := true }, b,
    R.deliverPush.dropHead s.cdc, ?_, hi, rfl, Nat.sub_add_cancel hpos, ?_, rfl⟩
  · exact (runOps_cons (exec_of_effect (.inl hi) (.syncTxpush p))).trans
      ((runOps_cons (exec_setPort_of_effect (p := p) rfl hdone hi)).trans
        (runOps_cons (exec_setPort_of_effect (p := p) rfl hdrain hi)))
  · rw [txContents_queued htx, ← contents_deliverPush, contents_pop (hP.txRing hi _ _ htx') ha hb]
    simp [Port.sendByte, Port.txContents, TxPath.ring?]

/-- As many rounds as the ring holds bytes empty it, and touch nothing but the port. -/
theorem runOps_drainRounds (n : Nat) (hs : s.Inv) (hi : (s.port p).inited = true)
    (htx : (s.port p).tx = .queued R ie) (hn : R.count = n) :
    ∃ P r, runOps (List.replicate n (drainRound p)).flatten s = .next ((s.setPort p P).respond r) ∧
      P.wireOut = (s.port p).wireOut ++ (s.port p).txContents ∧ P.txContents = [] := by
  induction n generalizing s R ie with
  | zero =>
    have hnil : (s.port p).txContents = [] := by rw [txContents_queued htx, Ring.contents, hn]; rfl
    refine ⟨s.port p, s.resp, ?_, by rw [hnil, List.append_nil], hnil⟩
    rw [setPort_self]
    rfl
  | succ n ih =>
    obtain ⟨P, b, R', hround, hiP, htxP, hcount, hbytes, -⟩ := exec_drainRound hs hi htx (by omega)
    obtain ⟨Q, r, hrun, hwire, hnil⟩ := ih (R := R') (ie := true) (runOps_keeps_inv hs hround) (by simpa using hiP)
      (by simpa using htxP) (by omega)
    refine ⟨Q, r, ?_, ?_, hnil⟩
    · rw [List.replicate_succ, List.flatten_cons, runOps_append hround, hrun]
      simp
    · rw [hwire, respond_port, setPort_port_same, hbytes]

end

/-- Settles O28. -/
theorem putstrEnqueuesTheString : Obligations.PutstrEnqueuesTheString := by
  intro s p bytes rest t ie hs hi htx h0 hfit
  rw [putstrExpandsToPutches p bytes rest h0]
  exact runOps_putches bytes hs hi htx hfit

/-- Settles O31: round by round, each of which sends one byte. -/
theorem bufferedBytesCanAlwaysBeSent : Obligations.BufferedBytesCanAlwaysBeSent := by
  intro s p hs hi
  cases htx : (s.port p).tx with
  | direct =>
    have hnil : (s.port p).txContents = [] := by rw [Port.txContents, htx]; rfl
    exact ⟨[], s, nofun, rfl, by rw [hnil, List.append_nil], hnil, rfl, rfl⟩
  | queued R ie =>
    obtain ⟨P, r, hrun, hwire, hnil⟩ := runOps_drainRounds R.count hs hi htx rfl
    refine ⟨_, _, fun i hmem => ?_, hrun, by simpa using hwire, by simpa using hnil, by simp, ?_⟩
    · obtain ⟨l, hl, hmem⟩ := List.mem_flatten.1 hmem
      rw [List.eq_of_mem_replicate hl, drainRound] at hmem
      simp only [List.mem_cons, List.not_mem_nil, or_false] at hmem
      rcases hmem with rfl | rfl | rfl <;> simp [issuer]
    · rw [respond_port, setPort_port_other _ _ _ _ (by cases p <;> nofun)]

/-! ### Interrupts in either order (R157) -/

section
variable {c : CdcMode} {P P₁ P₂ : Port} {i j : Instr} {r₁ r₂ : Response} {s : State} {p q : PortId} {a b : IrqSource}

theorem issuer_of_source (h : sourceOf i = some a) : issuer i ≠ .fg := by
  cases i with
  | rxpush | rxerr | txdrain => exact nofun
  | _ => cases h

/-- The receive and the transmit interrupt of one port write different parts of it, and neither reads what the other
writes. -/
theorem rx_tx_effects_commute (hi : sourceOf i = some (.rx p)) (hj : sourceOf j = some (.tx q))
    (ei : Effect c P i P₁ r₁) (ej : Effect c P j P₂ r₂) : ∃ Q, Effect c P₁ j Q r₂ ∧ Effect c P₂ i Q r₁ := by
  cases ei with
  | rxpushDrop p' d full =>
    cases ej with
    | txdrainSend q' htx free seen front => exact ⟨_, .txdrainSend q' htx free seen front, .rxpushDrop p' d full⟩
    | txdrainDisarm q' htx free empty => exact ⟨_, .txdrainDisarm q' htx free empty, .rxpushDrop p' d full⟩
    | txdrainIdle q' idle => exact ⟨_, .txdrainIdle q' idle, .rxpushDrop p' d full⟩
    | _ => cases hj
  | rxpushStore p' d room =>
    cases ej with
    | txdrainSend q' htx free seen front => exact ⟨_, .txdrainSend q' htx free seen front, .rxpushStore p' d room⟩
    | txdrainDisarm q' htx free empty => exact ⟨_, .txdrainDisarm q' htx free empty, .rxpushStore p' d room⟩
    | txdrainIdle q' idle => exact ⟨_, .txdrainIdle q' idle, .rxpushStore p' d room⟩
    | _ => cases hj
  | rxerr p' d =>
    cases ej with
    | txdrainSend q' htx free seen front => exact ⟨_, .txdrainSend q' htx free seen front, .rxerr p' d⟩
    | txdrainDisarm q' htx free empty => exact ⟨_, .txdrainDisarm q' htx free empty, .rxerr p' d⟩
    | txdrainIdle q' idle => exact ⟨_, .txdrainIdle q' idle, .rxerr p' d⟩
    | _ => cases hj
  | _ => cases hi

/-- Two operations on one port whose effects commute. -/
theorem runOps_pair_same_port (hp : i.port = p) (hq : j.port = p) (up : (s.port p).inited = true)
    (ei : Effect s.cdc (s.port p) i P₁ r₁) (ej : Effect s.cdc P₁ j P₂ r₂) :
    runOps [i, j] s = .next ((s.setPort p P₂).respond r₂) := by
  subst hp
  exact runOps_pair (exec_of_effect (.inl up) ei) (exec_setPort_of_effect hq ej (ei.inited (.inl up)))

/-- Two operations on different ports. -/
theorem runOps_pair_other_port (hne : i.port ≠ j.port) (upi : (s.port i.port).inited = true)
    (upj : (s.port j.port).inited = true) (ei : Effect s.cdc (s.port i.port) i P₁ r₁)
    (ej : Effect s.cdc (s.port j.port) j P₂ r₂) :
    runOps [i, j] s = .next (((s.setPort i.port P₁).setPort j.port P₂).respond r₂) := by
  have hport : ((s.setPort i.port P₁).respond r₁).port j.port = s.port j.port := by
    rw [respond_port, setPort_port_other _ _ _ _ hne.symm]
  refine (runOps_pair (exec_of_effect (.inl upi) ei)
    (exec_of_effect (P := P₂) (r := r₂) (.inl (hport ▸ upj)) (by simpa [hport] using ej))).trans ?_
  simp

/-- Two interrupts of one port in either order. -/
theorem rx_tx_commute (hs : s.Inv) (hi : sourceOf i = some (.rx p)) (hj : sourceOf j = some (.tx q))
    (hp : i.port = j.port) (up : (s.port j.port).inited = true) :
    ∃ u v, runOps [i, j] s = .next u ∧ runOps [j, i] s = .next v ∧ u.sameButAnswer v := by
  obtain ⟨P₁, r₁, ei⟩ := nonFg_effect hs (hp ▸ up) (issuer_of_source hi)
  obtain ⟨P₂, r₂, ej⟩ := nonFg_effect hs up (issuer_of_source hj)
  rw [hp] at ei
  obtain ⟨Q, ej', ei'⟩ := rx_tx_effects_commute hi hj ei ej
  exact ⟨_, _, runOps_pair_same_port hp rfl up ei ej', runOps_pair_same_port rfl hp up ej ei', rfl⟩

/-- The source of an operation names its port. -/
theorem source_port (h : sourceOf i = some a) : a = .rx i.port ∨ a = .tx i.port := by
  cases i <;> cases h <;> simp [Instr.port]

/-- Settles O50: on one port it is the receive and the transmit interrupt, and two ports share nothing. -/
theorem simultaneousInterruptsCommute : Obligations.SimultaneousInterruptsCommute := by
  intro s i j a b hs hi hj hne upi upj
  by_cases hp : i.port = j.port
  · rcases source_port hi with rfl | rfl <;> rcases source_port hj with rfl | rfl
    · exact absurd (congrArg IrqSource.rx hp) hne
    · exact rx_tx_commute hs hi hj hp upj
    · obtain ⟨u, v, hu, hv, huv⟩ := rx_tx_commute hs hj hi hp.symm upi
      exact ⟨v, u, hv, hu, huv.symm⟩
    · exact absurd (congrArg IrqSource.tx hp) hne
  · obtain ⟨P₁, r₁, ei⟩ := nonFg_effect hs upi (issuer_of_source hi)
    obtain ⟨P₂, r₂, ej⟩ := nonFg_effect hs upj (issuer_of_source hj)
    refine ⟨_, _, runOps_pair_other_port hp upi upj ei ej, runOps_pair_other_port (Ne.symm hp) upj upi ej ei, ?_⟩
    rw [setPort_comm hp]
    rfl

end

end Sys2Proof.Machine
end

section
/-! Two simulations: an operation under `EXACT` is the operation under `LAGGED` with its tokens delivered at once
(R142), and the values that the spec leaves unspecified are never read (R34). -/

namespace Sys2Proof.Machine

/-! ### `EXACT` inside `LAGGED` (R142) -/

/-- The channels on which an operation may leave a token (R142), in the order of `deliveries`. -/
def created : Instr → List SyncChannel
  | .rxpush _ _ => [.rxPush, .err]
  | .rxerr _ _ => [.err]
  | .getch _ => [.rxPop]
  | .putch _ _ => [.txPush]
  | .txdrain _ => [.txPop]
  | _ => []

/-- The port with one token delivered on each of some channels, one after the other. -/
def deliverAll (chs : List SyncChannel) (P : Port) : Port := chs.foldl (fun P ch => ch.deliver P) P

section
variable {P P' : Port} {i : Instr} {r : Response} {s t : State} {p : PortId} {d : Byte} {R : Ring} {f : ModelFault}
  {chs : List SyncChannel}

theorem deliveries_eq (i : Instr) : deliveries i = (created i).map fun ch => ch.op i.port := by
  cases i <;> rfl

theorem deliverAll_of_pending_zero (h : ∀ ch : SyncChannel, ch.pending P = 0) : deliverAll chs P = P := by
  induction chs with
  | nil => rfl
  | cons ch chs ih =>
    rw [deliverAll, List.foldl_cons, deliver_of_pending_zero (h ch)]
    exact ih

/-- Deliveries on an initialised port are all that the port sees. -/
theorem runOps_deliveries (chs : List SyncChannel) (hi : (s.port p).inited = true) :
    ∃ u, runOps (chs.map fun ch => ch.op p) s = .next u ∧
      u.sameButAnswer (s.setPort p (deliverAll chs (s.port p))) := by
  induction chs generalizing s with
  | nil => exact ⟨s, rfl, by rw [deliverAll, List.foldl_nil, setPort_self]; rfl⟩
  | cons ch chs ih =>
    obtain ⟨u, hu, hsame⟩ := ih (s := (s.deliver ch p).respond .done) (by simpa using hi)
    refine ⟨u, (runOps_cons (exec_op ch hi)).trans hu, hsame.trans ?_⟩
    simp [State.deliver, deliverAll]

/-- A token that a counted event leaves under `LAGGED` is taken up by its delivery (R90, R140). -/
theorem deliver_err_countError (h : P.pendErr = 0) :
    SyncChannel.err.deliver (P.countError .lagged) = P.countError .exact := by
  simp only [SyncChannel.deliver, Port.countError, h, token_lagged, token_exact]
  split <;> rfl

theorem deliver_txPush_queuedAfterPut (ie : Bool) :
    (queuedAfterPut .lagged d R ie).deliverPush = queuedAfterPut .exact d R ie := by
  simp [queuedAfterPut, TxPath.deliverPush, Ring.push, Ring.deliverPush]

/-- What an operation makes of a port under `EXACT` is what it makes of it under `LAGGED`, once the tokens it leaves are
delivered; and it answers the same. -/
theorem Effect.lagged (e : Effect .exact P i P' r) (hP : P.Inv .exact) (up : P.inited = true ∨ i = .init i.port) :
    ∃ Q, Effect .lagged P i Q r ∧ deliverAll (created i) Q = P' := by
  have pending (hi : P.inited = true) := hP.exact_pending hi
  cases e with
  | init p => exact ⟨_, .init p, rfl⟩
  | rxpushDrop p d full =>
    have hi := up.resolve_right nofun
    refine ⟨_, .rxpushDrop p d full, ?_⟩
    have hnone : SyncChannel.rxPush.deliver (P.countError .lagged) = P.countError .lagged :=
      deliver_of_pending_zero (pending hi .rxPush)
    exact (congrArg SyncChannel.err.deliver hnone).trans (deliver_err_countError (pending hi .err))
  | rxpushStore p d room =>
    have hi := up.resolve_right nofun
    exact ⟨_, .rxpushStore p d room,
      deliver_of_pending_zero (ch := .err) (P := { P with rx := (P.rx.push .lagged d).deliverPush }) (pending hi .err)⟩
  | rxerr p d => exact ⟨_, .rxerr p d, deliver_err_countError (pending (up.resolve_right nofun) .err)⟩
  | rxavail p => exact ⟨_, .rxavail p, rfl⟩
  | getch p seen front => exact ⟨_, .getch p seen front, rfl⟩
  | rxflush p => exact ⟨_, .rxflush p, rfl⟩
  | putchStore p d htx room =>
    refine ⟨_, .putchStore p d htx room, ?_⟩
    rw [← deliver_txPush_queuedAfterPut]
    rfl
  | putchSend p d htx free =>
    exact ⟨_, .putchSend p d htx free,
      deliver_of_pending_zero (ch := .txPush) (pending_txPush_direct (P := P.sendByte d) htx)⟩
  | txdrainSend p htx free seen front => exact ⟨_, .txdrainSend p htx free seen front, rfl⟩
  | txdrainDisarm p htx free empty =>
    refine ⟨_, .txdrainDisarm p htx free empty, deliver_of_pending_zero (ch := .txPop) ?_⟩
    exact (pending_txPop_queued htx).symm.trans (pending (up.resolve_right nofun) .txPop)
  | txdrainIdle p idle =>
    exact ⟨_, .txdrainIdle p idle, deliver_of_pending_zero (pending (up.resolve_right nofun) .txPop)⟩
  | txrdy p => exact ⟨_, .txrdy p, rfl⟩
  | errq p => exact ⟨_, .errq p, rfl⟩
  | errclr p => exact ⟨_, .errclr p, rfl⟩
  | syncRxpush p => exact ⟨_, .syncRxpush p, rfl⟩
  | syncRxpop p => exact ⟨_, .syncRxpop p, rfl⟩
  | syncTxpush p => exact ⟨_, .syncTxpush p, rfl⟩
  | syncTxpop p => exact ⟨_, .syncTxpop p, rfl⟩
  | syncErr p => exact ⟨_, .syncErr p, rfl⟩
  | txdoneFree p busy => exact ⟨_, .txdoneFree p busy, rfl⟩
  | txdoneIdle p free => exact ⟨_, .txdoneIdle p free, rfl⟩

/-- An operation holds where it waits. -/
theorem exec_of_waits (hi : (s.port i.port).inited = true) (w : Waits (s.port i.port) i) :
    exec i s = .next { s with held := some i, resp := .held } := by
  cases w with
  | getch p mode empty => exact exec_getch_of_empty_polled hi empty mode
  | putchFull p d htx full => exact exec_putch_of_full hi htx full
  | putchBusy p d htx busy => exact exec_putch_of_busy hi htx busy

/-- A fault that is recorded already is raised without a trace but for the answer. -/
theorem raiseFault_of_mem (h : f ∈ s.faulted) : s.raiseFault f = s.respond (.faulted f) := by
  rw [State.raiseFault, addFault, if_pos h]
  rfl

/-- On a port not yet initialised deliveries raise the fault that is there already. -/
theorem runOps_deliveries_of_not_inited (chs : List SyncChannel) (down : (s.port p).inited = false)
    (hmem : .notInitialised p ∈ s.faulted) :
    ∃ u, runOps (chs.map fun ch => ch.op p) s = .next u ∧ u.sameButAnswer s := by
  induction chs generalizing s with
  | nil => exact ⟨s, rfl, rfl⟩
  | cons ch chs ih =>
    have hop : (ch.op p).port = p ∧ ch.op p ≠ .init p := by cases ch <;> exact ⟨rfl, nofun⟩
    have hexec : exec (ch.op p) s = .next (s.respond (.faulted (.notInitialised p))) := by
      rw [exec_of_not_inited (by rw [hop.1]; exact hop.2) (by rwa [hop.1]), hop.1, raiseFault_of_mem hmem]
    obtain ⟨u, hu, hsame⟩ := ih (s := s.respond (.faulted (.notInitialised p))) (by simpa using down) hmem
    exact ⟨u, (runOps_cons hexec).trans hu, hsame⟩

/-- Deliveries on an initialised port without a token change nothing. -/
theorem runOps_deliveries_of_pending_zero (chs : List SyncChannel) (hi : (s.port p).inited = true)
    (h : ∀ ch : SyncChannel, ch.pending (s.port p) = 0) :
    ∃ u, runOps (chs.map fun ch => ch.op p) s = .next u ∧ u.sameButAnswer s := by
  obtain ⟨u, hu, hsame⟩ := runOps_deliveries chs hi
  rw [deliverAll_of_pending_zero h, setPort_self] at hsame
  exact ⟨u, hu, hsame⟩

theorem lagged_setPort (s : State) (p : PortId) (P : Port) : (s.setPort p P).lagged = s.lagged.setPort p P := by
  cases p <;> rfl

/-- One operation: the same answer under `LAGGED`, and the same state once its tokens are delivered. -/
theorem exec_lagged (hs : s.Inv) (hc : s.cdc = .exact) (h : exec i s = .next t) :
    ∃ u v, exec i s.lagged = .next u ∧ u.resp = t.resp ∧ runOps (deliveries i) u = .next v ∧
      v.sameButAnswer t.lagged := by
  have hP := hc ▸ hs.ports i.port
  have e := h ▸ exec_ending i s
  rw [deliveries_eq]
  cases e with
  | completes up e =>
    rw [hc] at e
    obtain ⟨Q, e', hQ⟩ := e.lagged hP up
    have hexec := exec_of_effect (i := i) (s := s.lagged) (P := Q) (by simpa using up) (by simpa using e')
    obtain ⟨v, hv, hsame⟩ := runOps_deliveries (p := i.port) (created i)
      (s := (s.lagged.setPort i.port Q).respond _) (by simpa using e'.inited up)
    refine ⟨_, v, hexec, rfl, hv, hsame.trans ?_⟩
    rw [respond_port, setPort_port_same, hQ, respond_setPort, setPort_setPort, ← lagged_setPort]
    rfl
  | waits up w =>
    obtain ⟨v, hv, hsame⟩ := runOps_deliveries_of_pending_zero (p := i.port) (created i)
      (s := State.lagged { s with held := some i, resp := .held }) (by simpa using up)
      fun ch => by simpa using hP.exact_pending up ch
    exact ⟨_, v, exec_of_waits (s := s.lagged) (by simpa using up) (by simpa using w), rfl, hv, hsame⟩
  | emptyPop up who mode empty =>
    obtain ⟨v, hv, hsame⟩ := runOps_deliveries_of_pending_zero (p := i.port) (created i)
      (s := (s.raiseFault (.emptyPop i.port)).lagged) (by simpa using up)
      fun ch => by simpa using hP.exact_pending up ch
    refine ⟨(s.raiseFault (.emptyPop i.port)).lagged, v, ?_, rfl, hv, hsame⟩
    generalize i.port = p at up who mode empty ⊢
    subst who
    exact exec_getch_of_empty_interrupt (s := s.lagged) (by simpa using up) (by simpa using empty) (by simpa using mode)
  | notInitialised down other =>
    obtain ⟨v, hv, hsame⟩ := runOps_deliveries_of_not_inited (p := i.port) (created i)
      (s := (s.raiseFault (.notInitialised i.port)).lagged) (by simpa using down) mem_raiseFault_faulted_self
    exact ⟨_, v, exec_of_not_inited (s := s.lagged) other (by simpa using down), rfl, hv, hsame⟩

end

/-- Settles O41: operation by operation, since the last answer is never read. -/
theorem exactRunsAreLaggedRunsWithImmediateDelivery : Obligations.ExactRunsAreLaggedRunsWithImmediateDelivery := by
  constructor
  · intro ops
    induction ops with
    | nil =>
      rintro s _ - - ⟨⟩
      exact ⟨_, rfl, rfl⟩
    | cons i ops ih =>
      intro s t hs hc h
      obtain ⟨s₁, h₁, hrun⟩ := runOps_cons_next h
      obtain ⟨u, v, hu, -, hv, hsame⟩ := exec_lagged hs hc h₁
      obtain ⟨w, hw, hwt⟩ := ih s₁ t (exec_keeps_inv hs h₁) ((exec_cdc h₁).trans hc) hrun
      obtain ⟨w', hw', hww⟩ := runOps_congr_answer hsame hw
      refine ⟨w', ?_, hww.trans hwt⟩
      rw [List.flatMap_cons, List.cons_append, runOps_cons hu, runOps_append hv, hw']
  · intro i s t hs hc h
    obtain ⟨u, v, hu, hr, -⟩ := exec_lagged hs hc h
    exact ⟨u, hu, hr⟩

/-! ### Unspecified values (R34) -/

section
variable {P : Port} {i : Instr} {s t : State} {p : PortId}

theorem specified_of_inited (h : P.inited = true) : P.specified = P := by
  rw [Port.specified, if_pos h]

@[simp] theorem specified_inited (P : Port) : P.specified.inited = P.inited := by
  unfold Port.specified
  split <;> rfl

@[simp] theorem txPath_clear_clear (x : TxPath) : x.clear.clear = x.clear := by cases x <;> rfl

/-- INIT writes every field that may be unspecified, and reads none. -/
theorem initialised_specified (P : Port) : P.specified.initialised = P.initialised := by
  unfold Port.specified
  split
  · rfl
  · simp [Port.initialised]

@[simp] theorem specified_specified (P : Port) : P.specified.specified = P.specified := by
  cases h : P.inited with
  | true => rw [specified_of_inited h, specified_of_inited h]
  | false => simp [Port.specified, h]

@[simp] theorem state_specified_port (s : State) (p : PortId) : s.specified.port p = (s.port p).specified := by
  cases p <;> rfl

@[simp] theorem state_specified_specified (s : State) : s.specified.specified = s.specified := by
  simp [State.specified]

theorem specified_setPort (s : State) (p : PortId) (P : Port) :
    (s.setPort p P).specified = s.specified.setPort p P.specified := by
  cases p <;> rfl

theorem specified_respond (s : State) (r : Response) : (s.respond r).specified = s.specified.respond r := rfl

theorem specified_raiseFault (s : State) (f : ModelFault) : (s.raiseFault f).specified = s.specified.raiseFault f := rfl

/-- An operation does the same where the unspecified fields are blanked out. -/
theorem exec_specified (i : Instr) (s : State) :
    specifiedOutcome (exec i s) = specifiedOutcome (exec i s.specified) := by
  cases hi : (s.port i.port).inited with
  | true =>
    have e := exec_local (s := s) (s' := s.specified) i [] rfl (by rw [state_specified_port, specified_of_inited hi]; rfl)
    generalize exec i s = x, exec i s.specified = x' at e ⊢
    cases e with
    | completes m =>
      simp only [specifiedOutcome, specified_respond, specified_setPort, state_specified_specified, prependWire_nil]
    | answers r => simp only [specifiedOutcome, specified_respond, state_specified_specified]
    | faults f => simp only [specifiedOutcome, specified_raiseFault, state_specified_specified]
    | holds =>
      exact congrArg (fun u : State => Host.Outcome.next { u with held := some i, resp := .held })
        (state_specified_specified s).symm
    | stops => rfl
  | false =>
    by_cases hinit : i = .init i.port
    · rw [hinit, exec_init, exec_init, state_specified_port, initialised_specified]
      simp only [specifiedOutcome, specified_respond, specified_setPort, state_specified_specified]
    · rw [exec_of_not_inited hinit hi, exec_of_not_inited hinit (by simpa using hi)]
      simp only [specifiedOutcome, specified_raiseFault, state_specified_specified]

theorem rejectPort_specified (i : Instr) (s : State) : (rejectPort i s).specified = rejectPort i s.specified := by
  unfold rejectPort
  split
  · rfl
  · rw [state_specified_port, specified_inited]
    split <;> rfl

theorem perform_specified (what : Issue) (s : State) :
    specifiedOutcome (perform what s) = specifiedOutcome (perform what s.specified) := by
  cases what with
  | op i => exact exec_specified i s
  | nothing => simp only [perform, answer, specifiedOutcome, specified_respond, state_specified_specified]
  | badWord w => simp only [perform, faultWith, specifiedOutcome, specified_raiseFault, state_specified_specified]
  | badPort i =>
    refine congrArg Host.Outcome.next ?_
    rw [rejectPort_specified, rejectPort_specified, state_specified_specified]

theorem taken_specified (a : Agent) (s : State) : (s.taken a).specified = s.specified.taken a := by
  unfold State.taken
  rw [show s.specified.held = s.held from rfl]
  split <;> rfl

/-- A step does the same where the unspecified fields are blanked out. -/
theorem step_specified (s : State) : specifiedOutcome (step s) = specifiedOutcome (step s.specified) := by
  cases hs : s.turns with
  | nil =>
    rw [step_idle hs, step_idle (s := s.specified) hs]
    exact congrArg Host.Outcome.next (state_specified_specified s).symm
  | cons a rest =>
    rw [step_perform hs, step_perform (s := s.specified) hs, perform_specified, taken_specified]
    rfl

end

/-- Settles O51. -/
theorem unspecifiedValuesAreNeverUsed : Obligations.UnspecifiedValuesAreNeverUsed := by
  intro s s' h
  rw [step_specified s, h, ← step_specified s']

end Sys2Proof.Machine
end

section
/-! GETCH and PUTCH as micro-steps (R190 to R194): the other agents' operations neither read nor move what a half-way
GETCH or PUTCH has written, so that its micro-steps can be brought together at its effect point. -/

namespace Sys2Proof.Machine

section
variable {c : CdcMode} {P P' : Port} {i : Instr} {l : List Instr} {r : Response} {s t u : State} {p : PortId}
  {R : Ring} {ie : Bool} {b d : Byte} {m m' m'' : Micro} {es fs : List MicroEvent} {fg : FgPoint}

/-! ### Runs of micro-steps -/

theorem microRun_cons {e : MicroEvent} (h : microStep e m = .next m') : microRun (e :: es) m = microRun es m' := by
  rw [microRun, h]

theorem microRun_cons_next {e : MicroEvent} (h : microRun (e :: es) m = .next m') :
    ∃ k, microStep e m = .next k ∧ microRun es k = .next m' := by
  rw [microRun] at h
  split at h
  · exact ⟨_, ‹_›, h⟩
  · cases h
  · cases h

theorem microRun_append (h : microRun es m = .next m') : microRun (es ++ fs) m = microRun fs m' := by
  induction es generalizing m with
  | nil => cases h; rfl
  | cons e es ih =>
    obtain ⟨k, hk, hrun⟩ := microRun_cons_next h
    rw [List.cons_append, microRun_cons hk, ih hrun]

theorem microRun_trans (h : microRun es m = .next m') (h' : microRun fs m' = .next m'') :
    microRun (es ++ fs) m = .next m'' :=
  (microRun_append h).trans h'

theorem microRun_issue (hc : m.base.cdc = .exact) (h : microIssue i m = .next m') : microRun [.issue i] m = .next m' := by
  refine microRun_cons (m' := m') ?_
  rw [microStep, hc]
  exact h

theorem microRun_fg (hc : m.base.cdc = .exact) (h : microFg m = .next m') : microRun [.fg] m = .next m' := by
  refine microRun_cons (m' := m') ?_
  rw [microStep, hc]
  exact h

/-- A point of foreground at which another agent's operation neither races a reset nor tears an update. -/
def FgPoint.calm : FgPoint → Bool
  | .reset _ _ | .getchWrite _ _ _ | .putchWrite _ _ _ | .errclrWrite _ _ => false
  | _ => true

/-- The micro-step state with nothing masked and indivisible updates, as the runs of R194 start in. -/
abbrev unmasked (s : State) (fg : FgPoint) : Micro := { base := s, fg := fg, masked := [], wordAtomic := true }

theorem microOther_of_calm (hcalm : fg.calm = true) (hfg : issuer i ≠ .fg) :
    microOther i (unmasked s fg) = (unmasked s fg).withBase fg (exec i s) := by
  have hraces : (unmasked s fg).races i = false := by
    cases fg <;> first | rfl | cases hcalm
  have htears : (unmasked s fg).tears i = false := by
    refine Bool.and_eq_false_iff.2 (.inr ?_)
    cases fg <;> first | rfl | cases hcalm
  rw [microOther, if_neg hfg, if_neg (by simp), hraces, htears]
  rfl

/-- Between two micro-steps at calm points the other agents' operations are the machine's own (R190). -/
theorem microRun_others (hcalm : fg.calm = true) (hc : s.cdc = .exact) (hl : ∀ i ∈ l, issuer i ≠ .fg)
    (h : runOps l s = .next t) : microRun (l.map .other) (unmasked s fg) = .next (unmasked t fg) := by
  induction l generalizing s with
  | nil => cases h; rfl
  | cons i l ih =>
    obtain ⟨u, hu, hrun⟩ := runOps_cons_next h
    have hstep : microStep (.other i) (unmasked s fg) = .next (unmasked u fg) := by
      rw [microStep, hc]
      refine (microOther_of_calm hcalm (hl i (List.mem_cons_self ..))).trans ?_
      rw [hu]
      rfl
    rw [List.map_cons, microRun_cons hstep]
    exact ih ((exec_cdc hu).trans hc) (fun j hj => hl j (List.mem_cons_of_mem _ hj)) hrun

/-! ### What carries over from operation to operation -/

/-- A property that every operation of a sequence keeps holds after the sequence, and a change of the state that commutes
with each of them commutes with the sequence. -/
theorem runOps_commutes {M : State → Prop} {g : State → State}
    (keeps : ∀ i ∈ l, ∀ s t, M s → exec i s = .next t → M t ∧ exec i (g s) = .next (g t)) (hs : M s)
    (h : runOps l s = .next t) : M t ∧ runOps l (g s) = .next (g t) := by
  induction l generalizing s with
  | nil => cases h; exact ⟨hs, rfl⟩
  | cons i l ih =>
    obtain ⟨u, hu, hrun⟩ := runOps_cons_next h
    obtain ⟨hMu, hgu⟩ := keeps i (List.mem_cons_self ..) s u hs hu
    obtain ⟨hMt, hgt⟩ := ih (fun j hj => keeps j (List.mem_cons_of_mem _ hj)) hMu hrun
    exact ⟨hMt, (runOps_cons hgu).trans hgt⟩

theorem runOps_keeps {M : State → Prop} (keeps : ∀ i ∈ l, ∀ s t, M s → exec i s = .next t → M t) (hs : M s)
    (h : runOps l s = .next t) : M t :=
  (runOps_commutes (g := id) (fun i hi s t hs h => ⟨keeps i hi s t hs h, h⟩) hs h).1

/-- Port `p` of a state changed by `f`. -/
def State.mapPort (p : PortId) (f : Port → Port) (s : State) : State := s.setPort p (f (s.port p))

theorem mapPort_cdc (p : PortId) (f : Port → Port) (s : State) : (s.mapPort p f).cdc = s.cdc := setPort_cdc ..

theorem runOps_cdc (h : runOps l s = .next t) : t.cdc = s.cdc :=
  runOps_keeps (M := fun x => x.cdc = s.cdc) (fun _ _ _ _ hx he => (exec_cdc he).trans hx) rfl h

/-- A change of port `p` commutes with an operation of another agent where it commutes with the operation's effect. -/
theorem exec_mapPort {f : Port → Port} (hs : s.Inv) (hi : (s.port p).inited = true)
    (hfi : (f (s.port p)).inited = true) (hfg : issuer i ≠ .fg)
    (hf : i.port = p → ∀ P' r, Effect s.cdc (s.port p) i P' r → Effect s.cdc (f (s.port p)) i (f P') r)
    (h : exec i s = .next t) : exec i (s.mapPort p f) = .next (t.mapPort p f) := by
  by_cases hp : i.port = p
  · subst hp
    obtain ⟨P', r, e⟩ := nonFg_effect hs hi hfg
    obtain rfl := Host.Outcome.next.inj ((exec_of_effect (.inl hi) e).symm.trans h)
    rw [State.mapPort, exec_of_effect (P := f P') (r := r) (by simp [hfi]) (by simpa using hf rfl P' r e)]
    simp [State.mapPort]
  · have hsame : t.port p = s.port p := exec_port_other h (Ne.symm hp)
    have e := exec_local (s := s) (s' := s.mapPort p f) i [] (setPort_cdc ..) (setPort_port_other _ _ _ _ hp)
    rw [h] at e
    rw [State.mapPort, State.mapPort, hsame, ← State.mapPort]
    generalize exec i (s.mapPort p f) = x at e ⊢
    generalize i.port = q at e hp
    cases e <;> cases p <;> cases q <;> first | rfl | exact absurd rfl hp

end

/-! ### GETCH (R191) -/

/-- The port with the head of its receive ring moved. -/
def Port.withRxHead (h : Nat) (P : Port) : Port := { P with rx := { P.rx with head := h } }

/-- The port with a byte popped off its receive ring, whose head is then `h`; no token is left under `EXACT`. -/
def Port.withRxPopped (h : Nat) (P : Port) : Port := { P with rx := { P.rx with head := h, count := P.rx.count - 1 } }

/-- Byte `b` is at the front of the receive ring of port `p`, at slot `h` of `n`, and the machine is in order. -/
structure FrontIs (p : PortId) (h n : Nat) (b : Byte) (s : State) : Prop where
  inv : s.Inv
  exact : s.cdc = .exact
  inited : (s.port p).inited = true
  head : (s.port p).rx.head = h
  capacity : (s.port p).rx.N = n
  count : 0 < (s.port p).rx.count
  front : (s.port p).rx.storage.read h = some b

section
variable {c : CdcMode} {P P' : Port} {i : Instr} {l l₁ l₂ l₃ l₄ : List Instr} {r : Response} {s t u v : State}
  {p : PortId} {b : Byte} {h n a : Nat}

/-- No other agent's effect looks at the head of the receive ring. -/
theorem Effect.withRxHead (e : Effect c P i P' r) (hfg : issuer i ≠ .fg) (a : Nat) :
    Effect c (P.withRxHead a) i (P'.withRxHead a) r := by
  cases e with
  | init | rxavail | getch | rxflush | putchStore | putchSend | txrdy | errq | errclr => exact absurd rfl hfg
  | rxpushDrop p d full => exact .rxpushDrop p d full
  | rxpushStore p d room => exact .rxpushStore p d room
  | rxerr p d => exact .rxerr p d
  | txdrainSend p htx free seen front => exact .txdrainSend p htx free seen front
  | txdrainDisarm p htx free empty => exact .txdrainDisarm p htx free empty
  | txdrainIdle p idle => exact .txdrainIdle p idle
  | syncRxpush p => exact .syncRxpush p
  | syncRxpop p => exact .syncRxpop p
  | syncTxpush p => exact .syncTxpush p
  | syncTxpop p => exact .syncTxpop p
  | syncErr p => exact .syncErr p
  | txdoneFree p busy => exact .txdoneFree p busy
  | txdoneIdle p free => exact .txdoneIdle p free

/-- Nor does one write the front of the receive ring, for a push writes the slot at `tail`, which is free. -/
theorem Effect.keeps_front (e : Effect c P i P' r) (hfg : issuer i ≠ .fg) (hR : P.rx.Inv c) (hpos : 0 < P.rx.count) :
    P'.rx.head = P.rx.head ∧ P'.rx.N = P.rx.N ∧ 0 < P'.rx.count ∧
      P'.rx.storage.read P.rx.head = P.rx.storage.read P.rx.head := by
  cases e with
  | init | rxavail | getch | rxflush | putchStore | putchSend | txrdy | errq | errclr => exact absurd rfl hfg
  | rxpushStore p d room =>
    refine ⟨rfl, rfl, Nat.succ_pos _, ?_⟩
    have hfree := hR.tail_free (hR.count_lt room).2 hpos
    rw [Ring.slot, Nat.add_zero, Nat.mod_eq_of_lt hR.head_lt] at hfree
    rw [push_storage, read_write, if_neg hfree]
  | _ => exact ⟨rfl, rfl, hpos, rfl⟩

theorem FrontIs.exec (hs : FrontIs p h n b s) (hfg : issuer i ≠ .fg) (he : exec i s = .next t) : FrontIs p h n b t := by
  obtain ⟨hinv, hc, hi, rfl, rfl, hpos, hfront⟩ := hs
  have hinv' := exec_keeps_inv hinv he
  have hc' := (exec_cdc he).trans hc
  rcases exec_port_cases he p with hsame | ⟨-, up, e⟩
  · exact ⟨hinv', hc', by rwa [hsame], by rw [hsame], by rw [hsame], by rwa [hsame], by rwa [hsame]⟩
  · obtain ⟨hhead, hN, hpos', hread⟩ := e.keeps_front hfg ((hinv.ports p).rxRing hi) hpos
    exact ⟨hinv', hc', e.inited (.inl hi), hhead, hN, hpos', hread.trans hfront⟩

theorem FrontIs.runOps (hs : FrontIs p h n b s) (hl : ∀ i ∈ l, issuer i ≠ .fg) (hrun : runOps l s = .next t) :
    FrontIs p h n b t :=
  runOps_keeps (fun i hi _ _ hs he => hs.exec (hl i hi) he) hs hrun

/-- Operations of other agents do the same, and keep the front, whatever the head of the receive ring. -/
theorem FrontIs.runOps_withRxHead (hs : FrontIs p h n b s) (hl : ∀ i ∈ l, issuer i ≠ .fg)
    (hrun : Machine.runOps l s = .next t) (a : Nat) :
    Machine.runOps l (s.mapPort p (Port.withRxHead a)) = .next (t.mapPort p (Port.withRxHead a)) :=
  (runOps_commutes (M := FrontIs p h n b) (fun i hi _ _ hs he => ⟨hs.exec (hl i hi) he,
    exec_mapPort hs.inv hs.inited hs.inited (hl i hi) (fun _ _ _ e => e.withRxHead (hl i hi) a) he⟩) hs hrun).2

/-- Under `EXACT` a GETCH with a byte to pop moves the head and takes one off the count. -/
theorem FrontIs.exec_getch (hs : FrontIs p h n b s) :
    Machine.exec (.getch p) s = .next ((s.mapPort p (Port.withRxPopped ((h + 1) % n))).respond (.byte b)) := by
  obtain ⟨hinv, hc, hi, rfl, rfl, hpos, hfront⟩ := hs
  have hR := hc ▸ (hinv.ports p).rxRing hi
  have ha : (s.port p).rx.avail = true := avail_true.2 (hR.exact_views.2.symm ▸ hpos)
  rw [exec_getch_of_pop hi ha (pop_eq_some.2 ⟨hfront, rfl⟩), hc]
  rfl

/-! The micro-steps g1 to g5. -/

theorem microIssue_getch (hi : (s.port p).inited = true) :
    microIssue (.getch p) (unmasked s .idle) = .next (unmasked s (.getch1 p)) := by
  simp [microIssue, issuer, Instr.port, hi, startPoint]

theorem microFg_getch1 (hcount : (s.port p).rx.count ≠ 0) :
    microFg (unmasked s (.getch1 p)) = .next (unmasked s (.getch2 p)) := by
  simp [microFg, hcount]

theorem FrontIs.microFg_getch2 (hs : FrontIs p h n b s) :
    microFg (unmasked s (.getch2 p)) = .next (unmasked s (.getch3 p b)) := by
  simp [microFg, hs.head, hs.front]

theorem FrontIs.microFg_getch3 (hs : FrontIs p h n b s) :
    microFg (unmasked s (.getch3 p b)) =
      .next (unmasked (s.mapPort p (Port.withRxHead ((h + 1) % n))) (.getch4 p b)) := by
  simp [microFg, Micro.move, State.mapPort, Port.withRxHead, Ring.advance, hs.head, hs.capacity]

theorem microFg_getch4 :
    microFg (unmasked (s.mapPort p (Port.withRxHead a)) (.getch4 p b)) =
      .next (unmasked (s.mapPort p (Port.withRxPopped a)) (.getch5 p b)) := by
  simp [microFg, Micro.move, State.mapPort, Port.withRxHead, Port.withRxPopped]

theorem microFg_getch5 (h : s.sameButAnswer t) :
    microFg (unmasked s (.getch5 p b)) = .next (unmasked (t.respond (.byte b)) .idle) := by
  obtain ⟨r, rfl⟩ := sameButAnswer_iff.1 h
  simp [microFg, Micro.finish, byteResult]

theorem FrontIs.of_count (hs : s.Inv) (hc : s.cdc = .exact) (hi : (s.port p).inited = true)
    (hcount : (s.port p).rx.count ≠ 0) : ∃ b, FrontIs p (s.port p).rx.head (s.port p).rx.N b s := by
  have hR := (hs.ports p).rxRing hi
  have hpos := Nat.pos_of_ne_zero hcount
  obtain ⟨b, hb⟩ := Option.isSome_iff_exists.1 (hR.occupied 0 hpos)
  rw [Ring.slot, Nat.add_zero, Nat.mod_eq_of_lt hR.head_lt] at hb
  exact ⟨b, hs, hc, hi, rfl, rfl, hpos, hb⟩

end

/-- Settles O53: the byte read at g2 is at the front until g4, the head that g3 moves is looked at by nobody else, and
what g3 and g4 write together is the pop. -/
theorem getchMicroStepsRefineTheAtomicGetch : Obligations.GetchMicroStepsRefineTheAtomicGetch := by
  intro s p l₁ l₂ l₃ l₄ hs hc hi hcount hl
  simp only [List.mem_append, or_imp, forall_and] at hl
  obtain ⟨⟨⟨hl₁, hl₂⟩, hl₃⟩, hl₄⟩ := hl
  obtain ⟨b, hfront⟩ := FrontIs.of_count hs hc hi hcount
  generalize (s.port p).rx.head = h, (s.port p).rx.N = n at hfront
  obtain ⟨s₁, h₁⟩ := runOps_answers hs l₁
  have front₁ := hfront.runOps hl₁ h₁
  obtain ⟨s₂, h₂⟩ := runOps_answers front₁.inv l₂
  have front₂ := front₁.runOps hl₂ h₂
  obtain ⟨u, h₃⟩ := runOps_answers front₂.inv l₃
  have front₃ := front₂.runOps hl₃ h₃
  have hget := front₃.exec_getch
  obtain ⟨t, h₄⟩ := runOps_answers (exec_keeps_inv front₃.inv hget) l₄
  obtain ⟨t', h₄', hsame⟩ := runOps_congr_answer (sameButAnswer_respond _ (.byte b)).symm h₄
  refine ⟨u, _, t, b, ?_, hget, rfl, h₄, ?_⟩
  · rw [runOps_append ((runOps_append h₁).trans h₂), h₃]
  have hc₃ := (mapPort_cdc p (Port.withRxHead ((h + 1) % n)) s₂).trans front₂.exact
  have hc₄ := (mapPort_cdc p (Port.withRxHead ((h + 1) % n)) u).trans front₃.exact
  have hc₅ := (mapPort_cdc p (Port.withRxPopped ((h + 1) % n)) u).trans front₃.exact
  have run := microRun_trans (microRun_issue hc (microIssue_getch hi)) (microRun_fg hc (microFg_getch1 hcount))
  have run := microRun_trans run (microRun_others rfl hc hl₁ h₁)
  have run := microRun_trans run (microRun_fg front₁.exact front₁.microFg_getch2)
  have run := microRun_trans run (microRun_others rfl front₁.exact hl₂ h₂)
  have run := microRun_trans run (microRun_fg front₂.exact front₂.microFg_getch3)
  have run := microRun_trans run (microRun_others rfl hc₃ hl₃ (front₂.runOps_withRxHead hl₃ h₃ _))
  have run := microRun_trans run (microRun_fg hc₄ microFg_getch4)
  have run := microRun_trans run (microRun_others rfl hc₅ hl₄ h₄')
  exact microRun_trans run (microRun_fg ((runOps_cdc h₄').trans hc₅) (microFg_getch5 hsame))

end Sys2Proof.Machine
end

section
/-! PUTCH as micro-steps (R192, R194): the drain side looks neither at the slot at `tail`, nor at `tail` itself, nor,
apart from TXDRAIN, at `tx_ie`. -/

namespace Sys2Proof.Machine

/-- A ring with `d` written into the slot at `tail` and, once p3 is done, with `tail` moved. -/
def Ring.prepared (d : Byte) (moved : Bool) (R : Ring) : Ring :=
  { R with
    storage := R.storage.write R.tail d
    tail := if moved then R.advance R.tail else R.tail }

/-- The port with its transmit ring prepared for a push. -/
def Port.txPrepared (d : Byte) (moved : Bool) (P : Port) : Port := { P with tx := P.tx.mapRing (Ring.prepared d moved) }

/-- The port with a byte pushed on its transmit ring and `tx_ie` as it was. -/
def Port.txPushed (d : Byte) (P : Port) : Port := { P with tx := P.tx.mapRing (Ring.push .exact d) }

/-- The port with `tx_ie` written. -/
def Port.withIe (b : Bool) (P : Port) : Port := { P with tx := P.tx.setIe b }

/-- The transmit ring of port `p` has room, and the machine is in order under `EXACT`. -/
structure RoomToPut (p : PortId) (s : State) : Prop where
  inv : s.Inv
  exact : s.cdc = .exact
  inited : (s.port p).inited = true
  room : ∃ R ie, (s.port p).tx = .queued R ie ∧ R.count < R.N

section
variable {c : CdcMode} {P P' : Port} {i : Instr} {l : List Instr} {r : Response} {s t u : State} {p : PortId} {R : Ring}
  {ie : Bool} {d : Byte} {moved b : Bool}

theorem deliverPush_mapRing_prepared (d : Byte) (moved : Bool) (x : TxPath) :
    (x.mapRing (Ring.prepared d moved)).deliverPush = x.deliverPush.mapRing (Ring.prepared d moved) := by
  cases x <;> rfl

theorem deliverPop_mapRing_prepared (d : Byte) (moved : Bool) (x : TxPath) :
    (x.mapRing (Ring.prepared d moved)).deliverPop = x.deliverPop.mapRing (Ring.prepared d moved) := by
  cases x <;> rfl

theorem deliverPop_setIe (b : Bool) (x : TxPath) : (x.setIe b).deliverPop = x.deliverPop.setIe b := by
  cases x <;> rfl

theorem pending_withIe (b : Bool) : SyncChannel.txPush.pending (P.withIe b) = SyncChannel.txPush.pending P := by
  unfold SyncChannel.pending Port.withIe
  cases P.tx <;> rfl

theorem deliverTxPush_of_pending_zero (h : SyncChannel.txPush.pending P = 0) :
    ({ P with tx := P.tx.deliverPush } : Port) = P := deliver_of_pending_zero (ch := .txPush) h

/-- In a ring with room the front is read the same once the slot at `tail` is written. -/
theorem read_prepared (hR : R.Inv c) (hlt : R.count < R.N) (ha : R.avail = true) :
    (R.prepared d moved).storage.read R.head = R.storage.read R.head := by
  have hfree := hR.tail_free hlt (count_pos ha)
  rw [Ring.slot, Nat.add_zero, Nat.mod_eq_of_lt hR.head_lt] at hfree
  rw [Ring.prepared, read_write, if_neg hfree]

/-- No other agent's effect looks at what a PUTCH has prepared. -/
theorem Effect.txPrepared (e : Effect c P i P' r) (hfg : issuer i ≠ .fg)
    (hP : ∀ R ie, P.tx = .queued R ie → R.Inv c ∧ R.count < R.N) (d : Byte) (moved : Bool) :
    Effect c (P.txPrepared d moved) i (P'.txPrepared d moved) r := by
  have tx_eq {R : Ring} {ie : Bool} (h : P.tx = .queued R ie) :
      (P.txPrepared d moved).tx = .queued (R.prepared d moved) ie := by rw [Port.txPrepared, h]; rfl
  cases e with
  | init | rxavail | getch | rxflush | putchStore | putchSend | txrdy | errq | errclr => exact absurd rfl hfg
  | rxpushDrop p d full => exact .rxpushDrop p d full
  | rxpushStore p d room => exact .rxpushStore p d room
  | rxerr p d => exact .rxerr p d
  | txdrainSend p htx free seen front =>
    obtain ⟨hR, hlt⟩ := hP _ _ htx
    exact .txdrainSend p (tx_eq htx) free seen ((read_prepared hR hlt seen).trans front)
  | txdrainDisarm p htx free empty => exact .txdrainDisarm p (tx_eq htx) free empty
  | txdrainIdle p idle =>
    refine .txdrainIdle p (Eq.trans ?_ idle)
    cases htx : P.tx with
    | queued R ie => rw [txIrqPending_queued htx, txIrqPending_queued (tx_eq htx)]; rfl
    | direct => rw [Port.txPrepared, htx, TxPath.mapRing, ← htx]
  | syncRxpush p => exact .syncRxpush p
  | syncRxpop p => exact .syncRxpop p
  | syncTxpush p =>
    simpa only [Port.txPrepared, deliverPush_mapRing_prepared] using
      Effect.syncTxpush (c := c) (P := P.txPrepared d moved) p
  | syncTxpop p =>
    simpa only [Port.txPrepared, deliverPop_mapRing_prepared] using
      Effect.syncTxpop (c := c) (P := P.txPrepared d moved) p
  | syncErr p => exact .syncErr p
  | txdoneFree p busy => exact .txdoneFree p busy
  | txdoneIdle p free => exact .txdoneIdle p free

/-- Nor, where no push token is pending, does one other than TXDRAIN look at `tx_ie`. -/
theorem Effect.withIe (e : Effect c P i P' r) (hfg : issuer i ≠ .fg) (hi : ∀ q, i ≠ .txdrain q)
    (hpend : SyncChannel.txPush.pending P = 0) (b : Bool) : Effect c (P.withIe b) i (P'.withIe b) r := by
  cases e with
  | init | rxavail | getch | rxflush | putchStore | putchSend | txrdy | errq | errclr => exact absurd rfl hfg
  | txdrainSend p | txdrainDisarm p | txdrainIdle p => exact absurd rfl (hi p)
  | rxpushDrop p d full => exact .rxpushDrop p d full
  | rxpushStore p d room => exact .rxpushStore p d room
  | rxerr p d => exact .rxerr p d
  | syncRxpush p => exact .syncRxpush p
  | syncRxpop p => exact .syncRxpop p
  | syncTxpush p =>
    have h := Effect.syncTxpush (c := c) (P := P.withIe b) p
    have hpend' : SyncChannel.txPush.pending (P.withIe b) = 0 := (pending_withIe b).trans hpend
    rw [deliverTxPush_of_pending_zero hpend'] at h
    rwa [deliverTxPush_of_pending_zero hpend]
  | syncTxpop p =>
    simpa only [Port.withIe, deliverPop_setIe] using Effect.syncTxpop (c := c) (P := P.withIe b) p
  | syncErr p => exact .syncErr p
  | txdoneFree p busy => exact .txdoneFree p busy
  | txdoneIdle p free => exact .txdoneIdle p free

/-! What the other agents' operations keep. -/

theorem RoomToPut.exec (hs : RoomToPut p s) (hfg : issuer i ≠ .fg) (he : exec i s = .next t) : RoomToPut p t := by
  obtain ⟨hinv, hc, hi, R, ie, htx, hlt⟩ := hs
  have m := exec_portMove he p
  obtain ⟨R', ie', htx'⟩ := m.tx_queued htx
  obtain ⟨ring, -, -⟩ := m.tx_move htx htx'
  have hinited : (t.port p).inited = true := by
    rcases m.inited_eq_or with h | ⟨-, h⟩
    · rwa [h]
    · exact h
  refine ⟨exec_keeps_inv hinv he, (exec_cdc he).trans hc, hinited, R', ie', htx', ?_⟩
  have hle : ¬ R.count < R'.count := fun h => by
    obtain ⟨⟨d, rfl⟩, -⟩ := ring.count_raised h
    exact hfg rfl
  have := ring.N_eq
  omega

theorem RoomToPut.runOps (hs : RoomToPut p s) (hl : ∀ i ∈ l, issuer i ≠ .fg) (hrun : runOps l s = .next t) :
    RoomToPut p t :=
  runOps_keeps (fun i hi _ _ hs he => hs.exec (hl i hi) he) hs hrun

/-- Operations of other agents do the same, and leave the room, whatever a PUTCH has prepared. -/
theorem RoomToPut.runOps_txPrepared (hs : RoomToPut p s) (hl : ∀ i ∈ l, issuer i ≠ .fg)
    (hrun : Machine.runOps l s = .next t) (d : Byte) (moved : Bool) :
    Machine.runOps l (s.mapPort p (Port.txPrepared d moved)) = .next (t.mapPort p (Port.txPrepared d moved)) := by
  refine (runOps_commutes (M := RoomToPut p) (fun i hi s t hs he => ⟨hs.exec (hl i hi) he, ?_⟩) hs hrun).2
  obtain ⟨R, ie, htx, hlt⟩ := hs.room
  refine exec_mapPort hs.inv hs.inited hs.inited (hl i hi) (fun _ _ _ e => e.txPrepared (hl i hi) ?_ d moved) he
  intro R' ie' htx'
  cases htx.symm.trans htx'
  exact ⟨(hs.inv.ports p).txRing hs.inited R ie htx, hlt⟩

/-- Operations of other agents, TXDRAIN of the port apart, do the same whatever `tx_ie` under `EXACT`. -/
theorem runOps_withIe (hs : s.Inv) (hc : s.cdc = .exact) (hi : (s.port p).inited = true)
    (hl : ∀ i ∈ l, issuer i ≠ .fg) (hdrain : Instr.txdrain p ∉ l) (hrun : Machine.runOps l s = .next t) (b : Bool) :
    Machine.runOps l (s.mapPort p (Port.withIe b)) = .next (t.mapPort p (Port.withIe b)) := by
  refine (runOps_commutes (M := fun s => s.Inv ∧ s.cdc = .exact ∧ (s.port p).inited = true)
    (fun i hmem s t hs he => ?_) ⟨hs, hc, hi⟩ hrun).2
  obtain ⟨hs, hc, hi⟩ := hs
  have hinited : (t.port p).inited = true := by
    rcases (exec_portMove he p).inited_eq_or with h | ⟨-, h⟩
    · rwa [h]
    · exact h
  refine ⟨⟨exec_keeps_inv hs he, (exec_cdc he).trans hc, hinited⟩,
    exec_mapPort hs hi hi (hl i hmem) (fun own _ _ e => e.withIe (hl i hmem) ?_ ?_ b) he⟩
  · rintro q rfl
    obtain rfl : q = p := own
    exact hdrain hmem
  · exact (hc ▸ hs.ports p).exact_pending hi .txPush

/-- Under `EXACT` a PUTCH with room pushes its byte and sets `tx_ie`. -/
theorem RoomToPut.exec_putch (hs : RoomToPut p s) (d : Byte) :
    Machine.exec (.putch p d) s = .next (((s.mapPort p (Port.txPushed d)).mapPort p (Port.withIe true)).respond .done) := by
  obtain ⟨hinv, hc, hi, R, ie, htx, hlt⟩ := hs
  have hviewp := (hc ▸ (hinv.ports p).txRing hi R ie htx).exact_views.1
  rw [exec_putch_of_room hi htx (full_false.2 (by omega)), hc]
  simp [State.mapPort, Port.txPushed, Port.withIe, htx, TxPath.mapRing, TxPath.setIe, queuedAfterPut]

theorem RoomToPut.of_count (hs : s.Inv) (hc : s.cdc = .exact) (hi : (s.port p).inited = true)
    (htx : (s.port p).tx = .queued R ie) (hcount : R.count ≠ R.N) : RoomToPut p s :=
  ⟨hs, hc, hi, R, ie, htx, lt_of_le_of_ne ((hs.ports p).txRing hi R ie htx).count_le hcount⟩

/-! The micro-steps p1 to p5. -/

theorem microIssue_putch (hi : (s.port p).inited = true) (htx : (s.port p).tx = .queued R ie) :
    microIssue (.putch p d) (unmasked s .idle) = .next (unmasked s (.putch1 p d)) := by
  simp [microIssue, issuer, Instr.port, hi, startPoint, htx]

theorem microFg_putch1 (htx : (s.port p).tx = .queued R ie) (hcount : R.count ≠ R.N) :
    microFg (unmasked s (.putch1 p d)) = .next (unmasked s (.putch2 p d)) := by
  simp [microFg, htx, TxPath.ring?, hcount]

theorem microFg_putch2 :
    microFg (unmasked s (.putch2 p d)) = .next (unmasked (s.mapPort p (Port.txPrepared d false)) (.putch3 p d)) := rfl

theorem microFg_putch3 :
    microFg (unmasked (s.mapPort p (Port.txPrepared d false)) (.putch3 p d)) =
      .next (unmasked (s.mapPort p (Port.txPrepared d true)) (.putch4 p d)) := by
  simp only [microFg, Micro.move, State.mapPort, setPort_port_same, setPort_setPort, Port.txPrepared]
  cases (s.port p).tx <;> rfl

theorem microFg_putch4 :
    microFg (unmasked (s.mapPort p (Port.txPrepared d true)) (.putch4 p d)) =
      .next (unmasked (s.mapPort p (Port.txPushed d)) (.putch5 p d)) := by
  simp only [microFg, Micro.move, State.mapPort, setPort_port_same, setPort_setPort, Port.txPrepared, Port.txPushed,
    if_true]
  cases (s.port p).tx <;> rfl

theorem microFg_putch5 :
    microFg (unmasked s (.putch5 p d)) = .next (unmasked ((s.mapPort p (Port.withIe true)).respond .done) .idle) := rfl

theorem withIe_withIe (b b' : Bool) (P : Port) : (P.withIe b).withIe b' = P.withIe b' := by
  unfold Port.withIe
  cases P.tx <;> rfl

theorem withIe_of_txIe (h : P.txIe = b) (hq : P.tx = .queued R ie) : P.withIe b = P := by
  obtain rfl : ie = b := by simpa [Port.txIe, hq, TxPath.ie?] using h
  rw [Port.withIe, hq, TxPath.setIe, ← hq]

theorem mapPort_mapPort (p : PortId) (f g : Port → Port) (s : State) :
    (s.mapPort p f).mapPort p g = s.mapPort p (g ∘ f) := by
  simp [State.mapPort]

theorem mapPort_withIe_withIe (p : PortId) (b b' : Bool) (s : State) :
    (s.mapPort p (Port.withIe b)).mapPort p (Port.withIe b') = s.mapPort p (Port.withIe b') := by
  rw [mapPort_mapPort, State.mapPort, Function.comp_apply, withIe_withIe, State.mapPort]

theorem mapPort_respond (p : PortId) (f : Port → Port) (s : State) (r : Response) :
    (s.respond r).mapPort p f = (s.mapPort p f).respond r := by
  simp [State.mapPort]

/-- A push that leaves `tx_ie` alone leaves it as it was. -/
theorem mapPort_txPushed_withIe (htx : (s.port p).tx = .queued R ie) (d : Byte) :
    (s.mapPort p (Port.txPushed d)).mapPort p (Port.withIe ie) = s.mapPort p (Port.txPushed d) := by
  have htx' : ((s.port p).txPushed d).tx = .queued (R.push .exact d) ie := by rw [Port.txPushed, htx]; rfl
  have hie : ((s.port p).txPushed d).txIe = ie := by rw [Port.txIe, htx']; rfl
  rw [mapPort_mapPort, State.mapPort, Function.comp_apply, withIe_of_txIe hie htx', State.mapPort]

/-- Between p4 and p5 the other agents' operations do what they do after the atomic PUTCH, up to `tx_ie`, which p5 sets:
where it was set before, nothing differs, and elsewhere only TXDRAIN would tell. -/
theorem RoomToPut.runOps_txPushed (hs : RoomToPut p s) (hl : ∀ i ∈ l, issuer i ≠ .fg)
    (hdrain : (s.port p).txIe = true ∨ Instr.txdrain p ∉ l) (hput : Machine.exec (.putch p d) s = .next u)
    (hrun : Machine.runOps l u = .next t) :
    ∃ t', Machine.runOps l (s.mapPort p (Port.txPushed d)) = .next t' ∧
      (t'.mapPort p (Port.withIe true)).sameButAnswer (t.mapPort p (Port.withIe true)) := by
  have hu := exec_keeps_inv hs.inv hput
  obtain rfl := Host.Outcome.next.inj ((hs.exec_putch d).symm.trans hput)
  obtain ⟨x, hx, hsame⟩ := runOps_congr_answer (sameButAnswer_respond _ .done).symm hrun
  obtain ⟨r, rfl⟩ := sameButAnswer_iff.1 hsame
  obtain ⟨R, ie, htx, -⟩ := hs.room
  have hw := mapPort_txPushed_withIe htx d
  cases ie with
  | true => exact ⟨t.respond r, by rwa [hw] at hx, by rw [mapPort_respond]; exact sameButAnswer_respond _ r⟩
  | false =>
    have hie : (s.port p).txIe = false := by rw [Port.txIe, htx]; rfl
    have hnot := hdrain.resolve_left (by simp [hie])
    have hinv : ((s.mapPort p (Port.txPushed d)).mapPort p (Port.withIe true)).Inv := hu.respond _
    have hoff := runOps_withIe hinv (by rw [mapPort_cdc, mapPort_cdc, hs.exact])
      (by simpa [State.mapPort, Port.withIe, Port.txPushed] using hs.inited) hl hnot hx false
    rw [mapPort_withIe_withIe, hw] at hoff
    refine ⟨_, hoff, ?_⟩
    rw [mapPort_withIe_withIe, mapPort_respond]
    exact sameButAnswer_respond _ r

end

/-- Settles O54. -/
theorem putchMicroStepsRefineTheAtomicPutch : Obligations.PutchMicroStepsRefineTheAtomicPutch := by
  intro s p d R ie l₁ l₂ l₃ l₄ hs hc hi htx hcount hl
  simp only [List.mem_append, or_imp, forall_and] at hl
  obtain ⟨⟨⟨hl₁, hl₂⟩, hl₃⟩, hl₄⟩ := hl
  have room := RoomToPut.of_count hs hc hi htx hcount
  obtain ⟨s₁, h₁⟩ := runOps_answers hs l₁
  have room₁ := room.runOps hl₁ h₁
  obtain ⟨s₂, h₂⟩ := runOps_answers room₁.inv l₂
  have room₂ := room₁.runOps hl₂ h₂
  obtain ⟨u, h₃⟩ := runOps_answers room₂.inv l₃
  have room₃ := room₂.runOps hl₃ h₃
  have hput := room₃.exec_putch d
  obtain ⟨t, h₄⟩ := runOps_answers (exec_keeps_inv room₃.inv hput) l₄
  refine ⟨u, _, t, ?_, hput, rfl, h₄, fun hdrain => ?_⟩
  · rw [runOps_append ((runOps_append h₁).trans h₂), h₃]
  obtain ⟨t', h₄', hsame⟩ := room₃.runOps_txPushed hl₄ hdrain hput h₄
  have hc₂ := (mapPort_cdc p (Port.txPrepared d false) s₁).trans room₁.exact
  have hc₃ := (mapPort_cdc p (Port.txPrepared d false) s₂).trans room₂.exact
  have hc₄ := (mapPort_cdc p (Port.txPrepared d true) s₂).trans room₂.exact
  have hc₅ := (mapPort_cdc p (Port.txPrepared d true) u).trans room₃.exact
  have hc₆ := (mapPort_cdc p (Port.txPushed d) u).trans room₃.exact
  have run := microRun_trans (microRun_issue hc (microIssue_putch hi htx)) (microRun_fg hc (microFg_putch1 (d := d) htx hcount))
  have run := microRun_trans run (microRun_others rfl hc hl₁ h₁)
  have run := microRun_trans run (microRun_fg room₁.exact microFg_putch2)
  have run := microRun_trans run (microRun_others rfl hc₂ hl₂ (room₁.runOps_txPrepared hl₂ h₂ d false))
  have run := microRun_trans run (microRun_fg hc₃ microFg_putch3)
  have run := microRun_trans run (microRun_others rfl hc₄ hl₃ (room₂.runOps_txPrepared hl₃ h₃ d true))
  have run := microRun_trans run (microRun_fg hc₅ microFg_putch4)
  have run := microRun_trans run (microRun_others rfl hc₆ hl₄ h₄')
  have run := microRun_trans run (microRun_fg ((runOps_cdc h₄').trans hc₆) microFg_putch5)
  obtain ⟨r, hr⟩ := sameButAnswer_iff.1 hsame
  rw [hr] at run
  exact run

end Sys2Proof.Machine
end

section
/-! Resets and torn updates in the micro-step model (R185 to R187, R193): a racing or tearing operation is recorded and
changes nothing, no update is torn where updates are indivisible, and a masked reset is the atomic operation. -/

namespace Sys2Proof.Machine

open Sys2Proof.Claims

section
variable {P : Port} {i j : Instr} {s t : State} {p : PortId} {m m' : Micro} {e : MicroEvent} {es : List MicroEvent}
  {f g : ModelFault} {fg : FgPoint} {r : Result}

/-! ### Races and torn updates -/

theorem microStep_other (hc : m.base.cdc = .exact) : microStep (.other j) m = microOther j m := by
  rw [microStep, hc]

theorem microOther_of_races (hj : issuer j ≠ .fg) (hm : m.masked = []) (h : m.races j = true) :
    microOther j m = .next { m with base := m.base.raiseFault (.resetRace j.port) } := by
  rw [microOther, if_neg hj, hm, if_neg (by simp), if_pos h]

theorem microOther_of_tears (hj : issuer j ≠ .fg) (hm : m.masked = []) (hr : m.races j = false) (h : m.tears j = true) :
    microOther j m = .next { m with base := m.base.raiseFault (.tornCount j.port) } := by
  rw [microOther, if_neg hj, hm, if_neg (by simp), hr, if_neg Bool.false_ne_true, if_pos h]

/-- A fault that is raised in a micro-step joins the recorded ones and changes nothing else. -/
theorem records_of_raiseFault (h : microStep e m = .next { m with base := m.base.raiseFault f }) :
    ∃ l, recorded f m.base.faulted l ∧
      microStep e m = .next { m with base := { m.base with faulted := l, resp := .faulted f } } :=
  ⟨_, fun g => mem_addFault f g _, h⟩

theorem races_eq_false (h : ∀ i done, m.fg ≠ .reset i done) : m.races j = false := by
  unfold Micro.races
  split
  · exact absurd ‹_› (h _ _)
  · rfl

/-- A point of foreground between the read and the write of an update that is not indivisible (R185, R187). -/
def FgPoint.midUpdate : FgPoint → Bool
  | .getchWrite _ _ _ | .putchWrite _ _ _ | .errclrWrite _ _ => true
  | _ => false

theorem tears_eq_false (h : m.fg.midUpdate = false) : m.tears j = false := by
  refine Bool.and_eq_false_iff.2 (.inr ?_)
  generalize m.fg = fg at h ⊢
  cases fg <;> first | rfl | cases h

end

/-- Settles O56. -/
theorem unmaskedResetRaceIsRecorded : Obligations.UnmaskedResetRaceIsRecorded := by
  intro m p i j done hc hfg hdone hi hm hwho
  have race : issuer j ≠ .fg ∧ j.port = p ∧ m.races j = true := by
    rcases hwho with ⟨rfl, d, rfl⟩ | ⟨rfl, ⟨d, rfl⟩ | ⟨d, rfl⟩ | ⟨rfl, hie, hh⟩⟩
    · exact ⟨nofun, rfl, by simp [Micro.races, hfg, hdone, Micro.occurs, Instr.port, hi]⟩
    · exact ⟨nofun, rfl, by simp [Micro.races, hfg, hdone, Micro.occurs, Instr.port, hi]⟩
    · exact ⟨nofun, rfl, by simp [Micro.races, hfg, hdone, Micro.occurs, Instr.port, hi]⟩
    · exact ⟨nofun, rfl,
        by simp [Micro.races, hfg, hdone, Micro.occurs, Instr.port, hi, Port.txIrqPending, hie, hh]⟩
  obtain ⟨hj, rfl, hr⟩ := race
  exact records_of_raiseFault ((microStep_other hc).trans (microOther_of_races hj hm hr))

section
variable {P : Port} {i j : Instr} {s t : State} {p : PortId} {m m' : Micro} {e : MicroEvent} {es : List MicroEvent}
  {f g : ModelFault} {fg : FgPoint} {r : Result}

/-! ### Indivisible updates are never torn (R47) -/

/-- Updates are indivisible and foreground is inside none. -/
def Micro.Whole (m : Micro) : Prop := m.wordAtomic = true ∧ m.fg.midUpdate = false

/-- A micro-step from `m` to `m'` keeps updates whole and records no torn one. -/
def StaysWhole (m m' : Micro) : Prop := m'.Whole ∧ ∀ p, .tornCount p ∈ m'.base.faulted → .tornCount p ∈ m.base.faulted

theorem StaysWhole.of_fg (hm : m.Whole) (hfg : fg.midUpdate = false) : StaysWhole m { m with fg := fg } :=
  ⟨⟨hm.1, hfg⟩, fun _ => id⟩

/-- Foreground moves on to another point, with a state that records at most faults of codes 1 to 5. -/
theorem StaysWhole.of_base (hm : m.Whole) (hfg : fg.midUpdate = false)
    (hs : ∀ g ∈ s.faulted, g ∈ m.base.faulted ∨ g.code ≤ 5) : StaysWhole m { m with base := s, fg := fg } :=
  ⟨⟨hm.1, hfg⟩, fun _ hg => (hs _ hg).resolve_right (by simp [ModelFault.code])⟩

theorem StaysWhole.of_exec (hm : m.Whole) (hfg : fg.midUpdate = false)
    (h : m.withBase fg (exec i m.base) = .next m') : StaysWhole m m' := by
  cases hx : exec i m.base with
  | next s =>
    rw [hx] at h
    cases h
    exact .of_base hm hfg fun g hg => (exec_faulted_code hx hg).imp_right (Nat.le_succ_of_le ·)
  | fault | refused => rw [hx] at h; cases h

theorem raiseFault_code (hf : f.code ≤ 5) : ∀ g ∈ (s.raiseFault f).faulted, g ∈ s.faulted ∨ g.code ≤ 5 := by
  intro g hg
  rcases (mem_addFault f g _).1 hg with rfl | h
  · exact .inr hf
  · exact .inl h

theorem StaysWhole.of_raiseFault (hm : m.Whole) (hfg : fg.midUpdate = false) (hf : f.code ≤ 5) :
    StaysWhole m { m with base := m.base.raiseFault f, fg := fg } :=
  .of_base hm hfg (raiseFault_code hf)

theorem microIssue_staysWhole (hm : m.Whole) (h : microIssue i m = .next m') : StaysWhole m m' := by
  have start : (startPoint i m).midUpdate = false := by
    unfold startPoint
    split
    case h_2 => split <;> rfl
    all_goals rfl
  unfold microIssue at h
  split at h
  · cases h; exact .of_fg hm hm.2
  · split at h
    · cases h
      exact .of_base hm hm.2 fun g hg => (rejectPort_faulted_code hg).imp_right (Nat.le_succ_of_le ·)
    · split at h
      · cases h; exact .of_fg hm start
      · split at h
        · cases h; exact .of_fg hm start
        · cases h; exact .of_raiseFault hm hm.2 (by simp [ModelFault.code])

theorem microOther_staysWhole (hm : m.Whole) (h : microOther i m = .next m') : StaysWhole m m' := by
  rw [microOther, tears_eq_false hm.2, if_neg Bool.false_ne_true] at h
  split at h
  · cases h; exact .of_fg hm hm.2
  · split at h
    · cases h; exact .of_fg hm hm.2
    · split at h
      · cases h; exact .of_raiseFault hm hm.2 (by simp [ModelFault.code])
      · exact .of_exec hm hm.2 h

theorem microFg_staysWhole (hm : m.Whole) (h : microFg m = .next m') : StaysWhole m m' := by
  have move (p : PortId) (P : Port) (fg : FgPoint) (hfg : fg.midUpdate = false) : StaysWhole m (m.move p P fg) :=
    .of_base hm hfg fun g hg => .inl (by rwa [setPort_faulted] at hg)
  have finish (p : PortId) (P : Port) (r : Response) : StaysWhole m (m.finish p P r) :=
    .of_base hm rfl fun g hg => .inl (by rwa [respond_faulted, setPort_faulted] at hg)
  have hold (fg : FgPoint) (hfg : fg.midUpdate = false) : StaysWhole m { m with base := m.base.respond .held, fg := fg } :=
    .of_base hm hfg fun g hg => .inl hg
  have hatomic := hm.1
  have hmid := hm.2
  cases hfg : m.fg with
  | idle => rw [microFg, hfg] at h; cases h; exact .of_fg hm hm.2
  | getch1 p =>
    simp only [microFg, hfg] at h
    split at h
    · split at h
      · cases h; exact hold _ rfl
      · cases h; exact .of_raiseFault hm rfl (by simp [ModelFault.code])
    · cases h; exact .of_fg hm rfl
  | getch2 p =>
    simp only [microFg, hfg] at h
    split at h
    · cases h; exact .of_fg hm rfl
    · cases h
  | getch3 p b => rw [microFg, hfg] at h; cases h; exact move _ _ _ rfl
  | getch4 p b =>
    simp only [microFg, hfg, hatomic, if_true] at h
    cases h
    exact move _ _ _ rfl
  | getch5 p b => rw [microFg, hfg] at h; cases h; exact finish _ _ _
  | putch1 p d =>
    simp only [microFg, hfg] at h
    split at h
    · cases h; exact hold _ rfl
    · cases h; exact .of_fg hm rfl
  | putch2 p d | putch3 p d => rw [microFg, hfg] at h; cases h; exact move _ _ _ rfl
  | putch4 p d =>
    simp only [microFg, hfg, hatomic, if_true] at h
    cases h
    exact move _ _ _ rfl
  | putch5 p d => rw [microFg, hfg] at h; cases h; exact finish _ _ _
  | send1 p d =>
    simp only [microFg, hfg] at h
    split at h
    · cases h; exact .of_fg hm rfl
    · cases h; exact hold _ rfl
  | send2 p d => rw [microFg, hfg] at h; cases h; exact finish _ _ _
  | single i =>
    simp only [microFg, hfg, hatomic, if_true] at h
    split at h <;> exact .of_exec hm rfl h
  | reset i done =>
    simp only [microFg, hfg] at h
    split at h
    · split at h
      · cases h; exact move _ _ _ rfl
      · cases h; exact finish _ _ _
    · cases h; exact .of_fg hm rfl
  | getchWrite | putchWrite | errclrWrite => rw [hfg] at hmid; cases hmid

theorem microStep_staysWhole (hm : m.Whole) (h : microStep e m = .next m') : StaysWhole m m' := by
  unfold microStep at h
  split at h
  · cases h
  · split at h
    · exact microIssue_staysWhole hm h
    · exact microFg_staysWhole hm h
    · exact microOther_staysWhole hm h
    · cases h
      split
      · exact ⟨hm, fun _ => id⟩
      · exact ⟨hm, fun _ => id⟩
    · cases h
      split
      · exact ⟨hm, fun _ => id⟩
      · exact ⟨hm, fun _ => id⟩

theorem microRun_staysWhole (hm : m.Whole) (h : microRun es m = .next m') : StaysWhole m m' := by
  induction es generalizing m with
  | nil => cases h; exact ⟨hm, fun _ => id⟩
  | cons e es ih =>
    obtain ⟨k, hk, hrun⟩ := microRun_cons_next h
    obtain ⟨hk', hstep⟩ := microStep_staysWhole hm hk
    obtain ⟨hm', hrest⟩ := ih hk' hrun
    exact ⟨hm', fun p hp => hstep p (hrest p hp)⟩

end

/-- Settles O57. -/
theorem tornUpdatesAreRecorded : Obligations.TornUpdatesAreRecorded := by
  refine ⟨fun m p j hc hi hm hwho => ?_, fun es s m p h => (microRun_staysWhole ⟨rfl, rfl⟩ h).2 p⟩
  have tear : issuer j ≠ .fg ∧ j.port = p ∧ (∀ i done, m.fg ≠ .reset i done) ∧ m.tears j = true := by
    rcases hwho with ⟨⟨b, c, hfg⟩, d, rfl⟩ | ⟨⟨d, c, hfg⟩, rfl, hie, hh⟩ | ⟨⟨v, hfg⟩, ⟨d, rfl⟩ | ⟨⟨d, rfl⟩, hfull⟩⟩
    · exact ⟨nofun, rfl, by simp [hfg], by simp [Micro.tears, hfg, Micro.occurs, Instr.port, hi]⟩
    · exact ⟨nofun, rfl, by simp [hfg],
        by simp [Micro.tears, hfg, Micro.occurs, Instr.port, hi, Port.txIrqPending, hie, hh]⟩
    · exact ⟨nofun, rfl, by simp [hfg], by simp [Micro.tears, hfg, Micro.occurs, Instr.port, hi]⟩
    · exact ⟨nofun, rfl, by simp [hfg],
        by simp [Micro.tears, hfg, Micro.occurs, Instr.port, hi, Port.rxFull, full_true.2 hfull]⟩
  obtain ⟨hj, rfl, hreset, ht⟩ := tear
  exact records_of_raiseFault ((microStep_other hc).trans (microOther_of_tears hj hm (races_eq_false hreset) ht))

/-! ### A masked reset (R186, R193) -/

section
variable {P : Port} {i j : Instr} {s t : State} {p : PortId} {m m' : Micro} {l : List Instr} {w w' : FieldWrite}
  {ws : List FieldWrite} {pre : List FieldWrite}

/-- The micro-step state in which both interrupt sources of port `p` are masked. -/
abbrev masked (p : PortId) (s : State) (fg : FgPoint) : Micro :=
  { base := s, fg := fg, masked := [.rx p, .tx p], wordAtomic := true }

/-- Handlers whose sources are masked do not run (R166). -/
theorem microRun_masked {fg : FgPoint} (hc : s.cdc = .exact)
    (hl : ∀ j ∈ l, sourceOf j = some (.rx p) ∨ sourceOf j = some (.tx p)) :
    microRun (l.map .other) (masked p s fg) = .next (masked p s fg) := by
  induction l with
  | nil => rfl
  | cons j l ih =>
    have hj : issuer j ≠ .fg := (hl j (List.mem_cons_self ..)).elim issuer_of_source issuer_of_source
    have hskip : microOther j (masked p s fg) = .next (masked p s fg) := by
      rw [microOther, if_neg hj, if_pos]
      rcases hl j (List.mem_cons_self ..) with h | h <;> simp [h]
    rw [List.map_cons, microRun_cons ((microStep_other hc).trans hskip)]
    exact ih fun k hk => hl k (List.mem_cons_of_mem _ hk)

/-- A write changes no capacity and no transmit mode, on which the list of writes depends. -/
theorem resetWrites_apply (i : Instr) (w : FieldWrite) (P : Port) : resetWrites i (w.apply P) = resetWrites i P := by
  cases i <;> cases w <;> cases htx : P.tx <;> simp [resetWrites, FieldWrite.apply, htx, TxPath.mapRing, TxPath.setIe]

/-- One write of a reset that is not the last. -/
theorem microFg_reset_next (hp : i.port = p) (h : resetWrites i (s.port p) = pre ++ w :: w' :: ws) :
    microFg (masked p s (.reset i pre.length)) =
      .next (masked p (s.mapPort p (FieldWrite.apply · w)) (.reset i (pre.length + 1))) := by
  subst hp
  simp [microFg, h, Micro.move, State.mapPort]

/-- The last write of a reset. -/
theorem microFg_reset_last (hp : i.port = p) (h : resetWrites i (s.port p) = pre ++ [w]) :
    microFg (masked p s (.reset i pre.length)) =
      .next (masked p ((s.mapPort p (FieldWrite.apply · w)).respond .done) .idle) := by
  subst hp
  simp [microFg, h, Micro.finish, State.mapPort]

/-- With the handlers masked the writes of a reset follow one another. -/
theorem microRun_reset (hp : i.port = p) (hc : s.cdc = .exact)
    (h : resetWrites i (s.port p) = pre ++ w :: ws) {between : List (List Instr)}
    (hlen : between.length = ws.length + 1)
    (hbetween : ∀ l ∈ between, ∀ j ∈ l, sourceOf j = some (.rx p) ∨ sourceOf j = some (.tx p)) :
    microRun (between.flatMap fun l => .fg :: l.map .other) (masked p s (.reset i pre.length)) =
      .next (masked p ((s.mapPort p fun P => (w :: ws).foldl FieldWrite.apply P).respond .done) .idle) := by
  induction ws generalizing s w pre between with
  | nil =>
    obtain ⟨l, rfl⟩ := List.length_eq_one_iff.1 hlen
    have hc' := (mapPort_cdc p (FieldWrite.apply · w) s).trans hc
    have run := microRun_trans (microRun_fg hc (microFg_reset_last hp h))
      (microRun_masked hc' (hbetween l (List.mem_singleton_self l)))
    simpa using run
  | cons w' ws ih =>
    obtain _ | ⟨l, between⟩ := between
    · cases hlen
    have hc' := (mapPort_cdc p (FieldWrite.apply · w) s).trans hc
    have run := microRun_trans (microRun_fg hc (microFg_reset_next hp h))
      (microRun_masked hc' (hbetween l (List.mem_cons_self ..)))
    have rest := ih (s := s.mapPort p (FieldWrite.apply · w)) (pre := pre ++ [w]) hc'
      (by rw [State.mapPort, setPort_port_same, resetWrites_apply, h, List.append_assoc]; rfl)
      (Nat.succ.inj hlen) fun k hk => hbetween k (List.mem_cons_of_mem _ hk)
    rw [List.length_append, mapPort_mapPort] at rest
    rw [List.flatMap_cons]
    exact microRun_trans run rest

/-- The writes of INIT, taken together, are INIT's effect (R120). -/
theorem foldl_resetWrites_init (P : Port) :
    (resetWrites (.init p) P).foldl FieldWrite.apply P = P.initialised := by
  rw [Port.initialised]
  cases htx : P.tx <;> simp [resetWrites, FieldWrite.apply, htx, TxPath.mapRing, TxPath.setIe, Ring.clear, TxPath.clear]

/-- The writes of RXFLUSH, taken together, are its effect where no token is pending (R87). -/
theorem foldl_resetWrites_rxflush (hpush : P.rx.pendPush = 0) (hpop : P.rx.pendPop = 0) :
    (resetWrites (.rxflush p) P).foldl FieldWrite.apply P = { P with rx := P.rx.clear } := by
  simp [resetWrites, FieldWrite.apply, Ring.clear, hpush, hpop]

theorem microIssue_reset (h : i = .init p ∨ (i = .rxflush p ∧ (s.port p).inited = true)) :
    microIssue i (masked p s .idle) = .next (masked p s (.reset i 0)) := by
  rcases h with rfl | ⟨rfl, hi⟩
  · simp [microIssue, issuer, startPoint]
  · simp [microIssue, issuer, startPoint, Instr.port, hi]

/-- What the writes of a reset make of the state is what the operation makes of it. -/
theorem exec_reset (hs : s.Inv) (hc : s.cdc = .exact)
    (h : i = .init p ∨ (i = .rxflush p ∧ (s.port p).inited = true)) :
    exec i s =
      .next ((s.mapPort p fun P => (resetWrites i (s.port p)).foldl FieldWrite.apply P).respond .done) := by
  rcases h with rfl | ⟨rfl, hi⟩
  · rw [exec_init, State.mapPort, foldl_resetWrites_init]
  · obtain ⟨hpush, hpop⟩ := ((hs.ports p).rxRing hi).exact_tokens hc
    rw [exec_rxflush hi, State.mapPort, foldl_resetWrites_rxflush hpush hpop]

theorem resetWrites_ne_nil (i : Instr) (P : Port) : ∃ w ws, resetWrites i P = w :: ws := by
  cases i <;> exact ⟨_, _, rfl⟩

end

/-- Settles O55. -/
theorem maskedResetIsAtomic : Obligations.MaskedResetIsAtomic := by
  intro s t p i between hs hc hwho ht hlen hbetween
  have hp : i.port = p := by rcases hwho with rfl | ⟨rfl, -⟩ <;> rfl
  obtain ⟨w, ws, hw⟩ := resetWrites_ne_nil i (s.port p)
  have run := microRun_reset (pre := []) hp hc hw (by rw [hlen, hw, List.length_cons]) hbetween
  obtain rfl := Host.Outcome.next.inj ((exec_reset hs hc hwho).symm.trans ht)
  rw [hw]
  exact microRun_trans (microRun_issue hc (microIssue_reset hwho)) run

end Sys2Proof.Machine
end

section
/-! Bytes reach the wire in a fair execution (R24, R173): as long as no byte is sent nothing that a byte needs in order to
be sent is undone, so that fairness brings about a delivery, a free register and a drain, one after the other. -/

namespace Sys2Proof.Machine

section
variable {c : CdcMode} {P P' P'' : Port} {i : Instr} {r : Response} {p : PortId} {R : Ring} {ie : Bool}

/-! ### What a port keeps while it sends nothing -/

/-- From `P` to `P'` no byte left the transmit ring or the drain side's view, and the register did not become busy. -/
structure KeepsReady (P P' : Port) : Prop where
  ring : ∀ R ie, P.tx = .queued R ie → ∃ R' ie', P'.tx = .queued R' ie' ∧ R.count ≤ R'.count ∧ R.viewc ≤ R'.viewc
  register : P.hwTxReady = true → P'.hwTxReady = true

theorem KeepsReady.refl (P : Port) : KeepsReady P P := ⟨fun R ie h => ⟨R, ie, h, le_rfl, le_rfl⟩, id⟩

theorem KeepsReady.trans (h : KeepsReady P P') (h' : KeepsReady P' P'') : KeepsReady P P'' := by
  refine ⟨fun R ie htx => ?_, h'.register ∘ h.register⟩
  obtain ⟨R', ie', htx', hcount, hviewc⟩ := h.ring R ie htx
  obtain ⟨R'', ie'', htx'', hcount', hviewc'⟩ := h'.ring R' ie' htx'
  exact ⟨R'', ie'', htx'', hcount.trans hcount', hviewc.trans hviewc'⟩

/-- An effect that replaces the transmit half by a ring that is no emptier. -/
theorem KeepsReady.of_queued {R' : Ring} {ie' : Bool} (htx : P.tx = .queued R ie) (htx' : P'.tx = .queued R' ie')
    (hcount : R.count ≤ R'.count) (hviewc : R.viewc ≤ R'.viewc) (hh : P'.hwTxReady = P.hwTxReady) : KeepsReady P P' := by
  refine ⟨fun S je h => ?_, fun h => hh.trans h⟩
  cases htx.symm.trans h
  exact ⟨R', ie', htx', hcount, hviewc⟩

/-- An effect other than INIT's that sends no byte undoes nothing. -/
theorem Effect.keepsReady (e : Effect c P i P' r) (hinit : ∀ q, i ≠ .init q) (hwire : P'.wireOut = P.wireOut) :
    KeepsReady P P' := by
  have sent (Q : Port) (b : Byte) (h : (Q.sendByte b).wireOut = Q.wireOut) : False := by
    simp [Port.sendByte] at h
  cases e with
  | init q => exact absurd rfl (hinit q)
  | putchStore q d htx room =>
    exact .of_queued htx (queuedAfterPut_eq ..) (Nat.le_succ _) (viewc_le_push c d _) rfl
  | putchSend q d htx free => exact (sent _ d hwire).elim
  | txdrainSend q htx free seen front => exact (sent _ _ hwire).elim
  | txdrainDisarm q htx free empty => exact .of_queued htx rfl le_rfl le_rfl rfl
  | syncTxpush q =>
    cases htx : P.tx with
    | queued R ie => exact .of_queued (R' := R.deliverPush) htx rfl le_rfl (viewc_le_deliverPush R) rfl
    | direct => rw [TxPath.deliverPush, ← htx]; exact .refl P
  | syncTxpop q =>
    cases htx : P.tx with
    | queued R ie => exact .of_queued (R' := R.deliverPop) htx rfl le_rfl le_rfl rfl
    | direct => rw [TxPath.deliverPop, ← htx]; exact .refl P
  | txdoneFree q busy => exact ⟨(KeepsReady.refl P).ring, fun _ => rfl⟩
  | _ => exact ⟨(KeepsReady.refl P).ring, id⟩

end

section
variable {e : Execution} {p : PortId} {i : Instr} {n m : Nat} {R : Ring} {ie : Bool} {l : List Byte}

/-! ### Along an execution -/

/-- Every state of an execution from a state that meets the invariant meets it. -/
theorem Execution.Valid.inv (hv : e.Valid) (h0 : (e.states 0).Inv) (n : Nat) : (e.states n).Inv := by
  induction n with
  | zero => exact h0
  | succ n ih => exact step_keeps_inv (ih.load _ _) (hv n)

/-- From step `n` on port `p` is initialised and stays so, without INIT, in an execution that meets the invariant. -/
structure Running (e : Execution) (p : PortId) (n : Nat) : Prop where
  valid : e.Valid
  inv : ∀ m, (e.states m).Inv
  inited : ∀ m, n ≤ m → ((e.states m).port p).inited = true
  noInit : ∀ m, n ≤ m → e.performed m ≠ some (.init p)

theorem Running.of_le (h : Running e p n) (hm : n ≤ m) : Running e p m :=
  ⟨h.valid, h.inv, fun k hk => h.inited k (hm.trans hk), fun k hk => h.noInit k (hm.trans hk)⟩

/-- A step appends to what is on the wire and then in the ring (R109). -/
theorem Running.bytes_next (h : Running e p n) (hm : n ≤ m) :
    ∃ put, ((e.states (m + 1)).port p).wireOut ++ ((e.states (m + 1)).port p).txContents =
      ((e.states m).port p).wireOut ++ ((e.states m).port p).txContents ++ put := by
  have hstep := step_tx_bytes (p := p) ((h.inv m).load _ _) (h.valid m) (decide_eq_false (h.noInit m hm))
  rw [load_port] at hstep
  exact ⟨_, hstep⟩

/-- What was on the wire and in the ring is the beginning of what is there later. -/
theorem Running.bytes_prefix (h : Running e p n) (hm : n ≤ m) :
    ((e.states n).port p).wireOut ++ ((e.states n).port p).txContents <+:
      ((e.states m).port p).wireOut ++ ((e.states m).port p).txContents := by
  induction m, hm using Nat.le_induction with
  | base => exact List.prefix_rfl
  | succ m hm ih =>
    obtain ⟨put, hput⟩ := h.bytes_next hm
    exact ih.trans (hput ▸ List.prefix_append _ _)

/-- A step leaves the wire of `p` as it is or appends one byte. -/
theorem Running.wire_next (h : Running e p n) (m : Nat) :
    ((e.states (m + 1)).port p).wireOut = ((e.states m).port p).wireOut ∨
      ∃ b, ((e.states (m + 1)).port p).wireOut = ((e.states m).port p).wireOut ++ [b] := by
  cases hop : e.performed m with
  | none => exact .inl (by rw [h.valid.port_of_performed_none hop])
  | some i =>
    obtain ⟨u, hu, hport⟩ := h.valid.exec_performed hop
    have hw := (exec_portMove hu p).wireOut_writers
    rw [hport] at hw
    by_cases hsame : ((e.states (m + 1)).port p).wireOut = ((e.states m).port p).wireOut
    · exact .inl hsame
    · exact .inr (hw hsame).2

theorem Running.wire_length_mono (h : Running e p n) (hm : n ≤ m) :
    ((e.states n).port p).wireOut.length ≤ ((e.states m).port p).wireOut.length := by
  induction m, hm using Nat.le_induction with
  | base => exact le_rfl
  | succ m hm ih =>
    rcases h.wire_next m with hw | ⟨b, hw⟩
    · rwa [hw]
    · rw [hw, List.length_append]
      omega

/-- Port `p` sends nothing from step `n` on. -/
structure Stalled (e : Execution) (p : PortId) (n : Nat) : Prop extends Running e p n where
  wire : ∀ m, n ≤ m → ((e.states (m + 1)).port p).wireOut = ((e.states m).port p).wireOut

theorem Stalled.of_le (h : Stalled e p n) (hm : n ≤ m) : Stalled e p m :=
  ⟨h.toRunning.of_le hm, fun k hk => h.wire k (hm.trans hk)⟩

theorem Stalled.keepsReady_next (h : Stalled e p n) (hm : n ≤ m) :
    KeepsReady ((e.states m).port p) ((e.states (m + 1)).port p) := by
  have hport : ∀ q, (e.before m).port q = (e.states m).port q := fun q => load_port _ q _ _
  cases step_portStep (h.valid m) p with
  | still same =>
    rw [same, hport]
    exact .refl _
  | @effect i hop own up eff =>
    rw [hport] at eff
    refine eff.keepsReady (fun q hq => ?_) (h.wire m hm)
    subst hq
    obtain rfl : q = p := own
    exact h.noInit m hm hop

theorem Stalled.keepsReady (h : Stalled e p n) (hm : n ≤ m) :
    KeepsReady ((e.states n).port p) ((e.states m).port p) := by
  induction m, hm using Nat.le_induction with
  | base => exact .refl _
  | succ m hm ih => exact ih.trans (h.keepsReady_next hm)

/-! ### What fairness brings about -/

/-- A byte that waits is seen by the drain side at some time, for its token is delivered. -/
theorem Stalled.seen (h : Stalled e p n) (hf : e.Fair) (htx : ((e.states n).port p).tx = .queued R ie)
    (hpos : 0 < R.count) :
    ∃ m, n ≤ m ∧ ∃ R' ie', ((e.states m).port p).tx = .queued R' ie' ∧ 0 < R'.viewc := by
  obtain ⟨m, hm, hstop⟩ := hf (.syncTxpush p) n
  obtain ⟨R', ie', htx', hcount, -⟩ := (h.keepsReady hm).ring R ie htx
  have hR' := ((h.inv m).ports p).txRing (h.inited m hm) R' ie' htx'
  rcases hstop with hnot | hdone
  · refine ⟨m, hm, R', ie', htx', ?_⟩
    have howed := owed_op .txPush p (e.states m)
    rw [SyncChannel.op, hnot, h.inited m hm, pending_txPush_queued htx', Bool.true_and] at howed
    have hnone := of_decide_eq_false howed.symm
    rw [Ring.viewc]
    omega
  · obtain ⟨u, hu, hport⟩ := h.valid.exec_performed hdone
    have hexec := exec_op (s := u) (p := p) .txPush (by rw [hport]; exact h.inited m hm)
    refine ⟨m + 1, hm.trans (Nat.le_succ m), R'.deliverPush, if 0 < R'.pendPush then true else ie', ?_,
      avail_true.1 (hR'.avail_deliverPush_of_count (by omega))⟩
    rw [← Host.Outcome.next.inj (hexec.symm.trans hu), respond_port, State.deliver, setPort_port_same, hport,
      SyncChannel.deliver, htx']
    rfl

/-- The hardware register becomes free at some time. -/
theorem Stalled.free (h : Stalled e p n) (hf : e.Fair) : ∃ m, n ≤ m ∧ ((e.states m).port p).hwTxReady = true := by
  obtain ⟨m, hm, hstop⟩ := hf (.txdone p) n
  rcases hstop with hnot | hdone
  · refine ⟨m, hm, ?_⟩
    simpa [owed, Instr.port, h.inited m hm] using hnot
  · obtain ⟨u, hu, hport⟩ := h.valid.exec_performed hdone
    have hi : (u.port p).inited = true := by rw [hport]; exact h.inited m hm
    obtain ⟨r, eff⟩ := txdone_effect u.cdc (u.port p) p
    refine ⟨m + 1, hm.trans (Nat.le_succ m), ?_⟩
    rw [← Host.Outcome.next.inj ((exec_of_effect (i := .txdone p) (.inl hi) eff).symm.trans hu), respond_port]
    exact congrArg Port.hwTxReady (setPort_port_same ..)

/-- With a byte in view and the register free the transmit interrupt is pending, and when it fires a byte is sent. -/
theorem Stalled.not_ready (h : Stalled e p n) (hf : e.Fair) (htx : ((e.states n).port p).tx = .queued R ie)
    (hseen : 0 < R.viewc) (hfree : ((e.states n).port p).hwTxReady = true) : False := by
  obtain ⟨m, hm, hstop⟩ := hf (.txdrain p) n
  have ready := h.keepsReady hm
  obtain ⟨R', ie', htx', -, hviewc⟩ := ready.ring R ie htx
  have hi := h.inited m hm
  have hP := (h.inv m).ports p
  have ha : R'.avail = true := avail_true.2 (hseen.trans_le hviewc)
  obtain rfl : ie' = true := hP.armed hi R' ie' htx' (avail_true.1 ha)
  have hpending := txIrqPending_armed htx' (ready.register hfree)
  rcases hstop with hnot | hdone
  · simp [owed, Instr.port, hi, hpending] at hnot
  · obtain ⟨u, hu, hport⟩ := h.valid.exec_performed hdone
    obtain ⟨b, hb⟩ := (hP.txRing hi R' true htx').pop_some ha
    have hfront := (pop_eq_some.1 hb).1
    rw [← hport] at htx' hi
    have hexec := exec_txdrain_of_pop hi htx' (by rw [hport]; exact ready.register hfree) ha
      (pop_eq_some.2 ⟨hfront, rfl⟩)
    have hwire := h.wire m hm
    rw [← Host.Outcome.next.inj (hexec.symm.trans hu), respond_port, setPort_port_same, ← hport] at hwire
    simp [Port.sendByte] at hwire

/-- A byte that waits is sent: the port does not stall. -/
theorem Running.sends (h : Running e p n) (hf : e.Fair) (htx : ((e.states n).port p).tx = .queued R ie)
    (hpos : 0 < R.count) :
    ∃ m, n ≤ m ∧ ((e.states n).port p).wireOut.length < ((e.states m).port p).wireOut.length := by
  by_contra hnever
  push Not at hnever
  have stalled : Stalled e p n := by
    refine ⟨h, fun m hm => (h.wire_next m).resolve_right ?_⟩
    rintro ⟨b, hb⟩
    have hle := hnever (m + 1) (hm.trans (Nat.le_succ m))
    have hmono := h.wire_length_mono hm
    rw [hb, List.length_append, List.length_singleton] at hle
    omega
  obtain ⟨k, hk, R', ie', htx', hseen⟩ := stalled.seen hf htx hpos
  obtain ⟨m, hm, hfree⟩ := (stalled.of_le hk).free hf
  obtain ⟨R'', ie'', htx'', -, hviewc⟩ := ((stalled.of_le hk).keepsReady hm).ring R' ie' htx'
  exact (stalled.of_le (hk.trans hm)).not_ready hf htx'' (hseen.trans_le hviewc) hfree

/-- A ring that holds bytes has a count above 0. -/
theorem count_pos_of_contents (h : R.contents ≠ []) : 0 < R.count := by
  rcases Nat.eq_zero_or_pos R.count with h0 | hpos
  · exact absurd (by rw [Ring.contents, h0]; rfl) h
  · exact hpos

/-- As many bytes as one likes of those that were on the wire or in the ring are on the wire at some time. -/
theorem Running.sends_many (h : Running e p n) (hf : e.Fair) (k : Nat)
    (hk : k ≤ (((e.states n).port p).wireOut ++ ((e.states n).port p).txContents).length) :
    ∃ m, n ≤ m ∧ k ≤ ((e.states m).port p).wireOut.length := by
  induction k with
  | zero => exact ⟨n, le_rfl, Nat.zero_le _⟩
  | succ k ih =>
    obtain ⟨m, hm, hkm⟩ := ih (by omega)
    by_cases hdone : k + 1 ≤ ((e.states m).port p).wireOut.length
    · exact ⟨m, hm, hdone⟩
    · have hbytes := (h.bytes_prefix hm).length_le
      rw [List.length_append (as := ((e.states m).port p).wireOut)] at hbytes
      cases htx : ((e.states m).port p).tx with
      | direct =>
        rw [show ((e.states m).port p).txContents = [] by rw [Port.txContents, htx]; rfl, List.length_nil] at hbytes
        omega
      | queued R ie =>
        rw [txContents_queued htx] at hbytes
        have hpos : 0 < R.count := count_pos_of_contents fun hnil => by rw [hnil, List.length_nil] at hbytes; omega
        obtain ⟨m', hm', hlt⟩ := (h.of_le hm).sends hf htx hpos
        exact ⟨m', hm.trans hm', by omega⟩

end

/-- Settles O59: every byte of the ring is sent in its turn, and what is on the wire is in the order in which it was put
into the ring. -/
theorem everyBufferedByteIsSent : Obligations.EveryBufferedByteIsSent := by
  intro e p n hv hf h0 hi hno
  have running : Running e p n := by
    refine ⟨hv, hv.inv h0, fun m hm => ?_, hno⟩
    obtain ⟨k, rfl⟩ := Nat.exists_eq_add_of_le hm
    exact hv.inited_add hi k
  obtain ⟨m, hm, hlen⟩ := running.sends_many hf _ le_rfl
  exact ⟨m, hm, List.prefix_of_prefix_length_le (running.bytes_prefix hm) (List.prefix_append _ _) hlen⟩

end Sys2Proof.Machine
end
